-- ==== Sys2Proof/Word.lean ====
section
/-! DEFINITION. The word types of CURLPOW-CORE (spec/00_scope.md R8, R9) and their plainest arithmetic. -/

namespace Sys2Proof

/-- A `u32`: a register of the host port, or a command word (R8, R60). -/
abbrev Word := BitVec 32

/-- A byte; also the `i8` storage cell of one trit (R8, R20). -/
abbrev Byte := BitVec 8

/-- A `u64` nonce (R6, R8). -/
abbrev Nonce := BitVec 64

/-- A 16-bit lane mask, bit l for lane l (R156, R157). -/
abbrev LaneMask := BitVec 16

/-- The 64-bit value `{hi, lo}` of two 32-bit registers, `hi` the more significant (R9, R63). -/
def joinHalves (hi lo : Word) : Nonce := hi ++ lo

/-- Bits [31:0] of a 64-bit value (R48). -/
def lowHalf (n : Nonce) : Word := n.extractLsb' 0 32

/-- Bits [63:32] of a 64-bit value (R48). -/
def highHalf (n : Nonce) : Word := n.extractLsb' 32 32

end Sys2Proof
end

