-- ==== Sys2Proof/Config.lean ====
section
/-! DEFINITION. The configuration of CURLPOW-CORE: the fixed values of spec/00_scope.md R6, the named parameters of
R7 with the values the spec takes for this block, and the values the spec leaves open (constants with no body). -/

namespace Sys2Proof

/-- How the codec reads "shift `value` into signed range" (R7 `CODEC_SIGN_MODE`, R100, D3). -/
inductive CodecSignMode where
  | twos
  | offset128
  deriving DecidableEq, Repr

/-- Which nonce byte goes to which window of `[192,240)` (R7 `NONCE_BYTE_ORDER`, R105, R106, D5). -/
inductive NonceByteOrder where
  | le
  | be
  deriving DecidableEq, Repr

/-- The two parameters of R7 that choose among stated alternatives. A machine carries its own (`State.params`), so that
every claim over every state is a claim for each of them (assumption 11). -/
structure Params where
  /-- `CODEC_SIGN_MODE` (R7, R100). -/
  signMode : CodecSignMode
  /-- `NONCE_BYTE_ORDER` (R7, R105, R106). -/
  byteOrder : NonceByteOrder
  deriving DecidableEq, Repr

namespace Config

/-- `HASH_LENGTH` (R6). -/
def hashLength : Nat := 243

/-- `STATE_LENGTH` = 3 × 243 (R6). -/
def stateLength : Nat := 729

/-- `ROUNDS` (R6). -/
def rounds : Nat := 81

/-- `LANES` (R6). -/
def lanes : Nat := 16

/-- `DIGEST_BYTES` (R6). -/
def digestBytes : Nat := 32

/-- `TRITS_PER_BYTE` (R6). -/
def tritsPerByte : Nat := 6

/-- CURLPOW-CORE takes `TWOS` (R7, D3). -/
def codecSignMode : CodecSignMode := .twos

/-- CURLPOW-CORE takes `LE` (R7, D5). -/
def nonceByteOrder : NonceByteOrder := .le

/-- The parameters of CURLPOW-CORE: TWOS and LE (R7, D3, D5). -/
def params : Params := { signMode := codecSignMode, byteOrder := nonceByteOrder }

/-- `DEFAULT_MAX_NONCE` = 2^64 − 1 (R7, R45, D27). -/
def defaultMaxNonce : Nonce := BitVec.allOnes 64

/-- `VEC_SENTINEL`: entries 11..15 of the padded vector table.
OPEN (R7, R151, D8), so it has no body; no step ever selects it (R152). -/
opaque vecSentinel : Byte

/-- One less than `MAX_UNITS`, so that `MAX_UNITS` is an integer 1..255.
OPEN (R7, D18), so it has no body. -/
opaque maxUnitsLessOne : Fin 255

/-- `MAX_UNITS`, how many unit contexts the machine has right after reset (R7, R49, D18). -/
def maxUnits : Nat := maxUnitsLessOne.val + 1

/-- FREE VALUE. What `end_u` holds for an empty sub-range whose formula `cMIN + (k+1)·size − 1` is −1 and so names
no `u64` (R212 gives no value there).
It depends on the search's number and the unit. DESIGN CHOICE, assumption 5. -/
opaque emptyRangeEnd : Nat → Nat → Nonce

/-- FREE VALUE. Which of several enabled internal moves comes next when the schedule names none (R225 leaves every
order open); the argument counts the draws. DESIGN CHOICE, assumption 2. -/
opaque pickMove : Nat → Nat

end Config

end Sys2Proof
end

