-- ==== Sys2Proof/Syntax.lean ====
section
/-! DEFINITION. The instructions of CURLPOW-CORE: the five command words and the four port operations, one constructor
per row of spec/opcode_table.json (spec/30_encoding.md R80–R85, spec/45_host_commands.md R241–R251). -/

namespace Sys2Proof

/-- One constructor per row of the opcode table. Field widths are those of the encoding (R81–R83, R248, R249), so
every value of a field is encodable; `OFF` is bits 7:2 of the port offset. -/
inductive Instr where
  /-- `NOP`, format N (R81, R241). -/
  | nop
  /-- `SET_DIGEST_BYTE IDX, VAL`, format D (R82, R242). -/
  | setDigestByte (idx : BitVec 5) (val : Byte)
  /-- `RUN_SEARCH TZ [, vec]`, format S with UNITS = DL = FB = 0 (R83, R85, R244). -/
  | runSearch (tz : BitVec 8) (vec : Bool)
  /-- `SEARCH TZ, UNITS [, dl] [, vec] [, fb]`, format S (R83, R245). -/
  | search (tz units : BitVec 8) (dl vec fb : Bool)
  /-- `CANCEL`, format N (R81, R246). -/
  | cancel
  /-- `RD off`: `HostRead(4·OFF)` (R248). -/
  | rd (off : BitVec 6)
  /-- `WR off, v`: `HostWrite(4·OFF, v)` with OFF ≠ 0 (R249). -/
  | wr (off : BitVec 6) (v : Word)
  /-- `READ_NONCE_LO`: `HostRead(0x20)` (R250). -/
  | readNonceLo
  /-- `READ_NONCE_HI`: `HostRead(0x24)` (R251). -/
  | readNonceHi
  deriving DecidableEq, Repr

end Sys2Proof
end

