-- ==== Sys2Proof/WellFormed.lean ====
section
/-! DEFINITION. Well-formed instructions: the terms of `Instr` that the spec gives an encoding of their own.
The field types already bound every operand; two checks remain, both on port offsets. -/

namespace Sys2Proof

/-- `OFF` of `NONCE_LO`, offset 0x20 (R48). -/
def offNonceLo : BitVec 6 := 0x08#6

/-- `OFF` of `NONCE_HI`, offset 0x24 (R48). -/
def offNonceHi : BitVec 6 := 0x09#6

/-- A term that is an instruction of the table:
a write at offset 0x00 is a command word and no `WR` (R249), and a read at 0x20 or 0x24 is spelled `READ_NONCE_LO` or
`READ_NONCE_HI` (R250, R251; assumption 7). -/
def wellFormed : Instr → Bool
  | .nop => true
  | .setDigestByte _ _ => true
  | .runSearch _ _ => true
  | .search _ _ _ _ _ => true
  | .cancel => true
  | .rd off => off != offNonceLo && off != offNonceHi
  | .wr off _ => off != 0#6
  | .readNonceLo => true
  | .readNonceHi => true

end Sys2Proof
end

