-- ==== Sys2Proof/Decode.lean ====
section
/-! DEFINITION. Decoding of host port accesses and command words (spec/30_encoding.md R80–R88, spec/20_memory.md R60),
total and rejecting by name, and the encoder beside it. -/

namespace Sys2Proof

/-- One access the host makes at the register port: a direction, a width in bits, a byte offset and, for a write, the
32 data bits (R60). Accesses of any width and offset can be written down; which are admitted is `decode`'s check. -/
inductive PortAccess where
  | read (width off : Nat)
  | write (width off : Nat) (v : Word)
  deriving DecidableEq, Repr

/-- Why an access is no instruction. -/
inductive DecodeError where
  /-- An access that is not 32 bits wide (R60). -/
  | widthNotAdmitted (width : Nat)
  /-- An offset outside `[0, 0x100)` (R60). -/
  | outsideWindow (off : Nat)
  /-- An offset that is not a multiple of 4 (R60, R65). -/
  | misaligned (off : Nat)
  /-- A command word that R88 calls illegal. -/
  | illegalCommand (w : Word)
  deriving DecidableEq, Repr

/-- The field `w[hi:lo]` of a command word (R9). -/
def field (w : Word) (hi lo : Nat) : BitVec (hi - lo + 1) := w.extractLsb hi lo

/-- The one-bit field `w[i]` as a flag (R9). -/
def flagBit (w : Word) (i : Nat) : Bool := w.getLsbD i

/-- `decode(w)` of R86, the normative statement of which command words are legal (R81–R85, R87, R88). -/
def decodeCommand (w : Word) : Except DecodeError Instr :=
  if field w 31 24 = 0x00#8 then
    if field w 23 0 = 0#24 then .ok .nop else .error (.illegalCommand w)
  else if field w 31 24 = 0x01#8 then
    if field w 23 13 = 0#11 then .ok (.setDigestByte (field w 12 8) (field w 7 0))
    else .error (.illegalCommand w)
  else if field w 31 24 = 0x02#8 then
    if field w 23 19 = 0#5 ∧ flagBit w 18 = false ∧ flagBit w 16 = false ∧ field w 15 8 = 0#8 then
      .ok (.runSearch (field w 7 0) (flagBit w 17))
    else .error (.illegalCommand w)
  else if field w 31 24 = 0x03#8 then
    if field w 23 19 = 0#5 then
      .ok (.search (field w 7 0) (field w 15 8) (flagBit w 16) (flagBit w 17) (flagBit w 18))
    else .error (.illegalCommand w)
  else if field w 31 24 = 0x04#8 then
    if field w 23 0 = 0#24 then .ok .cancel else .error (.illegalCommand w)
  else .error (.illegalCommand w)

/-- Which port operation a read at word index `off` is: the two named accessors at their own offsets (R250, R251;
assumption 7), else `RD` (R248). -/
def decodeRead (off : BitVec 6) : Instr :=
  if off = offNonceLo then .readNonceLo
  else if off = offNonceHi then .readNonceHi
  else .rd off

/-- A write at word index `off`: at offset 0x00 its data is a command word (R240), elsewhere it is `WR` (R249). -/
def decodeWrite (off : BitVec 6) (v : Word) : Except DecodeError Instr :=
  if off = 0#6 then decodeCommand v else .ok (.wr off v)

/-- Only 32-bit accesses at a multiple of 4 in `[0, 0x100)` are admitted (R60); the answer is the word index. -/
def portOffset (width off : Nat) : Except DecodeError (BitVec 6) :=
  if width ≠ 32 then .error (.widthNotAdmitted width)
  else if 0x100 ≤ off then .error (.outsideWindow off)
  else if off % 4 ≠ 0 then .error (.misaligned off)
  else .ok (BitVec.ofNat 6 (off / 4))

/-- The instruction a host access stands for, or why it is none (R60, R80, R86). -/
def decode : PortAccess → Except DecodeError Instr
  | .read width off =>
    match portOffset width off with
    | .ok o => .ok (decodeRead o)
    | .error e => .error e
  | .write width off v =>
    match portOffset width off with
    | .ok o => decodeWrite o v
    | .error e => .error e

/-- The command word of format S (R83). -/
def formatS (op tz units : BitVec 8) (dl vec fb : Bool) : Word :=
  op ++ 0#5 ++ BitVec.ofBool fb ++ BitVec.ofBool vec ++ BitVec.ofBool dl ++ units ++ tz

/-- The 32-bit host access at word index `off`, as an offset in bytes. -/
def byteOffset (off : BitVec 6) : Nat := 4 * off.toNat

/-- The access the host makes for an instruction, from the formats of R81–R83 and the offsets of R248–R251. -/
def encode : Instr → PortAccess
  | .nop => .write 32 0 (0x00#8 ++ 0#24)
  | .setDigestByte idx val => .write 32 0 (0x01#8 ++ 0#11 ++ idx ++ val)
  | .runSearch tz vec => .write 32 0 (formatS 0x02#8 tz 0#8 false vec false)
  | .search tz units dl vec fb => .write 32 0 (formatS 0x03#8 tz units dl vec fb)
  | .cancel => .write 32 0 (0x04#8 ++ 0#24)
  | .rd off => .read 32 (byteOffset off)
  | .wr off v => .write 32 (byteOffset off) v
  | .readNonceLo => .read 32 0x20
  | .readNonceHi => .read 32 0x24

/-- The host access that a row of spec/opcode_table.json describes with `nbits` bits of value `w`: a row wider than
eight bits is a command word (a write at offset 0x00), a row of eight bits is the offset of a port operation.
The table gives `RD` and `WR` the same bits, so the offset alone is read as a read (assumption 8). -/
def tableAccess (nbits w : Nat) : PortAccess :=
  if nbits ≤ 8 then .read 32 w else .write 32 0 (BitVec.ofNat 32 w)

/-- What the decoder reads from a row's bits (see `tableAccess`). -/
def decodeTableWord (nbits w : Nat) : Option Instr :=
  match decode (tableAccess nbits w) with
  | .ok i => some i
  | .error _ => none

end Sys2Proof
end

