-- ==== Sys2Proof/Machine/State.lean ====
section
/-! DEFINITION. The state of CURLPOW-CORE (spec/10_state.md), its faults and refusals, and the state after reset
(R54, spec/70_reset_and_hazards.md R300). Plain data: lists, numbers and closed inductives. -/

namespace Sys2Proof
namespace Machine

/-- The numeric engine a unit runs (R29, R189). -/
inductive Backend where
  | scalar
  | vector
  deriving DecidableEq, Repr

/-- `USTATE_u` (R28). -/
inductive UState where
  | idle
  | searching
  | found
  | exhausted
  | timedOut
  | cancelled
  | failed
  deriving DecidableEq, Repr

/-- `stop_u`, the coordinator's stop request (R32). -/
inductive Stop where
  | none
  | cancel
  | deadline
  deriving DecidableEq, Repr

/-- `report_u`, the terminal report a unit has posted (R33). -/
inductive Report where
  | none
  | found
  | exhausted
  | timedOut
  | cancelled
  | failed
  deriving DecidableEq, Repr

/-- `CSTATE` (R34). -/
inductive CState where
  | idle
  | wait
  | drain
  deriving DecidableEq, Repr

/-- STATUS.CODE (R43, R270); the values 9–15 are never produced and so have no name. -/
inductive StatusCode where
  | idle
  | busy
  | found
  | exhausted
  | timedOut
  | invalidInput
  | backendUnavailable
  | illegalCommand
  | cancelled
  deriving DecidableEq, Repr

/-- Which buffer a kernel reads: the input state or one of the two scratch states (R24, R27). -/
inductive BufferName where
  | input
  | a
  | b
  deriving DecidableEq, Repr

/-- Kernel micro-state: the round counter, the output position, the cursor and the current-buffer selector (R24, R27). -/
structure Micro where
  round : Nat
  pos : Nat
  cursor : Nat
  current : BufferName
  deriving DecidableEq, Repr

/-- A scalar state buffer: 729 one-byte trit cells by position (R20, R22, R23, R69). -/
abbrev TritState := List Byte

/-- The 16 lanes of one position, lane 0 first (R150). -/
abbrev Group := List Byte

/-- A vector state buffer, state-major and lane-minor: 729 groups of 16 cells (R25, R69, R150). -/
abbrev VectorState := List Group

/-- `zeros(729)` (R10). -/
def zeroState : TritState := List.replicate Config.stateLength 0x00#8

/-- The all-zero vector state (R25). -/
def zeroVector : VectorState := List.replicate Config.stateLength (List.replicate Config.lanes 0x00#8)

/-- One search unit: its private buffers and micro-state (R22–R27) and its search state (R28–R33, R37). -/
structure SearchUnit where
  /-- `IN_u` (R22). -/
  inp : TritState
  /-- `A_u` (R23). -/
  bufA : TritState
  /-- `B_u` (R23). -/
  bufB : TritState
  /-- Scalar kernel micro-state (R24). -/
  micro : Micro
  /-- `VIN_u` (R25). -/
  vin : VectorState
  /-- `VA_u` (R26). -/
  va : VectorState
  /-- `VB_u` (R26). -/
  vb : VectorState
  /-- Vector kernel micro-state (R27). -/
  vmicro : Micro
  /-- `USTATE_u` (R28). -/
  ustate : UState
  /-- `start_u` (R29). -/
  rangeStart : Nonce
  /-- `end_u` (R29). -/
  rangeEnd : Nonce
  /-- `empty_u` (R29). -/
  empty : Bool
  /-- `tz_u` (R29). -/
  tz : Nat
  /-- `backend_u` (R29). -/
  backend : Backend
  /-- `fb_u` (R29). -/
  fb : Bool
  /-- `n_u` (R30). -/
  n : Nonce
  /-- `enc_u` (R31). -/
  enc : Nonce
  /-- `stop_u` (R32). -/
  stop : Stop
  /-- `result_u` (R33). -/
  result : Nonce
  /-- `report_u` (R33). -/
  report : Report
  /-- `EXH_u` (R37). -/
  exh : Bool
  deriving DecidableEq, Repr

/-- STATUS, field by field (R43); bits 7 and 31:12 are reserved and read 0, so nothing stores them. -/
structure Status where
  code : StatusCode
  nonceValid : Bool
  rejected : Bool
  done : Bool
  reason : BitVec 4
  deriving DecidableEq, Repr

/-- The host-visible registers (R42–R49) and the digest register file (R39). `CMD` stores nothing (R42) and `CAPS` is
a constant of the machine (R49), so neither has a field. -/
structure HostRegs where
  /-- `STATUS` (R43). -/
  status : Status
  /-- `MIN_LO` (R44). -/
  minLo : Word
  /-- `MIN_HI` (R44). -/
  minHi : Word
  /-- `MAX_LO` (R45). -/
  maxLo : Word
  /-- `MAX_HI` (R45). -/
  maxHi : Word
  /-- `DEADLINE` (R46). -/
  deadline : Word
  /-- `DIGEST[0:32]` (R39). -/
  digest : List Byte
  /-- `DIGEST_VALID` (R47). -/
  digestValid : Word
  /-- `NONCE_LO` (R48). -/
  nonceLo : Word
  /-- `NONCE_HI` (R48). -/
  nonceHi : Word
  deriving DecidableEq, Repr

/-- The coordinator's search snapshot (R35). -/
structure Snapshot where
  /-- `U`. -/
  units : Nat
  /-- `cTZ`. -/
  tz : Nat
  /-- `cMIN`. -/
  min : Nonce
  /-- `cMAX`. -/
  max : Nonce
  /-- `cVEC`. -/
  vec : Bool
  /-- `cFB`. -/
  fb : Bool
  /-- `cDL`. -/
  dl : Bool
  /-- `cLIMIT`. -/
  limit : Word
  deriving DecidableEq, Repr

/-- The result latch `LATCH_SET`, `LATCH_CODE`, `LATCH_NONCE` (R36). -/
structure Latch where
  set : Bool
  code : StatusCode
  nonce : Nonce
  deriving DecidableEq, Repr

/-- The coordinator (R34–R36, R38). -/
structure Coordinator where
  /-- `CSTATE` (R34). -/
  cstate : CState
  /-- The snapshot (R35). -/
  snap : Snapshot
  /-- The latch (R36). -/
  latch : Latch
  /-- `DL_CNT` (R38). -/
  dlCnt : Word
  deriving DecidableEq, Repr

/-- What can come next in the interleaving of single steps (R277, R278): an input from outside the block (a host
access, a `tick` pulse, a level of `rst`, R61) or a choice of which of its own agents moves (R225). -/
inductive Event where
  /-- The host makes one port access (R60). -/
  | host (a : PortAccess)
  /-- One pulse of `tick` (R61, R219). -/
  | tick
  /-- The `rst` input takes a level (R61, R300). -/
  | rst (level : Bool)
  /-- Unit `k` performs its next evaluation step (R182, R185). -/
  | unit (k : Nat)
  /-- The coordinator consumes unit `k`'s pending report (R215). -/
  | report (k : Nat)
  /-- The coordinator takes the deadline expiry (R219). -/
  | deadline
  /-- The coordinator ends a drained search (R222, R223). -/
  | publish
  deriving DecidableEq, Repr

/-- What stands around the block: its inputs and the port's read data. The MODEL's own, not registers of the spec:
the host's program and the schedule are data here, so a claim over every state is a claim over every program and
every order (assumptions 1, 2, 4). -/
structure Env where
  /-- The inputs and scheduling choices still to come, next first (assumptions 1, 2). -/
  agenda : List Event
  /-- The level of the `rst` input (R61, R300). -/
  rst : Bool
  /-- The data word the last admitted read returned to the host (R60; assumption 3). -/
  rdata : Word
  /-- The draws `(search, unit, backend)` of the oracle `initOk` that answer false (R7, R189; assumption 4). -/
  initFails : List (Nat × Nat × Backend)
  /-- How many searches have been launched, the number by which `initOk` draws are told apart (assumption 4). -/
  searches : Nat
  /-- How many scheduling choices `Config.pickMove` has made (assumption 2). -/
  picks : Nat
  deriving DecidableEq, Repr

/-- The whole machine. `units` has one entry per unit context, so its length is `MAX_UNITS` (R7, D18; assumption 6). -/
structure State where
  /-- The codec's parameters of this machine (R7); no step changes them (assumption 11). -/
  params : Params
  regs : HostRegs
  coord : Coordinator
  units : List SearchUnit
  env : Env
  deriving DecidableEq, Repr

/-- The reasons a step stops with a fault. None is an architectural exception (R275). -/
inductive Fault where
  /-- A scalar table index outside 0..10: raised by `lookup`, in a scalar evaluation (R133, R137).
  Unreachable from states of valid trits (R21). Safe. -/
  | kernelIndex
  /-- A vector lane index outside 0..10: raised by `vLookup`, in a vector batch (R152).
  Unreachable from states of valid trits (R21). Safe. -/
  | vectorIndex
  /-- The coordinator, in C_WAIT, consumes a CANCELLED report, for which no rule says what it does: raised by
  `waitReport`. R228 shows that no run reaches it. Safe. -/
  | cancelledReportInWait
  deriving DecidableEq, Repr

/-- The reasons a step is refused: the machine has no step there. -/
inductive Refusal where
  /-- An instruction with no meaning yet, by its mnemonic. No arm of `exec` answers it. Safe. -/
  | notModelled (mnemonic : String)
  /-- A host access that is not 32 bits wide; raised by `hostAccess` (R60: "a model gives it no step"). Safe. -/
  | accessWidthNotAdmitted
  /-- A host access outside the 256-byte window; raised by `hostAccess` (R60). Safe. -/
  | accessOutsideWindow
  /-- A host access at an offset that is no multiple of 4; raised by `hostAccess` (R60, R65). Safe. -/
  | accessMisaligned
  /-- A host access while `rst` is asserted; raised by `hostMove` (R300: "port accesses are not admitted"). Safe. -/
  | accessDuringReset
  /-- The term `wr 0 v`, which is no instruction: a write at offset 0x00 is a command word (R249). The decoder never
  makes this term; raised by `execWr`. Safe. -/
  | wrAtCommandOffset
  deriving DecidableEq, Repr

/-- The outcome of a meaning, or of a step. -/
abbrev Result := Host.Outcome State Fault Refusal

/-- The kernel micro-state the model holds after reset. The spec leaves it unspecified (R24, R27, R302): DESIGN
CHOICE, assumption 9; no step reads it. -/
def Micro.reset : Micro := { round := 0, pos := 0, cursor := 0, current := .input }

/-- A unit after reset (R54). Scratch buffers, micro-states and `enc` are unspecified by the spec (R302): DESIGN
CHOICE, assumption 9; no step reads them before writing them. -/
def SearchUnit.reset : SearchUnit where
  inp := zeroState
  bufA := zeroState
  bufB := zeroState
  micro := Micro.reset
  vin := zeroVector
  va := zeroVector
  vb := zeroVector
  vmicro := Micro.reset
  ustate := .idle
  rangeStart := 0
  rangeEnd := 0
  empty := false
  tz := 0
  backend := .scalar
  fb := false
  n := 0
  enc := 0
  stop := .none
  result := 0
  report := .none
  exh := false

/-- STATUS = 0x00000000 (R43, R54). -/
def Status.reset : Status :=
  { code := .idle, nonceValid := false, rejected := false, done := false, reason := 0#4 }

/-- The registers after reset (R54). -/
def HostRegs.reset : HostRegs where
  status := Status.reset
  minLo := 0
  minHi := 0
  maxLo := lowHalf Config.defaultMaxNonce
  maxHi := highHalf Config.defaultMaxNonce
  deadline := 0
  digest := List.replicate Config.digestBytes 0x00#8
  digestValid := 0
  nonceLo := 0
  nonceHi := 0

/-- The snapshot after reset: U = 1, the rest 0 or false (R35, R54). -/
def Snapshot.reset : Snapshot :=
  { units := 1, tz := 0, min := 0, max := 0, vec := false, fb := false, dl := false, limit := 0 }

/-- The latch after reset (R36, R54). -/
def Latch.reset : Latch := { set := false, code := .idle, nonce := 0 }

/-- The coordinator after reset (R54). -/
def Coordinator.reset : Coordinator :=
  { cstate := .idle, snap := Snapshot.reset, latch := Latch.reset, dlCnt := 0 }

/-- The surroundings with nothing placed: no input to come, `rst` low, every backend initialising (assumptions 1–4). -/
def Env.reset : Env :=
  { agenda := [], rst := false, rdata := 0, initFails := [], searches := 0, picks := 0 }

/-- The machine right after reset (R54, R300), with `MAX_UNITS` unit contexts and CURLPOW-CORE's parameters (R7). -/
def State.reset : State where
  params := Config.params
  regs := HostRegs.reset
  coord := Coordinator.reset
  units := List.replicate Config.maxUnits SearchUnit.reset
  env := Env.reset

/-- A scalar buffer has its 729 cells (R22, R23, R69). -/
def tritStateWf (S : TritState) : Bool := S.length == Config.stateLength

/-- A vector buffer has its 729 groups of 16 cells (R25, R26, R69). -/
def vectorStateWf (V : VectorState) : Bool :=
  V.length == Config.stateLength && V.all fun g => g.length == Config.lanes

/-- Every buffer of a unit has its fixed size (R69). -/
def SearchUnit.buffersWf (u : SearchUnit) : Bool :=
  tritStateWf u.inp && tritStateWf u.bufA && tritStateWf u.bufB &&
    vectorStateWf u.vin && vectorStateWf u.va && vectorStateWf u.vb

/-- The canonical form of the machine's internal memories. There is no memory behind the port (R62): the only
byte arrays are the digest register file and the units' buffers, each of one fixed length, so that equal contents are
equal lists (R39, R69). -/
def Memory.wf (s : State) : Bool :=
  s.regs.digest.length == Config.digestBytes && s.units.all SearchUnit.buffersWf

end Machine
end Sys2Proof
end

