-- ==== Sys2Proof/Machine/Flags.lean ====
section
/-! DEFINITION. The flags: the STATUS word and every rule that computes a STATUS field (spec/10_state.md R43, R51, R52,
spec/60_exceptions.md R270, R272, R276). -/

namespace Sys2Proof
namespace Machine

/-- The number of a STATUS code (R43, R270). -/
def codeBits : StatusCode → BitVec 4
  | .idle => 0#4
  | .busy => 1#4
  | .found => 2#4
  | .exhausted => 3#4
  | .timedOut => 4#4
  | .invalidInput => 5#4
  | .backendUnavailable => 6#4
  | .illegalCommand => 7#4
  | .cancelled => 8#4

/-- The 32-bit STATUS register: reserved[31:12], REASON[11:8], reserved[7], DONE[6], REJECTED[5], NONCE_VALID[4],
CODE[3:0] (R43). -/
def statusWord (st : Status) : Word :=
  0#20 ++ st.reason ++ 0#1 ++ BitVec.ofBool st.done ++ BitVec.ofBool st.rejected ++ BitVec.ofBool st.nonceValid ++
    codeBits st.code

/-- STATUS.CODE = BUSY (R51, R240). -/
def isBusy (s : State) : Bool := s.regs.status.code == .busy

/-- The `done` output, a level equal to STATUS.DONE (R61, R276). -/
def doneLine (s : State) : Bool := s.regs.status.done

/-- The flags of a dropped write: REJECTED ← 1 (R51). -/
def Status.reject (st : Status) : Status := { st with rejected := true }

/-- The flags of an accepted command word: REJECTED ← 0 (R240). -/
def Status.accept (st : Status) : Status := { st with rejected := false }

/-- The flags of `START`: CODE ← BUSY, NONCE_VALID ← 0, DONE ← 0, REASON ← 0 (R243). -/
def Status.start (st : Status) : Status :=
  { st with code := .busy, nonceValid := false, done := false, reason := 0#4 }

/-- The flags of `raise Status(code, reason)` (R272). -/
def Status.raise (code : StatusCode) (reason : BitVec 4) (st : Status) : Status :=
  { st with code := code, reason := reason, nonceValid := false, done := true }

/-- The flags of `PUBLISH`: CODE ← the latched code, DONE ← 1, REASON ← 0, NONCE_VALID ← (code = FOUND) (R223). -/
def Status.publish (code : StatusCode) (st : Status) : Status :=
  { st with code := code, done := true, reason := 0#4, nonceValid := code == .found }

end Machine
end Sys2Proof
end

