-- ==== Sys2Proof/Machine/Operands.lean ====
section
/-! DEFINITION. Operands: the 64-bit register pairs (spec/30_encoding.md R86), the port's registers by offset
(spec/20_memory.md R68, spec/45_host_commands.md R248, R249), and the bit helpers of spec/00_scope.md R8, R11. -/

namespace Sys2Proof
namespace Machine

/-- `minNonce` = {MIN_HI, MIN_LO} (R44, R86). -/
def minNonce (r : HostRegs) : Nonce := joinHalves r.minHi r.minLo

/-- `maxNonce` = {MAX_HI, MAX_LO} (R45, R86). -/
def maxNonce (r : HostRegs) : Nonce := joinHalves r.maxHi r.maxLo

/-- {NONCE_HI, NONCE_LO} (R48). -/
def nonceReg (r : HostRegs) : Nonce := joinHalves r.nonceHi r.nonceLo

/-- `MAX_UNITS`: the number of unit contexts (R7, D18; assumption 6). -/
def maxUnits (s : State) : Nat := s.units.length

/-- `CAPS`: MAX_UNITS in [7:0], both backends present in [8] and [9], 0 above (R49). -/
def capsWord (s : State) : Word := 0x300#32 ||| BitVec.ofNat 32 (maxUnits s)

/-- The 32-bit deadline operand (R46, R86). -/
def deadlineOperand (r : HostRegs) : Word := r.deadline

/-- `HostRead(4·off)`: CMD reads 0, reserved offsets read 0 (R248, R42, R50). -/
def readReg (s : State) (off : BitVec 6) : Word :=
  match off.toNat with
  | 0x01 => statusWord s.regs.status
  | 0x02 => s.regs.minLo
  | 0x03 => s.regs.minHi
  | 0x04 => s.regs.maxLo
  | 0x05 => s.regs.maxHi
  | 0x06 => s.regs.deadline
  | 0x07 => s.regs.digestValid
  | 0x08 => s.regs.nonceLo
  | 0x09 => s.regs.nonceHi
  | 0x0A => capsWord s
  | _ => 0#32

/-- The five RW offsets 0x08, 0x0C, 0x10, 0x14, 0x18 (R68, R249). -/
def isWritable (off : BitVec 6) : Bool := decide (0x02 ≤ off.toNat) && decide (off.toNat ≤ 0x06)

/-- `register at 4·off <- v`; RO and reserved offsets keep their value (R249). -/
def storeReg (off : BitVec 6) (v : Word) (r : HostRegs) : HostRegs :=
  match off.toNat with
  | 0x02 => { r with minLo := v }
  | 0x03 => { r with minHi := v }
  | 0x04 => { r with maxLo := v }
  | 0x05 => { r with maxHi := v }
  | 0x06 => { r with deadline := v }
  | _ => r

/-- `byte(n, k)` = `(n >> 8k) AND 0xFF`, byte 0 the least significant (R8). -/
def byteOf (n : Nonce) (k : Nat) : Byte := (n >>> (8 * k)).setWidth 8

/-- The number of consecutive zero bits of `n` from bit 0, looking at `width` bits: `width` when all are zero (R11). -/
def trailingZeros : Nat → Nat → Nat
  | 0, _ => 0
  | width + 1, n => if n % 2 = 1 then 0 else trailingZeros width (n / 2) + 1

/-- `ctz64` (R11). -/
def ctz64 (n : Nonce) : Nat := trailingZeros 64 n.toNat

/-- `ctz16` (R11). -/
def ctz16 (m : LaneMask) : Nat := trailingZeros 16 m.toNat

/-- The mask with bit l set exactly where `f l` holds: the loop `if f(l): m <- m OR (1 << l)` of R156 and R157. -/
def laneMask (f : Nat → Bool) : LaneMask :=
  (List.range Config.lanes).foldl (fun m l => if f l then m ||| (1#16 <<< l) else m) 0#16

end Machine
end Sys2Proof
end

