-- ==== Sys2Proof/Machine/Ops.lean ====
section
/-! DEFINITION. The named operations on the machine's state that the meanings share: accepting and dropping a host
write, ending a command with an error (the only "exception entry" of this block, spec/60_exceptions.md R272, R279),
the digest register file, and one unit's slot. -/

namespace Sys2Proof
namespace Machine

/-- The state with other host registers. -/
def State.withRegs (s : State) (r : HostRegs) : State := { s with regs := r }

/-- The state with another coordinator. -/
def State.withCoord (s : State) (c : Coordinator) : State := { s with coord := c }

/-- The state with other units. -/
def State.withUnits (s : State) (us : List SearchUnit) : State := { s with units := us }

/-- The state with another environment. -/
def State.withEnv (s : State) (e : Env) : State := { s with env := e }

/-- The state with another STATUS. -/
def State.withStatus (s : State) (st : Status) : State := s.withRegs { s.regs with status := st }

/-- The state with other NONCE registers (R48). -/
def State.withNonce (s : State) (n : Nonce) : State :=
  s.withRegs { s.regs with nonceHi := highHalf n, nonceLo := lowHalf n }

/-- Unit `k` replaced; nothing where there is no unit `k`. -/
def State.withUnit (s : State) (k : Nat) (u : SearchUnit) : State := s.withUnits (s.units.set k u)

/-- A write that arrives while BUSY: dropped, REJECTED ← 1 (R51, R240, R249). -/
def rejectWrite (s : State) : State := s.withStatus s.regs.status.reject

/-- A command word that arrives while not BUSY is accepted: REJECTED ← 0 (R240). -/
def acceptCommand (s : State) : State := s.withStatus s.regs.status.accept

/-- `raise Status(code, reason)`: how a command fails, the block's only error entry (R272). It saves nothing, moves
nothing else (R279), and nothing returns from it: the next command is simply written (R280). -/
def raiseStatus (code : StatusCode) (reason : BitVec 4) (s : State) : State :=
  s.withStatus (s.regs.status.raise code reason)

/-- `ILLEGAL(w)` for a word that arrives while not BUSY: accepted, NONCE ← 0, ILLEGAL_COMMAND (R240, R247). -/
def illegalAccepted (s : State) : State := raiseStatus .illegalCommand 0#4 ((acceptCommand s).withNonce 0)

/-- A command word that is illegal: dropped while BUSY, else `ILLEGAL` (R88, R240, R247). -/
def illegalCommand (s : State) : State := if isBusy s then rejectWrite s else illegalAccepted s

/-- `DIGEST[IDX] <- VAL ; DIGEST_VALID <- DIGEST_VALID OR (1 << IDX)` (R242). -/
def writeDigestByte (idx : BitVec 5) (val : Byte) (s : State) : State :=
  s.withRegs { s.regs with
    digest := s.regs.digest.set idx.toNat val
    digestValid := s.regs.digestValid ||| (1#32 <<< idx.toNat) }

/-- The word a read returns to the host (R60, R248); the block's own state does not change (R67). -/
def returnData (v : Word) (s : State) : State := s.withEnv { s.env with rdata := v }

/-- `initOk(u, backend)`, drawn once per search, unit and backend (R7, R189; assumption 4). -/
def initOk (e : Env) (k : Nat) (b : Backend) : Bool := !e.initFails.contains (e.searches, k, b)

/-- The other backend (R189). -/
def otherBackend : Backend → Backend
  | .scalar => .vector
  | .vector => .scalar

/-- `DL_EXPIRED` = `cDL and DL_CNT ≥ cLIMIT` (R219). -/
def deadlineExpired (c : Coordinator) : Bool := c.snap.dl && decide (c.snap.limit.toNat ≤ c.dlCnt.toNat)

/-- The terminal unit states (R180). -/
def isTerminal : UState → Bool
  | .idle => false
  | .searching => false
  | .found => true
  | .exhausted => true
  | .timedOut => true
  | .cancelled => true
  | .failed => true

/-- The report that matches a terminal state (R190). -/
def reportFor : UState → Report
  | .idle => .none
  | .searching => .none
  | .found => .found
  | .exhausted => .exhausted
  | .timedOut => .timedOut
  | .cancelled => .cancelled
  | .failed => .failed

/-- `terminate(u, s)` (R190). -/
def terminate (u : SearchUnit) (st : UState) : SearchUnit := { u with ustate := st, report := reportFor st }

end Machine
end Sys2Proof
end

