-- ==== Sys2Proof/Machine/Codec.lean ====
section
/-! DEFINITION. The ternary codec, scalar and vector forms (spec/40_codec.md R100, R103–R111). -/

namespace Sys2Proof
namespace Machine

/-- The `i8` cell of an integer: −1 is 0xFF, 0 is 0x00, 1 is 0x01 (R20, R89). -/
def cell (x : Int) : Byte := BitVec.ofInt 8 x

/-- The signed value of a byte under either reading of "shift into signed range" (R100, D3). -/
def signedValue (m : CodecSignMode) (b : Byte) : Int :=
  match m with
  | .twos => if b.toNat < 128 then b.toNat else (b.toNat : Int) - 256
  | .offset128 => (b.toNat : Int) - 128

/-- The three digits `x mod 3 − 1`, `(x div 3) mod 3 − 1`, `(x div 9) mod 3 − 1` of R100. -/
def threeDigits (x : Int) : List Int := [x % 3 - 1, x / 3 % 3 - 1, x / 9 % 3 - 1]

/-- The six trits of a byte, the remainder's digits first (R100). -/
def windowDigits (m : CodecSignMode) (b : Byte) : List Int :=
  threeDigits ((signedValue m b + 364) % 27) ++ threeDigits ((signedValue m b + 364) / 27)

/-- The six trit cells of a byte (R100, R20). -/
def byteWindow (m : CodecSignMode) (b : Byte) : List Byte := (windowDigits m b).map cell

/-- Writes the given cells at positions `t`, `t+1`, … and no other (R103). -/
def writeCells {α : Type} (S : List α) : Nat → List α → List α
  | _, [] => S
  | t, x :: xs => writeCells (S.set t x) (t + 1) xs

/-- `ENCODE_BYTE(S, t, b)` (R100). -/
def encodeByte (m : CodecSignMode) (S : TritState) (t : Nat) (b : Byte) : TritState := writeCells S t (byteWindow m b)

/-- `ENCODE_DIGEST(S)`: byte j at trit 6j (R104). -/
def encodeDigest (m : CodecSignMode) (digest : List Byte) (S : TritState) : TritState :=
  (List.range Config.digestBytes).foldl (fun S j => encodeByte m S (6 * j) (digest.getD j 0)) S

/-- The first trit of nonce byte k: `192 + 6k` under LE, `192 + 6(7 − k)` under BE (R105, R106). -/
def nonceWindow (o : NonceByteOrder) (k : Nat) : Nat :=
  match o with
  | .le => 192 + 6 * k
  | .be => 192 + 6 * (7 - k)

/-- `ENCODE_NONCE(S, n, c)`: the low `c` bytes of the nonce (R105, R106). -/
def encodeNonce (m : CodecSignMode) (o : NonceByteOrder) (S : TritState) (n : Nonce) (c : Nat) : TritState :=
  (List.range c).foldl (fun S k => encodeByte m S (nonceWindow o k) (byteOf n k)) S

/-- `E(digest, nonce)`: the input state of one candidate (R107). -/
def inputState (m : CodecSignMode) (o : NonceByteOrder) (digest : List Byte) (n : Nonce) : TritState :=
  encodeNonce m o (encodeDigest m digest zeroState) n 8

/-- `V_BROADCAST_BYTE(V, t, b)`: the window of one byte in all 16 lanes (R108). -/
def vBroadcastByte (m : CodecSignMode) (V : VectorState) (t : Nat) (b : Byte) : VectorState :=
  writeCells V t ((byteWindow m b).map (List.replicate Config.lanes))

/-- `V_LANE_BYTE0(V, base)`: byte 0 of `base + l` in lane l (R109). The window of byte 0 follows the byte order
parameter as R106 has it for the scalar form (assumption 10). -/
def vLaneByte0 (m : CodecSignMode) (o : NonceByteOrder) (V : VectorState) (base : Nonce) : VectorState :=
  writeCells V (nonceWindow o 0) <|
    (List.range Config.tritsPerByte).map fun k =>
      (List.range Config.lanes).map fun l => (byteWindow m (byteOf (base + BitVec.ofNat 64 l) 0)).getD k 0

/-- `V_ENCODE_DIGEST(V)` (R110). -/
def vEncodeDigest (m : CodecSignMode) (digest : List Byte) (V : VectorState) : VectorState :=
  (List.range Config.digestBytes).foldl (fun V j => vBroadcastByte m V (6 * j) (digest.getD j 0)) V

/-- `V_ENCODE_NONCE(V, base, c)`: byte 0 per lane, bytes 1..c−1 broadcast (R111). The windows follow the byte order
parameter as R106 has it for the scalar form (assumption 10). -/
def vEncodeNonce (m : CodecSignMode) (o : NonceByteOrder) (V : VectorState) (base : Nonce) (c : Nat) : VectorState :=
  (List.range' 1 (c - 1)).foldl (fun V k => vBroadcastByte m V (nonceWindow o k) (byteOf base k)) (vLaneByte0 m o V base)

end Machine
end Sys2Proof
end

