-- ==== Sys2Proof/Machine/Kernel.lean ====
section
/-! DEFINITION. The sponge permutation, scalar form (spec/41_scalar_kernel.md R130–R139). -/

namespace Sys2Proof
namespace Machine

/-- `TABLE`, with both entries 2 kept (R130). -/
def table : List Int := [1, 0, -1, 2, 1, -1, 0, 2, -1, 1, 0]

/-- `CURSOR_ADVANCE(idx)` (R131). -/
def cursorAdvance (idx : Nat) : Nat := if idx < 365 then idx + 364 else idx - 365

/-- Steps 1–4 of one iteration: `TABLE[a + 4·b + 5]`, a fault outside 0..10 (R133, R137). -/
def lookup (a b : Byte) : Except Fault Byte :=
  if a.toInt + 4 * b.toInt + 5 < 0 ∨ 10 < a.toInt + 4 * b.toInt + 5 then .error .kernelIndex
  else .ok (cell (table.getD (a.toInt + 4 * b.toInt + 5).toNat 0))

/-- The loop body of `ROUND` run `count` times from cursor `idx`: the cells written, and the last cursor (R133). -/
def roundLoop (src : TritState) : Nat → Nat → Except Fault (TritState × Nat)
  | 0, idx => .ok ([], idx)
  | count + 1, idx =>
    match lookup (src.getD idx 0) (src.getD (cursorAdvance idx) 0) with
    | .error f => .error f
    | .ok t =>
      match roundLoop src count (cursorAdvance idx) with
      | .error f => .error f
      | .ok (ts, last) => .ok (t :: ts, last)

/-- `ROUND(src, dst)`: the 729 cells of `dst` and the cursor it ends on; the cursor starts at 0 (R133, R134). -/
def round (src : TritState) : Except Fault (TritState × Nat) := roundLoop src Config.stateLength 0

/-- What a transform leaves: the buffer just written, the other one, and the last cursor. -/
structure KernelOut (α : Type) where
  current : α
  other : α
  cursor : Nat
  deriving DecidableEq, Repr

/-- Rounds with the buffers swapped after each: `ROUND(cur, nxt); swap(cur, nxt)` (R135). -/
def pingPong : Nat → KernelOut TritState → Except Fault (KernelOut TritState)
  | 0, k => .ok k
  | r + 1, k =>
    match round k.current with
    | .error f => .error f
    | .ok (dst, last) => pingPong r { current := dst, other := k.current, cursor := last }

/-- `TRANSFORM(IN)`: round 1 reads the input and writes A, then 80 rounds alternate; `other` starts as what B held
(R135). After 81 rounds `current` is A and `other` is B. -/
def transform (inp bufB : TritState) : Except Fault (KernelOut TritState) :=
  match round inp with
  | .error f => .error f
  | .ok (dst, last) => pingPong (Config.rounds - 1) { current := dst, other := bufB, cursor := last }

/-- Kernel micro-state at the end of a transform: round 81, position 729, the last cursor, and A current (R24, R135). -/
def microAfter (cursor : Nat) : Micro :=
  { round := Config.rounds, pos := Config.stateLength, cursor := cursor, current := .a }

/-- `HIT(H, tz)`: the trits at `243−tz .. 242` are all 0 (R139). -/
def hit (H : TritState) (tz : Nat) : Bool :=
  (List.range tz).all fun k => H.getD (Config.hashLength - tz + k) 0 == 0x00#8

end Machine
end Sys2Proof
end

