-- ==== Sys2Proof/Machine/VectorKernel.lean ====
section
/-! DEFINITION. The sponge permutation, 16-way vectorized form, and lane selection (spec/42_vector_kernel.md R150–R160). -/

namespace Sys2Proof
namespace Machine

/-- `TABLE16`: the table padded with the sentinel (R151). -/
def table16 : List Byte := table.map cell ++ List.replicate 5 Config.vecSentinel

/-- A lane index that selects one of the 11 table entries (R152). -/
def laneIndexOk (j : Byte) : Bool := decide (0 ≤ j.toInt) && decide (j.toInt ≤ 10)

/-- `V_LOOKUP(J)`: the lane-wise lookup, a fault when some lane's index is outside 0..10 (R152). -/
def vLookup (J : Group) : Except Fault Group :=
  if J.all laneIndexOk then .ok (J.map fun j => table16.getD j.toNat 0) else .error .vectorIndex

/-- `J <- a + 4*b + 5`, lane-wise `i8` arithmetic (R153). -/
def laneIndices (a b : Group) : Group := List.zipWith (fun x y => x + 4#8 * y + 5#8) a b

/-- The loop body of `V_ROUND` run `count` times from cursor `idx`, one cursor for all lanes (R153). -/
def vRoundLoop (src : VectorState) : Nat → Nat → Except Fault (VectorState × Nat)
  | 0, idx => .ok ([], idx)
  | count + 1, idx =>
    match vLookup (laneIndices (src.getD idx []) (src.getD (cursorAdvance idx) [])) with
    | .error f => .error f
    | .ok g =>
      match vRoundLoop src count (cursorAdvance idx) with
      | .error f => .error f
      | .ok (gs, last) => .ok (g :: gs, last)

/-- `V_ROUND(src, dst)` (R153). -/
def vRound (src : VectorState) : Except Fault (VectorState × Nat) := vRoundLoop src Config.stateLength 0

/-- Vector rounds with the buffers swapped after each (R154). -/
def vPingPong : Nat → KernelOut VectorState → Except Fault (KernelOut VectorState)
  | 0, k => .ok k
  | r + 1, k =>
    match vRound k.current with
    | .error f => .error f
    | .ok (dst, last) => vPingPong r { current := dst, other := k.current, cursor := last }

/-- `V_TRANSFORM(VIN)` (R154). After 81 rounds `current` is VA and `other` is VB. -/
def vTransform (vin vb : VectorState) : Except Fault (KernelOut VectorState) :=
  match vRound vin with
  | .error f => .error f
  | .ok (dst, last) => vPingPong (Config.rounds - 1) { current := dst, other := vb, cursor := last }

/-- The OR of two groups, on the storage bytes (R156). -/
def groupOr (a b : Group) : Group := List.zipWith (fun x y => x ||| y) a b

/-- The accumulator of `V_ZMASK`: the groups at `243−tz .. 242` ORed together (R156). -/
def zAccumulator (V : VectorState) (tz : Nat) : Group :=
  (List.range tz).foldl (fun acc k => groupOr acc (V.getD (Config.hashLength - tz + k) []))
    (List.replicate Config.lanes 0x00#8)

/-- `V_ZMASK(VOUT, tz)`: the lanes whose tested trits are all 0 (R156). -/
def vZmask (V : VectorState) (tz : Nat) : LaneMask := laneMask fun l => (zAccumulator V tz).getD l 0 == 0x00#8

/-- `V_RMASK(base, start, end)`: the lanes whose nonce lies in the range (R157). -/
def vRmask (base start stop : Nonce) : LaneMask :=
  laneMask fun l => decide (start.toNat ≤ base.toNat + l) && decide (base.toNat + l ≤ stop.toNat)

/-- `V_SELECT(base, zm, rm)`: the lowest lane of `zm AND rm`, or none (R158). -/
def vSelect (base : Nonce) (zm rm : LaneMask) : Option Nonce :=
  if zm &&& rm = 0#16 then none else some (base + BitVec.ofNat 64 (ctz16 (zm &&& rm)))

/-- `start AND NOT 0xF`: the base of the batch that holds a nonce (R160). -/
def batchBase (n : Nonce) : Nonce := n &&& ~~~0xF#64

/-- Lane l of a vector state, a scalar state (R150). -/
def laneOf (l : Nat) (V : VectorState) : TritState := V.map fun g => g.getD l 0

end Machine
end Sys2Proof
end

