-- ==== Sys2Proof/Machine/Search.lean ====
section
/-! DEFINITION. The nonce search loop of one unit (spec/43_nonce_search.md R181–R190). -/

namespace Sys2Proof
namespace Machine

/-- `UNIT_START(u)`, after the backend is chosen (R181). -/
def unitStart (p : Params) (digest : List Byte) (u : SearchUnit) : SearchUnit :=
  if u.empty then terminate u .exhausted
  else
    match u.backend with
    | .scalar =>
      { u with
        inp := inputState p.signMode p.byteOrder digest u.rangeStart
        n := u.rangeStart
        enc := u.rangeStart
        ustate := .searching }
    | .vector =>
      { u with
        vin := vEncodeNonce p.signMode p.byteOrder (vEncodeDigest p.signMode digest zeroVector)
          (batchBase u.rangeStart) 8
        n := batchBase u.rangeStart
        enc := batchBase u.rangeStart
        ustate := .searching }

/-- The backend a unit starts on, or none: the selected one, else the other one when the fallback is configured
(R189). -/
def chooseBackend (e : Env) (k : Nat) (vec fb : Bool) : Option Backend :=
  let wanted : Backend := if vec then .vector else .scalar
  if initOk e k wanted then some wanted
  else if fb && initOk e k (otherBackend wanted) then some (otherBackend wanted)
  else none

/-- The launch of one unit whose registers are written: an empty one initialises no backend and ends EXHAUSTED (R213),
one with no usable backend ends FAILED, the others start (R189, R181). No rule gives a value to `backend_u` of a unit that
chooses none (empty, or FAILED): it keeps the one it had. DESIGN CHOICE, assumption 20. -/
def unitLaunch (p : Params) (e : Env) (digest : List Byte) (k : Nat) (vec fb : Bool) (u : SearchUnit) : SearchUnit :=
  if u.empty then unitStart p digest u
  else
    match chooseBackend e k vec fb with
    | none => terminate u .failed
    | some b => unitStart p digest { u with backend := b }

/-- The stop check of an evaluation boundary: the state the unit ends in, or none when it goes on (R188). -/
def stopCheck (stop : Stop) (expired : Bool) : Option UState :=
  match stop with
  | .none => if expired then some .timedOut else none
  | .cancel => some .cancelled
  | .deadline => some .timedOut

/-- `ADVANCE_COUNT(n)` = `min(8, (ctz64(n) div 8) + 1)` (R183). -/
def advanceCount (n : Nonce) : Nat := min 8 (ctz64 n / 8 + 1)

/-- `n_u <- m` and the partial re-encode that keeps the scalar input state current (R182, R183, R184). -/
def scalarAdvance (p : Params) (u : SearchUnit) : SearchUnit :=
  { u with
    n := u.n + 1
    inp := encodeNonce p.signMode p.byteOrder u.inp (u.n + 1) (advanceCount (u.n + 1))
    enc := u.n + 1 }

/-- `n_u <- n_u + 16 ; V_ADVANCE(u)` (R185, R186). -/
def vectorAdvance (p : Params) (u : SearchUnit) : SearchUnit :=
  { u with
    n := u.n + 16
    vin := vEncodeNonce p.signMode p.byteOrder u.vin (u.n + 16) (advanceCount (u.n + 16))
    enc := u.n + 16 }

/-- The scalar scratch buffers and micro-state after a transform (R23, R24, R135). -/
def withScalarKernel (u : SearchUnit) (k : KernelOut TritState) : SearchUnit :=
  { u with bufA := k.current, bufB := k.other, micro := microAfter k.cursor }

/-- The vector scratch buffers and micro-state after a transform (R26, R27, R154). -/
def withVectorKernel (u : SearchUnit) (k : KernelOut VectorState) : SearchUnit :=
  { u with va := k.current, vb := k.other, vmicro := microAfter k.cursor }

/-- A scalar evaluation's verdict on the transform output `H` (R182, R187). -/
def scalarVerdict (p : Params) (H : TritState) (u : SearchUnit) : SearchUnit :=
  if hit H u.tz then terminate { u with result := u.n } .found
  else if u.n = u.rangeEnd then terminate u .exhausted
  else scalarAdvance p u

/-- `SCALAR_STEP(u)` of a searching scalar unit (R182). -/
def scalarStep (p : Params) (expired : Bool) (u : SearchUnit) : Except Fault SearchUnit :=
  match stopCheck u.stop expired with
  | some st => .ok (terminate u st)
  | none =>
    match transform u.inp u.bufB with
    | .error f => .error f
    | .ok k => .ok (scalarVerdict p k.current (withScalarKernel u k))

/-- A batch's verdict on the transform output `V` (R185, R187). -/
def vectorVerdict (p : Params) (V : VectorState) (u : SearchUnit) : SearchUnit :=
  match vSelect u.n (vZmask V u.tz) (vRmask u.n u.rangeStart u.rangeEnd) with
  | some w => terminate { u with result := w } .found
  | none => if u.rangeEnd.toNat ≤ u.n.toNat + 15 then terminate u .exhausted else vectorAdvance p u

/-- `VECTOR_STEP(u)` of a searching vector unit (R185). -/
def vectorStep (p : Params) (expired : Bool) (u : SearchUnit) : Except Fault SearchUnit :=
  match stopCheck u.stop expired with
  | some st => .ok (terminate u st)
  | none =>
    match vTransform u.vin u.vb with
    | .error f => .error f
    | .ok k => .ok (vectorVerdict p k.current (withVectorKernel u k))

/-- The next evaluation step of a searching unit, on its backend (R182, R185). -/
def unitStep (p : Params) (expired : Bool) (u : SearchUnit) : Except Fault SearchUnit :=
  match u.backend with
  | .scalar => scalarStep p expired u
  | .vector => vectorStep p expired u

/-- Unit `k` moves: it has a step only while U_SEARCHING (R180, R190); otherwise nothing happens. -/
def unitMove (k : Nat) (s : State) : Result :=
  match s.units[k]? with
  | none => .next s
  | some u =>
    if u.ustate = .searching then
      match unitStep s.params (deadlineExpired s.coord) u with
      | .error f => .fault f
      | .ok u' => .next (s.withUnit k u')
    else .next s

end Machine
end Sys2Proof
end

