-- ==== Sys2Proof/Machine/Coordinator.lean ====
section
/-! DEFINITION. The work coordinator and its cancellation state machine (spec/44_coordinator.md R210–R223). -/

namespace Sys2Proof
namespace Machine

/-- `L = cMAX − cMIN + 1`, on 65 bits (R212). -/
def rangeLength (lo hi : Nonce) : Nat := hi.toNat + 1 - lo.toNat

/-- `size = L div U` (R212). -/
def partSize (c : Snapshot) : Nat := rangeLength c.min c.max / c.units

/-- `start_k` = `cMIN + k·size` (R212). -/
def partStart (c : Snapshot) (k : Nat) : Nonce := BitVec.ofNat 64 (c.min.toNat + k * partSize c)

/-- `end_k`: `cMIN + (k+1)·size − 1`, and `cMAX` for the last unit (R212). For an empty sub-range at cMIN = 0 the
formula is −1, no `u64`: a free value (assumption 5). -/
def partEnd (search : Nat) (c : Snapshot) (k : Nat) : Nonce :=
  if k + 1 < c.units then
    if c.min.toNat + (k + 1) * partSize c = 0 then Config.emptyRangeEnd search k
    else BitVec.ofNat 64 (c.min.toNat + (k + 1) * partSize c - 1)
  else c.max

/-- `empty_k` (R212, R213). -/
def partEmpty (c : Snapshot) (k : Nat) : Bool := decide (k + 1 < c.units) && partSize c == 0

/-- The registers LAUNCH writes in unit k, before it starts (R214, R29). -/
def unitRegisters (search : Nat) (c : Snapshot) (k : Nat) (u : SearchUnit) : SearchUnit :=
  { u with
    rangeStart := partStart c k
    rangeEnd := partEnd search c k
    empty := partEmpty c k
    tz := c.tz
    fb := c.fb
    stop := .none
    report := .none
    exh := false }

/-- The loop of LAUNCH: units `k < U` get their registers and start, the others stay as they are (R214). -/
def launchUnits (p : Params) (e : Env) (digest : List Byte) (c : Snapshot) (us : List SearchUnit) : List SearchUnit :=
  us.mapIdx fun k u =>
    if k < c.units then unitLaunch p e digest k c.vec c.fb (unitRegisters e.searches c k u) else u

/-- The units after `PUBLISH`: every `u < U` is U_IDLE with no stop request (R223). -/
def releaseUnits (U : Nat) (us : List SearchUnit) : List SearchUnit :=
  us.mapIdx fun k u => if k < U then { u with ustate := .idle, stop := .none } else u

/-- The nonce that `PUBLISH` writes: the latched one for FOUND, else 0 (R223). -/
def publishedNonce (l : Latch) : Nonce := if l.code = .found then l.nonce else 0

/-- `PUBLISH()`: the single step that ends a search (R223, R71). -/
def publishOutcome (s : State) : State :=
  (((s.withStatus (s.regs.status.publish s.coord.latch.code)).withNonce (publishedNonce s.coord.latch)).withUnits
      (releaseUnits s.coord.snap.units s.units)).withCoord { s.coord with cstate := .idle }

/-- `LATCH_CODE <- code ; LATCH_SET <- true`; `LATCH_NONCE` keeps its value (R217–R219, R221). -/
def latchCode (code : StatusCode) (s : State) : State :=
  s.withCoord { s.coord with latch := { s.coord.latch with set := true, code := code } }

/-- `LATCH_NONCE <- n` (R216). -/
def latchNonce (n : Nonce) (s : State) : State :=
  s.withCoord { s.coord with latch := { s.coord.latch with nonce := n } }

/-- `STOP_ALL(reason)`: a stop request to every unit `u < U` that is not terminal (R220). -/
def stopUnits (U : Nat) (reason : Stop) (us : List SearchUnit) : List SearchUnit :=
  us.mapIdx fun k u => if k < U ∧ isTerminal u.ustate = false then { u with stop := reason } else u

/-- The outcome is decided: latch the code, `STOP_ALL(reason)`, `CSTATE <- C_DRAIN` (R216, R218, R219, R221). -/
def decideOutcome (code : StatusCode) (reason : Stop) (s : State) : State :=
  let t := latchCode code s
  (t.withUnits (stopUnits t.coord.snap.units reason t.units)).withCoord { t.coord with cstate := .drain }

/-- LAUNCH takes the snapshot, clears the latch flag and the deadline counter (R214). -/
def takeSnapshot (c : Snapshot) (s : State) : State :=
  s.withCoord { s.coord with snap := c, latch := { s.coord.latch with set := false }, dlCnt := 0#32 }

/-- `LAUNCH` (R214): a deadline of 0 ends the search at once, no unit launched; otherwise every unit starts.
The search's number then goes up by one, so that the next search draws `initOk` anew (assumption 4). -/
def launch (c : Snapshot) (s : State) : State :=
  let t := takeSnapshot c s
  if c.dl = true ∧ c.limit = 0#32 then publishOutcome (latchCode .timedOut t)
  else
    ((t.withUnits (launchUnits t.params t.env t.regs.digest c t.units)).withCoord { t.coord with cstate := .wait }).withEnv
      { t.env with searches := t.env.searches + 1 }

/-- A pulse of `tick`: DL_CNT counts, saturating, while a search with a deadline runs (R219, R283). -/
def tickPulse (s : State) : State :=
  if s.coord.cstate ≠ .idle ∧ s.coord.snap.dl = true then
    s.withCoord { s.coord with dlCnt := if s.coord.dlCnt = BitVec.allOnes 32 then s.coord.dlCnt else s.coord.dlCnt + 1 }
  else s

/-- `EXH_j` holds for every `j < U` (R217). -/
def allExhausted (U : Nat) (us : List SearchUnit) : Bool := (us.take U).all fun u => u.exh

/-- Every unit `u < U` is terminal and its report consumed (R222). -/
def allDrained (U : Nat) (us : List SearchUnit) : Bool :=
  (us.take U).all fun u => isTerminal u.ustate && u.report == .none

/-- An EXHAUSTED report of unit k is recorded (R217). -/
def recordExhausted (k : Nat) (u : SearchUnit) (s : State) : State := s.withUnit k { u with report := .none, exh := true }

/-- An EXHAUSTED report of unit k consumed in C_WAIT; the last one ends the search at once (R217, R223). -/
def consumeExhausted (k : Nat) (u : SearchUnit) (s : State) : State :=
  let t := recordExhausted k u s
  if allExhausted t.coord.snap.units t.units then publishOutcome (latchCode .exhausted t) else t

/-- A report of unit `k`, whose context is `u`, consumed in C_WAIT (R215–R219). CANCELLED has no rule here and no run
reaches it (R228). -/
def waitReport (k : Nat) (u : SearchUnit) (s : State) : Result :=
  let t := s.withUnit k { u with report := .none }
  match u.report with
  | .none => .next s
  | .found => .next (decideOutcome .found .cancel (latchNonce u.result t))
  | .exhausted => .next (consumeExhausted k u s)
  | .timedOut => .next (decideOutcome .timedOut .deadline t)
  | .cancelled => .fault .cancelledReportInWait
  | .failed => .next (decideOutcome .backendUnavailable .cancel t)

/-- The coordinator consumes unit `k`'s pending report: by R216–R219 in C_WAIT, discarded in C_DRAIN (R222). Without a
pending report of a unit `k < U`, or in C_IDLE, the event is not enabled and nothing happens (R215). -/
def reportMove (k : Nat) (s : State) : Result :=
  match s.units[k]? with
  | none => .next s
  | some u =>
    if k < s.coord.snap.units ∧ u.report ≠ .none then
      match s.coord.cstate with
      | .idle => .next s
      | .wait => waitReport k u s
      | .drain => .next (s.withUnit k { u with report := .none })
    else .next s

/-- The coordinator takes the deadline expiry, in C_WAIT only (R215, R219). -/
def deadlineMove (s : State) : State :=
  if s.coord.cstate = .wait ∧ deadlineExpired s.coord = true then decideOutcome .timedOut .deadline s else s

/-- A drained search ends (R222, R223). -/
def publishMove (s : State) : State :=
  if s.coord.cstate = .drain ∧ allDrained s.coord.snap.units s.units = true then publishOutcome s else s

/-- `HOST_CANCEL`: a CANCEL admitted while BUSY acts in C_WAIT and has no effect in C_DRAIN (R221, R246). -/
def hostCancel (s : State) : State :=
  match s.coord.cstate with
  | .idle => s
  | .wait => decideOutcome .cancelled .cancel s
  | .drain => s

end Machine
end Sys2Proof
end

