-- ==== Sys2Proof/Machine/Commands.lean ====
section
/-! DEFINITION. The meanings of the five command words (spec/45_host_commands.md R240–R246). Each executes whole in the
step of its `CMD` write. -/

namespace Sys2Proof
namespace Machine

/-- `NOP` (R241): accepted, it clears REJECTED; admitted while BUSY, it does nothing (R240). -/
def execNop (s : State) : Result := .next (if isBusy s then s else acceptCommand s)

/-- `SET_DIGEST_BYTE IDX, VAL` (R242); dropped while BUSY (R51). -/
def execSetDigestByte (idx : BitVec 5) (val : Byte) (s : State) : Result :=
  .next (if isBusy s then rejectWrite s else writeDigestByte idx val (acceptCommand s))

/-- The checks of `VALIDATE(TZ, UNITS)`, in order; the answer is the REASON of the first that fails (R243, R271). -/
def failedCheck (tz units : Nat) (s : State) : Option (BitVec 4) :=
  if 243 < tz then some 1#4
  else if (maxNonce s.regs).toNat < (minNonce s.regs).toNat then some 2#4
  else if s.regs.digestValid ≠ BitVec.allOnes 32 then some 3#4
  else if maxUnits s < units then some 4#4
  else none

/-- `START()` (R243). -/
def startSearch (s : State) : State := s.withStatus s.regs.status.start

/-- An accepted search command: NONCE ← 0, then `VALIDATE`, `START` and `LAUNCH` (R243, R244, R245). -/
def runSearchCommand (units : Nat) (c : Snapshot) (s : State) : State :=
  let t := s.withNonce 0
  match failedCheck c.tz units t with
  | some reason => raiseStatus .invalidInput reason t
  | none => launch c (startSearch t)

/-- The snapshot of `RUN_SEARCH`: one unit, no deadline, no fallback (R244). -/
def runSearchSnapshot (tz : BitVec 8) (vec : Bool) (r : HostRegs) : Snapshot where
  units := 1
  tz := tz.toNat
  min := minNonce r
  max := maxNonce r
  vec := vec
  fb := false
  dl := false
  limit := 0#32

/-- `RUN_SEARCH TZ [, vec]` (R244); dropped while BUSY (R51). -/
def execRunSearch (tz : BitVec 8) (vec : Bool) (s : State) : Result :=
  .next (if isBusy s then rejectWrite s else runSearchCommand 0 (runSearchSnapshot tz vec s.regs) (acceptCommand s))

/-- The snapshot of `SEARCH`: `U <- max(1, UNITS)` (R211, R245). -/
def searchSnapshot (tz units : BitVec 8) (dl vec fb : Bool) (r : HostRegs) : Snapshot where
  units := max 1 units.toNat
  tz := tz.toNat
  min := minNonce r
  max := maxNonce r
  vec := vec
  fb := fb
  dl := dl
  limit := deadlineOperand r

/-- `SEARCH TZ, UNITS [, dl] [, vec] [, fb]` (R245); dropped while BUSY (R51). -/
def execSearch (tz units : BitVec 8) (dl vec fb : Bool) (s : State) : Result :=
  .next (if isBusy s then rejectWrite s
    else runSearchCommand units.toNat (searchSnapshot tz units dl vec fb s.regs) (acceptCommand s))

/-- `CANCEL` (R246): accepted, it clears REJECTED; admitted while BUSY, it is the host's cancel (R221). -/
def execCancel (s : State) : Result := .next (if isBusy s then hostCancel s else acceptCommand s)

end Machine
end Sys2Proof
end

