-- ==== Sys2Proof/Machine/Port.lean ====
section
/-! DEFINITION. The meanings of the four port operations (spec/45_host_commands.md R248–R251). -/

namespace Sys2Proof
namespace Machine

/-- `RD off` (R248). -/
def execRd (off : BitVec 6) (s : State) : Result := .next (returnData (readReg s off) s)

/-- `WR off, v` with off ≠ 0 (R249): a write to MIN, MAX or DEADLINE while BUSY is dropped (R51), a write to an RO or
reserved offset has no effect. At off = 0 the term is no instruction (R249, R240). -/
def execWr (off : BitVec 6) (v : Word) (s : State) : Result :=
  if off = 0#6 then .refused .wrAtCommandOffset
  else if isWritable off then
    .next (if isBusy s then rejectWrite s else s.withRegs (storeReg off v s.regs))
  else .next s

/-- `READ_NONCE_LO` (R250). -/
def execReadNonceLo (s : State) : Result := .next (returnData s.regs.nonceLo s)

/-- `READ_NONCE_HI` (R251). -/
def execReadNonceHi (s : State) : Result := .next (returnData s.regs.nonceHi s)

end Machine
end Sys2Proof
end

