-- ==== Sys2Proof/Machine/Dispatch.lean ====
section
/-! DEFINITION. The dispatch of instructions to their meanings, one arm per constructor. -/

namespace Sys2Proof
namespace Machine

/-- Runs one instruction. -/
def exec (i : Instr) (s : State) : Host.Outcome State Fault Refusal :=
  match i with
  | .nop => Sys2Proof.Machine.execNop s
  | .setDigestByte idx val => Sys2Proof.Machine.execSetDigestByte idx val s
  | .runSearch tz vec => Sys2Proof.Machine.execRunSearch tz vec s
  | .search tz units dl vec fb => Sys2Proof.Machine.execSearch tz units dl vec fb s
  | .cancel => Sys2Proof.Machine.execCancel s
  | .rd off => Sys2Proof.Machine.execRd off s
  | .wr off v => Sys2Proof.Machine.execWr off v s
  | .readNonceLo => Sys2Proof.Machine.execReadNonceLo s
  | .readNonceHi => Sys2Proof.Machine.execReadNonceHi s

end Machine
end Sys2Proof
end

