-- ==== Sys2Proof/Machine/Events.lean ====
section
/-! DEFINITION. The events of the interleaving (spec/60_exceptions.md R277, R278): host accesses, ticks, `rst` and the
moves of the block's own agents; which moves are enabled (spec/44_coordinator.md R215, R225); the fetch of the next
host access. -/

namespace Sys2Proof
namespace Machine

/-- The refusal of an access that is not admitted (R60). -/
def refusalOf : DecodeError → State → Result
  | .widthNotAdmitted _, _ => .refused .accessWidthNotAdmitted
  | .outsideWindow _, _ => .refused .accessOutsideWindow
  | .misaligned _, _ => .refused .accessMisaligned
  | .illegalCommand _, s => .next (illegalCommand s)

/-- One host access: the instruction it stands for; an illegal command word (R88, R247); or, for an access that is not
admitted, no step (R60). -/
def hostAccess (a : PortAccess) (s : State) : Result :=
  match decode a with
  | .ok i => exec i s
  | .error e => refusalOf e s

/-- While `rst` is asserted port accesses are not admitted (R300). -/
def hostMove (a : PortAccess) (s : State) : Result :=
  if s.env.rst then .refused .accessDuringReset else hostAccess a s

/-- The state the reset step leaves, with the machine's own parameters and number of unit contexts and its surroundings
kept (R300). -/
def resetStep (s : State) : State where
  params := s.params
  regs := HostRegs.reset
  coord := Coordinator.reset
  units := List.replicate s.units.length SearchUnit.reset
  env := s.env

/-- The `rst` input takes a level; asserted, it performs the reset step, which overrides all else (R300). -/
def rstMove (level : Bool) (s : State) : State :=
  if level then (resetStep s).withEnv { s.env with rst := true } else s.withEnv { s.env with rst := false }

/-- One event of the interleaving. While `rst` is asserted no agent moves and no tick counts (R300); a move that is
not enabled is no step, and nothing happens (R225). -/
def takeEvent (e : Event) (s : State) : Result :=
  match e with
  | .host a => hostMove a s
  | .rst level => .next (rstMove level s)
  | .tick => .next (if s.env.rst then s else tickPulse s)
  | .unit k => if s.env.rst then .next s else unitMove k s
  | .report k => if s.env.rst then .next s else reportMove k s
  | .deadline => .next (if s.env.rst then s else deadlineMove s)
  | .publish => .next (if s.env.rst then s else publishMove s)

/-- Unit `k`'s own enabled moves: an evaluation step while searching (R182, R185), the consumption of its pending
report while a search runs (R215). -/
def unitEvents (c : Coordinator) (k : Nat) (u : SearchUnit) : List Event :=
  (if u.ustate = .searching then [Event.unit k] else []) ++
    (if c.cstate ≠ .idle ∧ k < c.snap.units ∧ u.report ≠ .none then [Event.report k] else [])

/-- The enabled moves of the block's own agents (R215, R219, R222, R225); none while `rst` is asserted (R300). -/
def enabledMoves (s : State) : List Event :=
  if s.env.rst then []
  else
    (s.units.mapIdx fun k u => unitEvents s.coord k u).flatten ++
      (if s.coord.cstate = .wait ∧ deadlineExpired s.coord = true then [Event.deadline] else []) ++
      (if s.coord.cstate = .drain ∧ allDrained s.coord.snap.units s.units = true then [Event.publish] else [])

/-- What the block does when the schedule names nothing: its one enabled move; one of several, left open
(`Config.pickMove`, R225); or nothing when none is enabled (R287). -/
def freeMove (s : State) : Result :=
  match enabledMoves s with
  | [] => .next s
  | [e] => takeEvent e s
  | e :: es =>
    takeEvent ((e :: es).getD (Config.pickMove s.env.picks % (e :: es).length) e)
      (s.withEnv { s.env with picks := s.env.picks + 1 })

/-- One step: the next event of the agenda, or, when it is empty, a move of the block's own (R277, R278). -/
def nextStep (s : State) : Result :=
  match s.env.agenda with
  | [] => freeMove s
  | e :: es => takeEvent e (s.withEnv { s.env with agenda := es })

/-- The state with a host access as its very next event, `rst` released. -/
def placeAccess (a : PortAccess) (s : State) : State :=
  s.withEnv { s.env with agenda := .host a :: s.env.agenda, rst := false }

end Machine
end Sys2Proof
end

