-- ==== Sys2Proof/Machine/Step.lean ====
section
/-! DEFINITION. One step of the machine, and where its next instruction stands. -/

namespace Sys2Proof
namespace Machine

/-- One step of the interleaving (R278). -/
def step (s : State) : Host.Outcome State Fault Refusal := nextStep s

/-- The state whose next step is the host access that a row of the opcode table describes: the block has no program
counter and no stored program (R40), so a program is placed as the host's coming accesses (assumption 1). -/
def State.withFetchWord (s : State) (nbits w : Nat) : State := placeAccess (tableAccess nbits w) s

end Machine
end Sys2Proof
end

