-- ==== Sys2Proof/Safety.lean ====
section
/-! DEFINITION. What counts as a sound state and a safe run of CURLPOW-CORE: the trit-validity invariant
(spec/10_state.md R21), the consistency of STATUS and the two state machines (spec/44_coordinator.md R210, R228,
spec/10_state.md R43, R48), and what a unit's search has established (spec/43_nonce_search.md R184, R191). -/

namespace Sys2Proof
namespace Machine

/-- A cell that stores a trit: −1, 0 or 1 (R20, R21). -/
def validCell (c : Byte) : Bool := c == 0xFF#8 || c == 0x00#8 || c == 0x01#8

/-- Every cell of a scalar buffer is a trit (R21). -/
def validTrits (S : TritState) : Bool := S.all validCell

/-- Every cell of a vector buffer is a trit (R21). -/
def validVector (V : VectorState) : Bool := V.all validTrits

/-- A scalar buffer of 729 trits. -/
def tritStateSound (S : TritState) : Bool := tritStateWf S && validTrits S

/-- A vector buffer of 729 groups of 16 trits. -/
def vectorStateSound (V : VectorState) : Bool := vectorStateWf V && validVector V

/-- Every buffer of a unit has its size and holds trits (R21, R69). -/
def unitBuffersSound (u : SearchUnit) : Bool :=
  tritStateSound u.inp && tritStateSound u.bufA && tritStateSound u.bufB &&
    vectorStateSound u.vin && vectorStateSound u.va && vectorStateSound u.vb

/-- Every buffer of the machine has its size and holds trits (R21, R39, R69). -/
def BuffersSound (s : State) : Prop :=
  s.regs.digest.length = Config.digestBytes ∧ ∀ u ∈ s.units, unitBuffersSound u = true

/-- STATUS says the same thing in each of its fields, and no nonce shows without a FOUND (R43, R48, R270, R271). -/
def StatusConsistent (r : HostRegs) : Prop :=
  (r.status.nonceValid = true ↔ r.status.code = .found) ∧
  (r.status.done = true ↔ r.status.code ≠ .idle ∧ r.status.code ≠ .busy) ∧
  (r.status.reason ≠ 0#4 ↔ r.status.code = .invalidInput) ∧
  r.status.reason.toNat ≤ 4 ∧
  (r.status.nonceValid = false → r.nonceLo = 0#32 ∧ r.nonceHi = 0#32)

/-- What a unit's fields say of one another, whatever the coordinator does (R28, R32, R33, R190). -/
def UnitConsistent (u : SearchUnit) : Prop :=
  (u.report ≠ .none → u.report = reportFor u.ustate) ∧ (u.ustate = .idle → u.stop = .none)

/-- What C_WAIT says of a unit `k < U`: launched, not asked to stop, not cancelled, timed out only when the search has
a deadline, and EXH exactly when its EXHAUSTED report has been consumed, the only report whose consumption keeps C_WAIT
(R214, R216–R219, R228). -/
def UnitInWait (dl : Bool) (u : SearchUnit) : Prop :=
  u.ustate ≠ .idle ∧ u.ustate ≠ .cancelled ∧ u.stop = .none ∧ (u.ustate = .timedOut → dl = true) ∧
  (u.exh = true → u.ustate = .exhausted ∧ u.report = .none) ∧
  (u.exh = false → isTerminal u.ustate = true → u.report ≠ .none)

/-- What C_DRAIN says of a unit `k < U`: launched, and asked to stop if it still searches (R220, R222). -/
def UnitInDrain (u : SearchUnit) : Prop := u.ustate ≠ .idle ∧ (u.ustate = .searching → u.stop ≠ .none)

/-- The coordinator, STATUS and every unit agree (R34, R51, R210, R222, R228, R288); while the coordinator waits, some
unit has not been counted exhausted (R217). -/
def ControlConsistent (s : State) : Prop :=
  (s.regs.status.code = .busy ↔ s.coord.cstate ≠ .idle) ∧
  1 ≤ s.coord.snap.units ∧ s.coord.snap.units ≤ s.units.length ∧
  s.coord.snap.tz ≤ 243 ∧ s.coord.snap.min.toNat ≤ s.coord.snap.max.toNat ∧
  (s.coord.cstate = .wait → s.coord.latch.set = false ∧
    ∃ k u, k < s.coord.snap.units ∧ s.units[k]? = some u ∧ u.exh = false) ∧
  (s.coord.cstate = .drain → s.coord.latch.set = true ∧
    (s.coord.latch.code = .found ∨ s.coord.latch.code = .timedOut ∨ s.coord.latch.code = .backendUnavailable ∨
      s.coord.latch.code = .cancelled) ∧
    (s.coord.latch.code = .timedOut → s.coord.snap.dl = true)) ∧
  ∀ k u, s.units[k]? = some u →
    UnitConsistent u ∧
    (s.coord.cstate = .idle ∨ s.coord.snap.units ≤ k → u.ustate = .idle) ∧
    (k < s.coord.snap.units →
      (s.coord.cstate = .wait → UnitInWait s.coord.snap.dl u) ∧ (s.coord.cstate = .drain → UnitInDrain u))

/-- The input state of one candidate under the machine's parameters, `E(digest, nonce)` (R107). -/
def candidate (pr : Params) (digest : List Byte) (n : Nonce) : TritState :=
  inputState pr.signMode pr.byteOrder digest n

/-- The vector input state of the batch at `base` (R110, R111). -/
def batchInput (pr : Params) (digest : List Byte) (base : Nonce) : VectorState :=
  vEncodeNonce pr.signMode pr.byteOrder (vEncodeDigest pr.signMode digest zeroVector) base 8

/-- A host's check of one nonce: `HIT(TRANSFORM(E(digest, n)), tz)` (R142). -/
def passes (pr : Params) (digest : List Byte) (tz : Nat) (n : Nonce) : Bool :=
  match transform (candidate pr digest n) zeroState with
  | .ok k => hit k.current tz
  | .error _ => false

/-- No nonce of `[lo, hi)` passes. -/
def NonePass (pr : Params) (digest : List Byte) (tz lo hi : Nat) : Prop :=
  ∀ m : Nonce, lo ≤ m.toNat → m.toNat < hi → passes pr digest tz m = false

/-- `w` is the smallest nonce of `[lo, hi]` that passes (R191). -/
def SmallestPassing (pr : Params) (digest : List Byte) (tz : Nat) (lo hi w : Nonce) : Prop :=
  lo.toNat ≤ w.toNat ∧ w.toNat ≤ hi.toNat ∧ passes pr digest tz w = true ∧ NonePass pr digest tz lo.toNat w.toNat

/-- What a scalar unit knows while it searches: its input state encodes its nonce (R184), which lies in its range,
and no earlier nonce of the range passes. -/
def ScalarProgress (pr : Params) (digest : List Byte) (u : SearchUnit) : Prop :=
  u.inp = candidate pr digest u.n ∧ u.rangeStart.toNat ≤ u.n.toNat ∧ u.n.toNat ≤ u.rangeEnd.toNat ∧
    NonePass pr digest u.tz u.rangeStart.toNat u.n.toNat

/-- What a vector unit knows while it searches: its input state encodes its batch (R184), whose base is a multiple
of 16 (R159) no greater than the end, whose last nonce is no smaller than the start, and no earlier nonce of the range
passes. -/
def VectorProgress (pr : Params) (digest : List Byte) (u : SearchUnit) : Prop :=
  u.vin = batchInput pr digest u.n ∧ u.n.toNat % 16 = 0 ∧ u.n.toNat ≤ u.rangeEnd.toNat ∧
    u.rangeStart.toNat ≤ u.n.toNat + 15 ∧ u.rangeStart.toNat ≤ u.rangeEnd.toNat ∧
    NonePass pr digest u.tz u.rangeStart.toNat u.n.toNat

/-- What a unit has established, by its state (R184, R191). -/
def UnitEstablished (pr : Params) (digest : List Byte) (u : SearchUnit) : Prop :=
  match u.ustate with
  | .searching =>
    u.empty = false ∧ u.enc = u.n ∧
      match u.backend with
      | .scalar => ScalarProgress pr digest u
      | .vector => VectorProgress pr digest u
  | .found => u.empty = false ∧ SmallestPassing pr digest u.tz u.rangeStart u.rangeEnd u.result
  | .exhausted => u.empty = true ∨ NonePass pr digest u.tz u.rangeStart.toNat (u.rangeEnd.toNat + 1)
  | .idle => True
  | .timedOut => True
  | .cancelled => True
  | .failed => True

/-- The draw of `initOk` for unit `k` on backend `b`, in the search of that number, answers false (R7, R189;
assumption 4). -/
def InitFails (e : Env) (search k : Nat) (b : Backend) : Prop := (search, k, b) ∈ e.initFails

/-- The backend the command selects (R189). -/
def selectedBackend (vec : Bool) : Backend := if vec then .vector else .scalar

/-- The backend that a configured fallback takes: the other one (R189). -/
def fallbackBackend (vec : Bool) : Backend := if vec then .scalar else .vector

/-- Unit `k` has no usable backend in a search: the selected one fails to initialise, and so does the other one where
the fallback is configured (R189). -/
def NoUsableBackend (e : Env) (search k : Nat) (vec fb : Bool) : Prop :=
  InitFails e search k (selectedBackend vec) ∧ (fb = true → InitFails e search k (fallbackBackend vec))

/-- A launched unit holds its part of the snapshot's range (R212, R214, R29), and it failed only if no backend was
usable for it when the running search, the last one launched, drew `initOk` (R189). -/
def UnitLaunched (e : Env) (c : Snapshot) (k : Nat) (u : SearchUnit) : Prop :=
  u.rangeStart = partStart c k ∧ u.empty = partEmpty c k ∧ u.tz = c.tz ∧
    (partEmpty c k = false → ∀ q, u.rangeEnd = partEnd q c k) ∧
    (u.ustate = .failed → NoUsableBackend e (e.searches - 1) k c.vec c.fb)

/-- Every unit of a running search holds its part of the range and what it has established about it; a latched FOUND is
a unit's result (R191, R216), and a latched BACKEND_UNAVAILABLE is a unit's failure (R218). -/
def SearchEstablished (s : State) : Prop :=
  s.coord.cstate ≠ .idle →
    (∀ k u, s.units[k]? = some u → k < s.coord.snap.units →
      UnitLaunched s.env s.coord.snap k u ∧ UnitEstablished s.params s.regs.digest u) ∧
    (s.coord.cstate = .drain → s.coord.latch.code = .found →
      ∃ k u, s.units[k]? = some u ∧ k < s.coord.snap.units ∧ partEmpty s.coord.snap k = false ∧ u.ustate = .found ∧
        u.result = s.coord.latch.nonce) ∧
    (s.coord.cstate = .drain → s.coord.latch.code = .backendUnavailable →
      ∃ k u, s.units[k]? = some u ∧ k < s.coord.snap.units ∧ u.ustate = .failed)

/-- What LAUNCH leaves of a unit's former state: the scratch buffers, both micro-states and the result (R214, R181). -/
def LaunchKeeps (v u : SearchUnit) : Prop :=
  u.bufA = v.bufA ∧ u.bufB = v.bufB ∧ u.micro = v.micro ∧ u.va = v.va ∧ u.vb = v.vb ∧ u.vmicro = v.vmicro ∧
    u.result = v.result

/-- What LAUNCH also leaves of a unit that it does not set searching (R181, R189, R213). That `backend` is among it is
the model's choice (assumption 20). -/
def LaunchKeepsInput (v u : SearchUnit) : Prop :=
  u.inp = v.inp ∧ u.vin = v.vin ∧ u.n = v.n ∧ u.enc = v.enc ∧ u.backend = v.backend

/-- Unit `k` set searching by LAUNCH on backend `b`, with the input state of its first nonce, or of the batch that holds
it (R160, R181); `v` is the unit before. -/
def UnitSearches (s : State) (c : Snapshot) (k : Nat) (v u : SearchUnit) (b : Backend) : Prop :=
  u.ustate = .searching ∧ u.report = .none ∧ u.backend = b ∧ u.enc = u.n ∧
  match b with
  | .scalar => u.n = partStart c k ∧ u.inp = candidate s.params s.regs.digest u.n ∧ u.vin = v.vin
  | .vector =>
    u.n.toNat = 16 * ((partStart c k).toNat / 16) ∧ u.vin = batchInput s.params s.regs.digest u.n ∧ u.inp = v.inp

/-- Unit `k` as LAUNCH leaves it, in a search with snapshot `c` accepted in state `s` (R181, R189, R212–R214): its
registers, and then EXHAUSTED for an empty part; otherwise SEARCHING on the selected backend if it initialises, on the
other one if the selected one does not, the fallback is configured and the other one initialises, and FAILED in every
other case; the rest of its former state as it was. -/
def UnitStarted (s : State) (c : Snapshot) (k : Nat) (u : SearchUnit) : Prop :=
  ∃ v, s.units[k]? = some v ∧ LaunchKeeps v u ∧
  u.rangeStart = partStart c k ∧ (partEmpty c k = false → ∀ q, u.rangeEnd = partEnd q c k) ∧
  u.empty = partEmpty c k ∧ u.tz = c.tz ∧ u.fb = c.fb ∧ u.stop = .none ∧ u.exh = false ∧
  (partEmpty c k = true → u.ustate = .exhausted ∧ u.report = .exhausted ∧ LaunchKeepsInput v u) ∧
  (partEmpty c k = false →
    (¬ InitFails s.env s.env.searches k (selectedBackend c.vec) → UnitSearches s c k v u (selectedBackend c.vec)) ∧
    (InitFails s.env s.env.searches k (selectedBackend c.vec) → c.fb = true →
      ¬ InitFails s.env s.env.searches k (fallbackBackend c.vec) → UnitSearches s c k v u (fallbackBackend c.vec)) ∧
    (NoUsableBackend s.env s.env.searches k c.vec c.fb →
      u.ustate = .failed ∧ u.report = .failed ∧ LaunchKeepsInput v u))

/-- The registers and the digest at the values R54 gives for reset. -/
def RegsAtReset (r : HostRegs) : Prop :=
  statusWord r.status = 0x00000000#32 ∧ minNonce r = 0 ∧ (maxNonce r).toNat = 2 ^ 64 - 1 ∧ r.deadline = 0 ∧
  r.digest = List.replicate 32 0x00#8 ∧ r.digestValid = 0 ∧ nonceReg r = 0

/-- The coordinator at the values R54 gives for reset. -/
def CoordAtReset (c : Coordinator) : Prop :=
  c.cstate = .idle ∧ c.dlCnt = 0 ∧ c.latch = { set := false, code := .idle, nonce := 0 } ∧
  c.snap = { units := 1, tz := 0, min := 0, max := 0, vec := false, fb := false, dl := false, limit := 0 }

/-- A unit at the values R54 gives for reset: all but its scratch buffers, its micro-states and `enc`, which R302
leaves unspecified. -/
def UnitAtReset (u : SearchUnit) : Prop :=
  u.inp = List.replicate 729 0x00#8 ∧ u.vin = List.replicate 729 (List.replicate 16 0x00#8) ∧ u.ustate = .idle ∧
  u.rangeStart = 0 ∧ u.rangeEnd = 0 ∧ u.n = 0 ∧ u.result = 0 ∧ u.empty = false ∧ u.tz = 0 ∧ u.backend = .scalar ∧
  u.fb = false ∧ u.stop = .none ∧ u.report = .none ∧ u.exh = false

/-- The state is sound: buffers, STATUS, state machines and search all consistent. -/
def Sound (s : State) : Prop :=
  BuffersSound s ∧ StatusConsistent s.regs ∧ ControlConsistent s ∧ SearchEstablished s

/-- A run of any length from `s` meets no fault; it may be refused an access that the port does not accept (R60). -/
def SafeFrom (s : State) : Prop := ∀ n f, core.run n s ≠ .fault f

end Machine
end Sys2Proof
end

