-- ==== Sys2Proof/Certificates/Slice0/Obligations.lean ====
section
/-! DEFINITION. The statements about CURLPOW-CORE for the provers, each with the rule of spec/ it rests on. -/

open Sys2Proof Sys2Proof.Machine

/-! ### Encoding -/

/-- Decoding the access that encodes a well-formed instruction gives it back, at every value of every operand
(R80–R86, R248–R251). How reads of 0x20 and 0x24 are spelled is the model's choice (assumption 7). -/
def Obligations.DecodeOfEncodeIsIdentity : Prop :=
  ∀ i : Instr, wellFormed i = true → decode (encode i) = .ok i

/-- An access that decodes is the one that encodes its instruction, and the instruction is well formed: no access
decodes as another's neighbour (R60, R80–R88). -/
def Obligations.EncodeOfDecodeIsIdentity : Prop :=
  ∀ (a : PortAccess) (i : Instr), decode a = .ok i → encode i = a ∧ wellFormed i = true

/-- The command words that decode are exactly those that match one of the five rows of the opcode table by its mask and
match, and every other word is illegal (R84, R85, R87, R88). -/
def Obligations.LegalWordsMatchOpcodeTable : Prop :=
  ∀ w : Word,
    ((∃ i, decodeCommand w = .ok i) ↔
      w &&& 0xFFFFFFFF#32 = 0x00000000#32 ∨ w &&& 0xFFFFE000#32 = 0x01000000#32 ∨ w &&& 0xFFFDFF00#32 = 0x02000000#32 ∨
        w &&& 0xFFF80000#32 = 0x03000000#32 ∨ w &&& 0xFFFFFFFF#32 = 0x04000000#32) ∧
    ((¬ ∃ i, decodeCommand w = .ok i) → decodeCommand w = .error (.illegalCommand w))

/-- The encoding examples of R93, written as words at offset 0x00. -/
def Obligations.SpecExampleWordsDecode : Prop :=
  decode (.write 32 0 0x00000000#32) = .ok .nop ∧
  decode (.write 32 0 0x010005AB#32) = .ok (.setDigestByte 5#5 0xAB#8) ∧
  decode (.write 32 0 0x01001FFF#32) = .ok (.setDigestByte 31#5 0xFF#8) ∧
  decode (.write 32 0 0x02000003#32) = .ok (.runSearch 3#8 false) ∧
  decode (.write 32 0 0x02020003#32) = .ok (.runSearch 3#8 true) ∧
  decode (.write 32 0 0x03010405#32) = .ok (.search 5#8 4#8 true false false) ∧
  decode (.write 32 0 0x030600F3#32) = .ok (.search 243#8 0#8 false true true) ∧
  decode (.write 32 0 0x04000000#32) = .ok .cancel ∧
  decode (.write 32 0 0x05000000#32) = .error (.illegalCommand 0x05000000#32) ∧
  decode (.write 32 0 0x00000001#32) = .error (.illegalCommand 0x00000001#32) ∧
  decode (.write 32 0 0x02000103#32) = .error (.illegalCommand 0x02000103#32)

/-! ### The step and the port's contract -/

/-- When the next event is a host access that decodes to `i`, and `rst` is low, the step is `exec i` on the state with
that event taken. That the coming events stand in the state is the model's choice (assumption 1). -/
def Obligations.StepRunsDecodedInstruction : Prop :=
  ∀ (s : State) (a : PortAccess) (rest : List Event) (i : Instr),
    s.env.agenda = .host a :: rest → s.env.rst = false → decode a = .ok i →
    step s = exec i { s with env := { s.env with agenda := rest } }

/-- An access the port does not accept (another width, an offset outside the window or no multiple of 4) has no step, and
while `rst` is asserted no access has one (R60, R65, R300). -/
def Obligations.AccessOutsideContractHasNoStep : Prop :=
  (∀ (s : State) (width off : Nat) (v : Word) (rest : List Event) (a : PortAccess),
    a = .read width off ∨ a = .write width off v → s.env.agenda = .host a :: rest → s.env.rst = false →
    (width ≠ 32 → step s = .refused .accessWidthNotAdmitted) ∧
    (width = 32 → 0x100 ≤ off → step s = .refused .accessOutsideWindow) ∧
    (width = 32 → off < 0x100 → off % 4 ≠ 0 → step s = .refused .accessMisaligned)) ∧
  (∀ (s : State) (a : PortAccess) (rest : List Event),
    s.env.agenda = .host a :: rest → s.env.rst = true → step s = .refused .accessDuringReset)

/-- An illegal command word written while not BUSY leaves STATUS = 0x00000047 and NONCE = 0 and changes nothing else
(R247). -/
def Obligations.IllegalWordEndsIllegalCommand : Prop :=
  ∀ (s : State) (w : Word) (rest : List Event),
    s.env.agenda = .host (.write 32 0 w) :: rest → s.env.rst = false → isBusy s = false →
    (∀ i, decodeCommand w ≠ .ok i) →
    ∃ st : Status, statusWord st = 0x00000047#32 ∧
      step s = .next { s with
        regs := { s.regs with status := st, nonceLo := 0#32, nonceHi := 0#32 }
        env := { s.env with agenda := rest } }

/-- While BUSY, every write but a NOP word, a CANCEL word and a write to an RO or reserved offset only sets
STATUS.REJECTED (R51). -/
def Obligations.BusyDropsEveryOtherWrite : Prop :=
  ∀ (s : State) (off : Nat) (v : Word) (rest : List Event),
    s.env.agenda = .host (.write 32 off v) :: rest → s.env.rst = false → isBusy s = true →
    (off = 0x00 ∧ v ≠ 0x00000000#32 ∧ v ≠ 0x04000000#32) ∨ off = 0x08 ∨ off = 0x0C ∨ off = 0x10 ∨ off = 0x14 ∨
      off = 0x18 →
    ∃ st : Status, statusWord st = statusWord s.regs.status ||| 0x20#32 ∧
      step s = .next { s with regs := { s.regs with status := st }, env := { s.env with agenda := rest } }

/-! ### The command words -/

/-- NOP runs in every state: accepted it clears REJECTED and changes nothing else, while BUSY it does nothing (R241). -/
def Obligations.NopClearsRejectedOnly : Prop :=
  ∀ s : State,
    (isBusy s = true → exec .nop s = .next s) ∧
    (isBusy s = false → ∃ st : Status, statusWord st = statusWord s.regs.status &&& 0xFFFFFFDF#32 ∧
      exec .nop s = .next { s with regs := { s.regs with status := st } })

/-- SET_DIGEST_BYTE writes its byte and its DIGEST_VALID bit, clears REJECTED, and changes nothing else; while BUSY it is
dropped (R242, R51). The digest register file has its 32 bytes (`Memory.wf`). -/
def Obligations.SetDigestByteWritesItsByte : Prop :=
  ∀ (s : State) (idx : BitVec 5) (val : Byte), s.regs.digest.length = 32 →
    (isBusy s = false → ∃ (st : Status) (d : List Byte),
      statusWord st = statusWord s.regs.status &&& 0xFFFFFFDF#32 ∧ d.length = 32 ∧
      (∀ j, j < 32 → d.getD j 0 = if j = idx.toNat then val else s.regs.digest.getD j 0) ∧
      exec (.setDigestByte idx val) s = .next { s with
        regs := { s.regs with status := st, digest := d, digestValid := s.regs.digestValid ||| (1#32 <<< idx.toNat) } }) ∧
    (isBusy s = true → ∃ st : Status, statusWord st = statusWord s.regs.status ||| 0x20#32 ∧
      exec (.setDigestByte idx val) s = .next { s with regs := { s.regs with status := st } })

/-- A valid RUN_SEARCH starts unit 0 alone over `[MIN, MAX]`: STATUS = 0x00000001, NONCE = 0, C_WAIT, the snapshot of R244,
and every other register and unit as before (R243, R244, R214). The count of searches, what `backend_u` of a unit that
chooses no backend holds, and the vector input state under BE are the model's own (assumptions 4, 20 and 10). -/
def Obligations.RunSearchStartsUnitZero : Prop :=
  ∀ (s : State) (tz : BitVec 8) (vec : Bool) (c : Snapshot),
    isBusy s = false → 1 ≤ s.units.length → tz.toNat ≤ 243 → c.min.toNat ≤ c.max.toNat →
    s.regs.digestValid = 0xFFFFFFFF#32 →
    c = { units := 1, tz := tz.toNat, min := s.regs.minHi ++ s.regs.minLo, max := s.regs.maxHi ++ s.regs.maxLo,
          vec := vec, fb := false, dl := false, limit := 0#32 } →
    ∃ (st : Status) (us : List SearchUnit) (u0 : SearchUnit),
      statusWord st = 0x00000001#32 ∧ us.length = s.units.length ∧ us[0]? = some u0 ∧ UnitStarted s c 0 u0 ∧
      (∀ k, 1 ≤ k → us[k]? = s.units[k]?) ∧
      exec (.runSearch tz vec) s = .next { s with
        regs := { s.regs with status := st, nonceLo := 0#32, nonceHi := 0#32 }
        coord := { cstate := .wait, snap := c, latch := { s.coord.latch with set := false }, dlCnt := 0#32 }
        units := us
        env := { s.env with searches := s.env.searches + 1 } }

/-- A valid SEARCH starts `max(1, UNITS)` units over the parts of `[MIN, MAX]`: STATUS = 0x00000001, NONCE = 0, C_WAIT, the
snapshot of R245, each unit `k < U` started on its part, and every other register and unit as before
(R211–R214, R189, R243, R245). The count of searches, what `backend_u` of a unit that chooses no backend holds, and the
vector input state under BE are the model's own (assumptions 4, 20 and 10). -/
def Obligations.SearchStartsItsUnits : Prop :=
  ∀ (s : State) (tz units : BitVec 8) (dl vec fb : Bool) (c : Snapshot),
    isBusy s = false → 1 ≤ s.units.length → tz.toNat ≤ 243 → c.min.toNat ≤ c.max.toNat →
    s.regs.digestValid = 0xFFFFFFFF#32 → units.toNat ≤ s.units.length → (dl = true → s.regs.deadline ≠ 0#32) →
    c = { units := if units.toNat = 0 then 1 else units.toNat, tz := tz.toNat, min := s.regs.minHi ++ s.regs.minLo,
          max := s.regs.maxHi ++ s.regs.maxLo, vec := vec, fb := fb, dl := dl, limit := s.regs.deadline } →
    ∃ (st : Status) (us : List SearchUnit),
      statusWord st = 0x00000001#32 ∧ us.length = s.units.length ∧
      (∀ k u, k < c.units → us[k]? = some u → UnitStarted s c k u) ∧
      (∀ k, c.units ≤ k → us[k]? = s.units[k]?) ∧
      exec (.search tz units dl vec fb) s = .next { s with
        regs := { s.regs with status := st, nonceLo := 0#32, nonceHi := 0#32 }
        coord := { cstate := .wait, snap := c, latch := { s.coord.latch with set := false }, dlCnt := 0#32 }
        units := us
        env := { s.env with searches := s.env.searches + 1 } }

/-- A valid SEARCH with DL = 1 and DEADLINE = 0 ends TIMED_OUT (STATUS = 0x00000044) in its own step and launches no unit
(R214): in a consistent state no unit changes. -/
def Obligations.ZeroDeadlineTimesOutAtOnce : Prop :=
  ∀ (s : State) (tz units : BitVec 8) (vec fb : Bool),
    ControlConsistent s → isBusy s = false → tz.toNat ≤ 243 → (minNonce s.regs).toNat ≤ (maxNonce s.regs).toNat →
    s.regs.digestValid = 0xFFFFFFFF#32 → units.toNat ≤ s.units.length → s.regs.deadline = 0#32 →
    ∃ (st : Status) (co : Coordinator),
      statusWord st = 0x00000044#32 ∧ co.cstate = .idle ∧ co.dlCnt = 0#32 ∧ co.latch.set = true ∧
      co.latch.code = .timedOut ∧ co.latch.nonce = s.coord.latch.nonce ∧
      co.snap = { units := if units.toNat = 0 then 1 else units.toNat, tz := tz.toNat, min := minNonce s.regs,
                  max := maxNonce s.regs, vec := vec, fb := fb, dl := true, limit := 0#32 } ∧
      exec (.search tz units true vec fb) s = .next { s with
        regs := { s.regs with status := st, nonceLo := 0#32, nonceHi := 0#32 }
        coord := co }

/-- A search command that fails validation ends INVALID_INPUT with the REASON of the first failing check, clears NONCE and
REJECTED, and changes nothing else: for RUN_SEARCH (which has no unit count) and for SEARCH (R243, R271, R272). -/
def Obligations.InvalidSearchFailsWithFirstReason : Prop :=
  ∀ (s : State) (i : Instr) (tz : BitVec 8) (units : Nat) (reason : Word),
    isBusy s = false →
    ((∃ vec, i = .runSearch tz vec ∧ units = 0) ∨
      ∃ (n : BitVec 8) (dl vec fb : Bool), i = .search tz n dl vec fb ∧ units = n.toNat) →
    (243 < tz.toNat ∧ reason = 1#32 ∨
      tz.toNat ≤ 243 ∧ (maxNonce s.regs).toNat < (minNonce s.regs).toNat ∧ reason = 2#32 ∨
      tz.toNat ≤ 243 ∧ (minNonce s.regs).toNat ≤ (maxNonce s.regs).toNat ∧ s.regs.digestValid ≠ 0xFFFFFFFF#32 ∧
        reason = 3#32 ∨
      tz.toNat ≤ 243 ∧ (minNonce s.regs).toNat ≤ (maxNonce s.regs).toNat ∧ s.regs.digestValid = 0xFFFFFFFF#32 ∧
        s.units.length < units ∧ reason = 4#32) →
    ∃ st : Status, statusWord st = 0x00000045#32 ||| (reason <<< 8) ∧
      exec i s = .next { s with regs := { s.regs with status := st, nonceLo := 0#32, nonceHi := 0#32 } }

/-- CANCEL runs in every state: accepted it clears REJECTED; admitted in C_WAIT it latches CANCELLED, asks every unit
`u < U` that is not terminal to stop, and moves to C_DRAIN; admitted in C_DRAIN it does nothing (R221, R246). -/
def Obligations.CancelStopsRunningSearch : Prop :=
  ∀ s : State,
    (isBusy s = false → ∃ st : Status, statusWord st = statusWord s.regs.status &&& 0xFFFFFFDF#32 ∧
      exec .cancel s = .next { s with regs := { s.regs with status := st } }) ∧
    (isBusy s = true → s.coord.cstate = .wait → ∃ us : List SearchUnit, us.length = s.units.length ∧
      (∀ k u, s.units[k]? = some u → us[k]? =
        some (if k < s.coord.snap.units ∧ (u.ustate = .searching ∨ u.ustate = .idle) then { u with stop := .cancel } else u)) ∧
      exec .cancel s = .next { s with
        coord := { s.coord with cstate := .drain, latch := { s.coord.latch with set := true, code := .cancelled } }
        units := us }) ∧
    (isBusy s = true → s.coord.cstate = .drain → exec .cancel s = .next s)

/-! ### The port operations -/

/-- RD returns the register at its offset, 0 for CMD and for a reserved offset, and changes nothing but the word the host
receives (R248, R67, R50). CAPS is 0x300 OR MAX_UNITS (R49). That the word
stands in the state is the model's choice (assumption 3). -/
def Obligations.ReadReturnsRegister : Prop :=
  ∀ (s : State) (off : BitVec 6),
    ∃ v : Word,
      exec (.rd off) s = .next { s with env := { s.env with rdata := v } } ∧
      (4 * off.toNat = 0x00 → v = 0#32) ∧ (4 * off.toNat = 0x04 → v = statusWord s.regs.status) ∧
      (4 * off.toNat = 0x08 → v = s.regs.minLo) ∧ (4 * off.toNat = 0x0C → v = s.regs.minHi) ∧
      (4 * off.toNat = 0x10 → v = s.regs.maxLo) ∧ (4 * off.toNat = 0x14 → v = s.regs.maxHi) ∧
      (4 * off.toNat = 0x18 → v = s.regs.deadline) ∧ (4 * off.toNat = 0x1C → v = s.regs.digestValid) ∧
      (4 * off.toNat = 0x20 → v = s.regs.nonceLo) ∧ (4 * off.toNat = 0x24 → v = s.regs.nonceHi) ∧
      (4 * off.toNat = 0x28 → v = 0x300#32 ||| BitVec.ofNat 32 s.units.length) ∧ (0x2C ≤ 4 * off.toNat → v = 0#32)

/-- WR stores its word in MIN, MAX or DEADLINE and changes nothing else; while BUSY it only sets REJECTED; at an RO or
reserved offset it has no effect (R249, R51). At offset 0x00 a write is a command word and no WR, so the term `wr 0 v`
is refused by name: the model's choice (assumption 14). -/
def Obligations.WriteStoresItsRegister : Prop :=
  ∀ (s : State) (off : BitVec 6) (v : Word),
    (isBusy s = false →
      (4 * off.toNat = 0x08 → exec (.wr off v) s = .next { s with regs := { s.regs with minLo := v } }) ∧
      (4 * off.toNat = 0x0C → exec (.wr off v) s = .next { s with regs := { s.regs with minHi := v } }) ∧
      (4 * off.toNat = 0x10 → exec (.wr off v) s = .next { s with regs := { s.regs with maxLo := v } }) ∧
      (4 * off.toNat = 0x14 → exec (.wr off v) s = .next { s with regs := { s.regs with maxHi := v } }) ∧
      (4 * off.toNat = 0x18 → exec (.wr off v) s = .next { s with regs := { s.regs with deadline := v } })) ∧
    (isBusy s = true → 0x08 ≤ 4 * off.toNat → 4 * off.toNat ≤ 0x18 →
      ∃ st : Status, statusWord st = statusWord s.regs.status ||| 0x20#32 ∧
        exec (.wr off v) s = .next { s with regs := { s.regs with status := st } }) ∧
    (4 * off.toNat = 0x04 ∨ 0x1C ≤ 4 * off.toNat → exec (.wr off v) s = .next s) ∧
    (off = 0#6 → exec (.wr off v) s = .refused .wrAtCommandOffset)

/-- READ_NONCE_LO and READ_NONCE_HI return the halves of NONCE and change nothing but the word the host receives; when no
nonce is valid they return 0; they are what `HostRead(0x20)` and `HostRead(0x24)` decode to, and what `RD` of those offsets
would return (R250, R251). STATUS is consistent. Where the word stands, and that these reads decode so, is the model's
choice (assumptions 3 and 7). -/
def Obligations.NonceAccessorsReturnHalves : Prop :=
  ∀ s : State, StatusConsistent s.regs →
    (∃ v : Word, exec .readNonceLo s = .next { s with env := { s.env with rdata := v } } ∧
      v = (nonceReg s.regs).extractLsb' 0 32 ∧ (s.regs.status.nonceValid = false → v = 0#32) ∧
      exec (.rd 0x08#6) s = exec .readNonceLo s) ∧
    (∃ v : Word, exec .readNonceHi s = .next { s with env := { s.env with rdata := v } } ∧
      v = (nonceReg s.regs).extractLsb' 32 32 ∧ (s.regs.status.nonceValid = false → v = 0#32) ∧
      exec (.rd 0x09#6) s = exec .readNonceHi s) ∧
    decode (.read 32 0x20) = .ok .readNonceLo ∧ decode (.read 32 0x24) = .ok .readNonceHi

/-! ### The codec -/

/-- The window of a byte is the six-digit balanced-ternary numeral of its signed value, least significant digit first, each
digit a trit, in both readings of the signed shift (R101). -/
def Obligations.EncodedByteIsItsNumeral : Prop :=
  ∀ (m : CodecSignMode) (b : Byte),
    (byteWindow m b).length = 6 ∧
    (∀ c ∈ byteWindow m b, c.toInt = -1 ∨ c.toInt = 0 ∨ c.toInt = 1) ∧
    ((List.range 6).map fun k => 3 ^ k * ((byteWindow m b).getD k 0).toInt).sum =
      (match m with
        | .twos => b.toInt
        | .offset128 => (b.toNat : Int) - 128)

/-- Distinct bytes have distinct windows, and the windows of value −128..127 are exactly the bytes' windows (R102). -/
def Obligations.ByteCodecIsInjective : Prop :=
  ∀ m : CodecSignMode,
    (∀ b b' : Byte, byteWindow m b = byteWindow m b' → b = b') ∧
    (∀ T : List Byte, T.length = 6 → (∀ c ∈ T, validCell c = true) →
      -128 ≤ ((List.range 6).map fun k => 3 ^ k * (T.getD k 0).toInt).sum →
      ((List.range 6).map fun k => 3 ^ k * (T.getD k 0).toInt).sum ≤ 127 → ∃ b : Byte, byteWindow m b = T)

/-- `ENCODE_BYTE(S, t, b)` writes the cells `t .. t+5` with the byte's window and no other cell (R103). -/
def Obligations.EncodeByteWritesItsWindowOnly : Prop :=
  ∀ (m : CodecSignMode) (S : TritState) (t : Nat) (b : Byte), t + 6 ≤ S.length →
    (encodeByte m S t b).length = S.length ∧
    (∀ k, k < 6 → (encodeByte m S t b).getD (t + k) 0 = (byteWindow m b).getD k 0) ∧
    (∀ p, p < t ∨ t + 6 ≤ p → (encodeByte m S t b)[p]? = S[p]?)

/-- `E(digest, nonce)` under every setting of the two codec parameters: 729 cells, digest byte j at `[6j, 6j+6)`, nonce
byte k (0 the least significant) at `[192+6k, 198+6k)` under LE and at `192+6(7−k)` on under BE, and 0 from 240 on
(R107, R104, R105, R106, R90). -/
def Obligations.CandidateStateLayout : Prop :=
  ∀ (pr : Params) (d : List Byte) (n : Nonce),
    (candidate pr d n).length = 729 ∧
    (∀ j k, j < 32 → k < 6 → (candidate pr d n).getD (6 * j + k) 0 = (byteWindow pr.signMode (d.getD j 0)).getD k 0) ∧
    (∀ j k, j < 8 → k < 6 →
      (candidate pr d n).getD ((match pr.byteOrder with | .le => 192 + 6 * j | .be => 192 + 6 * (7 - j)) + k) 0 =
        (byteWindow pr.signMode (BitVec.ofNat 8 (n.toNat / 256 ^ j))).getD k 0) ∧
    (∀ p, 240 ≤ p → p < 729 → (candidate pr d n).getD p 0xFF = 0x00#8)

/-- Lane l of the vector input state built from a base that is a multiple of 16 is the scalar input state of `base + l`,
under every setting of the codec parameters (R112). That the vector encoder follows the byte order, so that this holds
under BE too, is the model's reading (assumption 10). -/
def Obligations.BatchLanesAreCandidates : Prop :=
  ∀ (pr : Params) (d : List Byte) (base : Nonce) (l : Nat), base.toNat % 16 = 0 → l < 16 →
    laneOf l (batchInput pr d base) = candidate pr d (base + BitVec.ofNat 64 l)

/-- Re-encoding only the low `ADVANCE_COUNT` bytes after an advance gives the same input state as encoding all eight,
scalar and vector, under every setting of the codec parameters (R183, R184, R186, R106). The vector form under BE is the model's reading
(assumption 10). -/
def Obligations.PartialReencodeEqualsFull : Prop :=
  ∀ (pr : Params) (d : List Byte) (n : Nonce),
    (n.toNat + 1 < 2 ^ 64 →
      encodeNonce pr.signMode pr.byteOrder (candidate pr d n) (n + 1) (advanceCount (n + 1)) = candidate pr d (n + 1)) ∧
    (n.toNat % 16 = 0 → n.toNat + 16 < 2 ^ 64 →
      vEncodeNonce pr.signMode pr.byteOrder (batchInput pr d n) (n + 16) (advanceCount (n + 16)) =
        batchInput pr d (n + 16))

/-! ### The kernels -/

/-- The cursor of a round takes the values `364·k mod 729`, visits each of the 729 positions exactly once, and is back at 0
after 729 advances (R131, R132). -/
def Obligations.CursorVisitsEveryPositionOnce : Prop :=
  (∀ idx, idx < 729 → cursorAdvance idx = (idx + 364) % 729) ∧
  (∀ k, cursorAdvance^[k] 0 = 364 * k % 729) ∧
  (∀ p, p < 729 → ∃ k, k < 729 ∧ cursorAdvance^[k] 0 = p ∧ ∀ k', k' < 729 → cursorAdvance^[k'] 0 = p → k' = k) ∧
  cursorAdvance^[729] 0 = 0

/-- One round of 729 trits: it never faults, leaves 729 trits and the cursor at 0, and cell i is the truth function of R136
of the trits at `c_i` and `c_{i+1}` (R133, R134, R136). -/
def Obligations.RoundComputesTruthFunction : Prop :=
  ∀ src : TritState, tritStateSound src = true →
    ∃ dst, round src = .ok (dst, 0) ∧ tritStateSound dst = true ∧
      ∀ i, i < 729 → ∀ a b : Int,
        a = (src.getD (364 * i % 729) 0).toInt → b = (src.getD (364 * (i + 1) % 729) 0).toInt →
        (dst.getD i 0).toInt =
          if b = -1 then (if a = -1 then 1 else if a = 0 then 0 else -1)
          else if b = 0 then (if a = -1 then 1 else if a = 0 then -1 else 0)
          else (if a = -1 then -1 else if a = 0 then 1 else 0)

/-- A transform of 729 trits never faults, and its output is the 729 trits that 81 successive rounds of the input give; so
it depends on the input alone, whatever the scratch buffer held (R135, R137, R138). -/
def Obligations.TransformIsPure : Prop :=
  ∀ inp b b' : TritState, tritStateSound inp = true →
    ∃ (o o' : KernelOut TritState) (afterRounds : Nat → TritState),
      transform inp b = .ok o ∧ transform inp b' = .ok o' ∧
      afterRounds 0 = inp ∧ (∀ r, r < 81 → round (afterRounds r) = .ok (afterRounds (r + 1), 0)) ∧
      o.current = afterRounds 81 ∧ o'.current = afterRounds 81 ∧ tritStateSound o.current = true

/-- A round maps all-zero to all −1, all −1 to all 1 and all 1 to all-zero, so the all-zero state is a fixed point of
TRANSFORM, and under TWOS the zero digest with nonce 0, an all-zero input state, passes every target, in either byte
order (R140). -/
def Obligations.ZeroStateIsFixedPoint : Prop :=
  round zeroState = .ok (List.replicate 729 0xFF#8, 0) ∧
  round (List.replicate 729 0xFF#8) = .ok (List.replicate 729 0x01#8, 0) ∧
  round (List.replicate 729 0x01#8) = .ok (zeroState, 0) ∧
  (∀ b : TritState, ∃ o, transform zeroState b = .ok o ∧ o.current = zeroState) ∧
  ∀ pr : Params, pr.signMode = .twos →
    candidate pr (List.replicate 32 0x00#8) 0 = zeroState ∧
    ∀ tz, tz ≤ 243 → passes pr (List.replicate 32 0x00#8) tz 0 = true

/-- Lane l of V_TRANSFORM is TRANSFORM of lane l (R155, R150, R154). -/
def Obligations.VectorTransformIsLaneWise : Prop :=
  ∀ (V b : VectorState) (c : TritState), vectorStateSound V = true →
    ∃ o, vTransform V b = .ok o ∧ vectorStateSound o.current = true ∧
      ∀ l, l < 16 → ∃ o', transform (laneOf l V) c = .ok o' ∧ laneOf l o.current = o'.current

/-- HIT says whether the cells at `243 − tz .. 242` are all 0, and bit l of V_ZMASK says so of lane l, so it is HIT of
lane l (R139, R156). -/
def Obligations.ZmaskIsLaneWiseHit : Prop :=
  (∀ (H : TritState) (tz : Nat), tritStateSound H = true → tz ≤ 243 →
    (hit H tz = true ↔ ∀ p, 243 - tz ≤ p → p < 243 → H.getD p 0xFF#8 = 0x00#8)) ∧
  ∀ (V : VectorState) (tz l : Nat), vectorStateSound V = true → tz ≤ 243 → l < 16 →
    ((vZmask V tz).getLsbD l = true ↔ ∀ p, 243 - tz ≤ p → p < 243 → (V.getD p []).getD l 0xFF#8 = 0x00#8) ∧
    (vZmask V tz).getLsbD l = hit (laneOf l V) tz

/-- V_SELECT with the in-range mask takes the lowest in-range lane of the mask, and none exactly when no lane of the mask is in
range (R157, R158, R160). -/
def Obligations.SelectionTakesLowestInRangeLane : Prop :=
  ∀ (base start stop : Nonce) (zm : LaneMask), base.toNat % 16 = 0 →
    (∀ w, vSelect base zm (vRmask base start stop) = some w →
      ∃ l, l < 16 ∧ w.toNat = base.toNat + l ∧ zm.getLsbD l = true ∧ start.toNat ≤ base.toNat + l ∧
        base.toNat + l ≤ stop.toNat ∧
        ∀ l', l' < l → zm.getLsbD l' = true → start.toNat ≤ base.toNat + l' → stop.toNat < base.toNat + l') ∧
    (vSelect base zm (vRmask base start stop) = none ↔
      ∀ l, l < 16 → zm.getLsbD l = true → start.toNat ≤ base.toNat + l → stop.toNat < base.toNat + l)

/-! ### The search loop -/

/-- At an evaluation boundary a unit with a stop request, or an expired deadline, ends TIMED_OUT or CANCELLED without
evaluating: only its state and report change (R188, R190). -/
def Obligations.StopCheckPrecedesEvaluation : Prop :=
  ∀ (s : State) (k : Nat) (u : SearchUnit) (rest : List Event),
    s.env.agenda = .unit k :: rest → s.env.rst = false → s.units[k]? = some u → u.ustate = .searching →
    (u.stop = .deadline ∨ u.stop = .none ∧ s.coord.snap.dl = true ∧ s.coord.snap.limit.toNat ≤ s.coord.dlCnt.toNat →
      step s = .next { s with
        units := s.units.set k { u with ustate := .timedOut, report := .timedOut }
        env := { s.env with agenda := rest } }) ∧
    (u.stop = .cancel →
      step s = .next { s with
        units := s.units.set k { u with ustate := .cancelled, report := .cancelled }
        env := { s.env with agenda := rest } })

/-- One scalar evaluation of a unit whose input state encodes its nonce: FOUND with that nonce if it passes, else EXHAUSTED at
the end of the range, else the next nonce, its input state encoding it; no counter wraps (R182, R184, R187). Only that
unit changes. -/
def Obligations.ScalarEvaluationOutcome : Prop :=
  ∀ (s : State) (k : Nat) (u : SearchUnit) (rest : List Event),
    s.env.agenda = .unit k :: rest → s.env.rst = false → s.units[k]? = some u → u.ustate = .searching →
    u.backend = .scalar → u.stop = .none →
    (s.coord.snap.dl = true → s.coord.dlCnt.toNat < s.coord.snap.limit.toNat) → u.report = .none →
    u.inp = candidate s.params s.regs.digest u.n → u.n.toNat ≤ u.rangeEnd.toNat →
    ∃ u' : SearchUnit,
      step s = .next { s with units := s.units.set k u', env := { s.env with agenda := rest } } ∧
      (passes s.params s.regs.digest u.tz u.n = true → u'.ustate = .found ∧ u'.report = .found ∧ u'.result = u.n ∧ u'.n = u.n ∧
        u'.enc = u.enc ∧ u'.inp = u.inp) ∧
      (passes s.params s.regs.digest u.tz u.n = false → u.n = u.rangeEnd →
        u'.ustate = .exhausted ∧ u'.report = .exhausted ∧ u'.result = u.result ∧ u'.n = u.n ∧ u'.enc = u.enc ∧
          u'.inp = u.inp) ∧
      (passes s.params s.regs.digest u.tz u.n = false → u.n ≠ u.rangeEnd →
        u'.ustate = .searching ∧ u'.report = .none ∧ u'.result = u.result ∧ u'.n.toNat = u.n.toNat + 1 ∧
          u'.enc = u'.n ∧ u'.inp = candidate s.params s.regs.digest u'.n) ∧
      u'.rangeStart = u.rangeStart ∧ u'.rangeEnd = u.rangeEnd ∧ u'.tz = u.tz ∧ u'.backend = u.backend ∧ u'.stop = u.stop ∧
      u'.vin = u.vin ∧ u'.va = u.va ∧ u'.vb = u.vb ∧ u'.vmicro = u.vmicro ∧ u'.empty = u.empty ∧ u'.fb = u.fb ∧
      u'.exh = u.exh

/-- One batch of a vector unit whose input state encodes its 16 nonces: FOUND with the smallest nonce of the batch that lies
in the range and passes, else EXHAUSTED when the batch holds the end, else the next batch, its input state encoding it; no
counter wraps (R185–R187, R159, R160). Only that unit changes. The vector input state under BE is the model's reading
(assumption 10). -/
def Obligations.VectorBatchOutcome : Prop :=
  ∀ (s : State) (k : Nat) (u : SearchUnit) (rest : List Event),
    s.env.agenda = .unit k :: rest → s.env.rst = false → s.units[k]? = some u → u.ustate = .searching →
    u.backend = .vector → u.stop = .none →
    (s.coord.snap.dl = true → s.coord.dlCnt.toNat < s.coord.snap.limit.toNat) → u.report = .none → u.tz ≤ 243 →
    u.vin = batchInput s.params s.regs.digest u.n → u.n.toNat % 16 = 0 → u.n.toNat ≤ u.rangeEnd.toNat →
    ∃ u' : SearchUnit,
      step s = .next { s with units := s.units.set k u', env := { s.env with agenda := rest } } ∧
      (∀ w : Nonce, u.n.toNat ≤ w.toNat → w.toNat ≤ u.n.toNat + 15 → u.rangeStart.toNat ≤ w.toNat →
        w.toNat ≤ u.rangeEnd.toNat → passes s.params s.regs.digest u.tz w = true →
        NonePass s.params s.regs.digest u.tz (max u.n.toNat u.rangeStart.toNat) w.toNat →
        u'.ustate = .found ∧ u'.report = .found ∧ u'.result = w ∧ u'.n = u.n ∧ u'.enc = u.enc ∧ u'.vin = u.vin) ∧
      (NonePass s.params s.regs.digest u.tz (max u.n.toNat u.rangeStart.toNat) (min (u.n.toNat + 16) (u.rangeEnd.toNat + 1)) →
        (u.rangeEnd.toNat ≤ u.n.toNat + 15 →
          u'.ustate = .exhausted ∧ u'.report = .exhausted ∧ u'.result = u.result ∧ u'.n = u.n ∧ u'.enc = u.enc ∧
            u'.vin = u.vin) ∧
        (u.n.toNat + 15 < u.rangeEnd.toNat →
          u'.ustate = .searching ∧ u'.report = .none ∧ u'.result = u.result ∧ u'.n.toNat = u.n.toNat + 16 ∧
            u'.enc = u'.n ∧ u'.vin = batchInput s.params s.regs.digest u'.n)) ∧
      u'.rangeStart = u.rangeStart ∧ u'.rangeEnd = u.rangeEnd ∧ u'.tz = u.tz ∧ u'.backend = u.backend ∧ u'.stop = u.stop ∧
      u'.inp = u.inp ∧ u'.bufA = u.bufA ∧ u'.bufB = u.bufB ∧ u'.micro = u.micro ∧ u'.empty = u.empty ∧ u'.fb = u.fb ∧
      u'.exh = u.exh

/-- In a sound state a unit that still searches after its own step has a greater counter, by 1 (scalar) or 16 (vector), still
no greater than its end; otherwise it has reached a terminal state (R187, R192). -/
def Obligations.CounterOnlyIncreases : Prop :=
  ∀ (s t : State) (k : Nat) (u : SearchUnit) (rest : List Event),
    Sound s → s.env.agenda = .unit k :: rest → s.env.rst = false → s.units[k]? = some u → u.ustate = .searching →
    step s = .next t →
    ∃ u', t.units[k]? = some u' ∧
      ((u'.ustate ≠ .searching ∧ u'.ustate ≠ .idle) ∨
        u'.ustate = .searching ∧ u'.n.toNat = u.n.toNat + (if u.backend = .scalar then 1 else 16) ∧
          u'.n.toNat ≤ u'.rangeEnd.toNat)

/-- A unit's step writes only that unit: no register, no coordinator state, no other unit, no parameter (R72). -/
def Obligations.UnitStepWritesItsUnitOnly : Prop :=
  ∀ (s t : State) (k : Nat) (rest : List Event),
    s.env.agenda = .unit k :: rest → step s = .next t →
    t.params = s.params ∧ t.regs = s.regs ∧ t.coord = s.coord ∧ t.env = { s.env with agenda := rest } ∧
      t.units.length = s.units.length ∧ ∀ j, j ≠ k → t.units[j]? = s.units[j]?

/-! ### The coordinator -/

/-- For `cMIN ≤ cMAX` and U ≥ 1 every nonce of the range lies in exactly one non-empty part, no other nonce lies in any, and
every part but the last has `L div U` nonces (R212, R213, R224), whatever the end of an empty part holds
(assumption 5). -/
def Obligations.PartitionCoversRangeOnce : Prop :=
  ∀ (c : Snapshot) (q : Nat), 1 ≤ c.units → c.min.toNat ≤ c.max.toNat →
    (∀ n : Nonce, c.min.toNat ≤ n.toNat → n.toNat ≤ c.max.toNat →
      ∃ k, k < c.units ∧ partEmpty c k = false ∧ (partStart c k).toNat ≤ n.toNat ∧ n.toNat ≤ (partEnd q c k).toNat ∧
        ∀ k', k' < c.units → partEmpty c k' = false → (partStart c k').toNat ≤ n.toNat →
          n.toNat ≤ (partEnd q c k').toNat → k' = k) ∧
    (∀ k, k < c.units → partEmpty c k = false →
      c.min.toNat ≤ (partStart c k).toNat ∧ (partStart c k).toNat ≤ (partEnd q c k).toNat ∧
        (partEnd q c k).toNat ≤ c.max.toNat) ∧
    (∀ k, k + 1 < c.units → partEmpty c k = false →
      (partEnd q c k).toNat + 1 - (partStart c k).toNat = (c.max.toNat + 1 - c.min.toNat) / c.units ∧
        (partStart c (k + 1)).toNat = (partEnd q c k).toNat + 1)

/-- The coordinator, in C_WAIT, consumes a FOUND, FAILED or TIMED_OUT report of a unit `k < U`, or takes the deadline
expiry: it latches the outcome (and the nonce, for FOUND), asks every unit `u < U` that is not terminal to stop with the
right reason, moves to C_DRAIN, and changes no register (R215, R216, R218, R219, R220). -/
def Obligations.DecidingEventsLatchAndStop : Prop :=
  ∀ (s : State) (e : Event) (rest : List Event) (code : StatusCode) (reason : Stop) (nonce : Nonce)
    (us : List SearchUnit),
    s.env.agenda = e :: rest → s.env.rst = false → s.coord.cstate = .wait →
    ((∃ k u, e = .report k ∧ k < s.coord.snap.units ∧ s.units[k]? = some u ∧
        us = s.units.set k { u with report := .none } ∧
        (u.report = .found ∧ code = .found ∧ reason = .cancel ∧ nonce = u.result ∨
          u.report = .failed ∧ code = .backendUnavailable ∧ reason = .cancel ∧ nonce = s.coord.latch.nonce ∨
          u.report = .timedOut ∧ code = .timedOut ∧ reason = .deadline ∧ nonce = s.coord.latch.nonce)) ∨
      e = .deadline ∧ s.coord.snap.dl = true ∧ s.coord.snap.limit.toNat ≤ s.coord.dlCnt.toNat ∧ us = s.units ∧
        code = .timedOut ∧ reason = .deadline ∧ nonce = s.coord.latch.nonce) →
    ∃ us' : List SearchUnit, us'.length = us.length ∧
      (∀ j v, us[j]? = some v → us'[j]? =
        some (if j < s.coord.snap.units ∧ (v.ustate = .searching ∨ v.ustate = .idle) then { v with stop := reason } else v)) ∧
      step s = .next { s with
        coord := { s.coord with cstate := .drain, latch := { set := true, code := code, nonce := nonce } }
        units := us'
        env := { s.env with agenda := rest } }

/-- The coordinator, in C_WAIT, consumes an EXHAUSTED report: it records EXH; when every unit `u < U` is then recorded it
ends the search EXHAUSTED in the same step (STATUS.CODE = 3, NONCE = 0, the units released), otherwise it stays in C_WAIT
with STATUS unchanged (R217, R223). -/
def Obligations.ExhaustedReportsAreCounted : Prop :=
  ∀ (s : State) (k : Nat) (u : SearchUnit) (rest : List Event) (us : List SearchUnit),
    s.env.agenda = .report k :: rest → s.env.rst = false → s.coord.cstate = .wait → k < s.coord.snap.units →
    s.units[k]? = some u → u.report = .exhausted → us = s.units.set k { u with report := .none, exh := true } →
    ((∃ j v, j < s.coord.snap.units ∧ us[j]? = some v ∧ v.exh = false) →
      step s = .next { s with units := us, env := { s.env with agenda := rest } }) ∧
    ((∀ j v, j < s.coord.snap.units → us[j]? = some v → v.exh = true) →
      ∃ (st : Status) (us' : List SearchUnit),
        statusWord st = (statusWord s.regs.status &&& 0x20#32) ||| 0x43#32 ∧ us'.length = s.units.length ∧
        (∀ j v, us[j]? = some v → us'[j]? =
          some (if j < s.coord.snap.units then { v with ustate := .idle, stop := .none } else v)) ∧
        step s = .next { s with
          regs := { s.regs with status := st, nonceLo := 0#32, nonceHi := 0#32 }
          coord := { s.coord with cstate := .idle, latch := { s.coord.latch with set := true, code := .exhausted } }
          units := us'
          env := { s.env with agenda := rest } })

/-- In C_DRAIN the coordinator consumes a report and discards it: only that unit's report changes, so a late FOUND does not
change the outcome (R222, R75). -/
def Obligations.DrainDiscardsReports : Prop :=
  ∀ (s : State) (k : Nat) (u : SearchUnit) (rest : List Event),
    s.env.agenda = .report k :: rest → s.env.rst = false → s.coord.cstate = .drain → k < s.coord.snap.units →
    s.units[k]? = some u → u.report ≠ .none →
    step s = .next { s with
      units := s.units.set k { u with report := .none }
      env := { s.env with agenda := rest } }

/-- When every unit `u < U` is terminal and its report consumed, the end of a drained search writes STATUS and NONCE from the
latch in one step, keeps REJECTED, returns every unit `u < U` to U_IDLE with no stop request, and goes to C_IDLE; until
then the event does nothing (R222, R223, R71). That the end is a step of its own is the model's choice (assumption 2). -/
def Obligations.PublishEndsDrainedSearch : Prop :=
  ∀ (s : State) (rest : List Event),
    s.env.agenda = .publish :: rest → s.env.rst = false → s.coord.cstate = .drain →
    ((∀ k u, k < s.coord.snap.units → s.units[k]? = some u →
        (u.ustate ≠ .searching ∧ u.ustate ≠ .idle) ∧ u.report = .none) →
      ∃ (st : Status) (lo hi : Word) (us : List SearchUnit),
        st.code = s.coord.latch.code ∧ st.done = true ∧ st.reason = 0#4 ∧ st.rejected = s.regs.status.rejected ∧
        (st.nonceValid = true ↔ s.coord.latch.code = .found) ∧
        (s.coord.latch.code = .found → joinHalves hi lo = s.coord.latch.nonce) ∧
        (s.coord.latch.code ≠ .found → joinHalves hi lo = 0) ∧ us.length = s.units.length ∧
        (∀ j v, s.units[j]? = some v → us[j]? =
          some (if j < s.coord.snap.units then { v with ustate := .idle, stop := .none } else v)) ∧
        step s = .next { s with
          regs := { s.regs with status := st, nonceLo := lo, nonceHi := hi }
          coord := { s.coord with cstate := .idle }
          units := us
          env := { s.env with agenda := rest } }) ∧
    ((∃ k u, k < s.coord.snap.units ∧ s.units[k]? = some u ∧
        ((u.ustate = .searching ∨ u.ustate = .idle) ∨ u.report ≠ .none)) →
      step s = .next { s with env := { s.env with agenda := rest } })

/-- A tick counts, saturating at 2^32 − 1, exactly while a search with a deadline runs, and changes nothing else
(R219, R283, R38). -/
def Obligations.TickCountsDeadline : Prop :=
  ∀ (s : State) (rest : List Event), s.env.agenda = .tick :: rest → s.env.rst = false →
    ∃ n : Word,
      step s = .next { s with coord := { s.coord with dlCnt := n }, env := { s.env with agenda := rest } } ∧
      (s.coord.cstate ≠ .idle → s.coord.snap.dl = true → n.toNat = min (s.coord.dlCnt.toNat + 1) (2 ^ 32 - 1)) ∧
      (s.coord.cstate = .idle ∨ s.coord.snap.dl = false → n = s.coord.dlCnt)

/-- The latch is written at most once per search: a step from C_WAIT that changes it leaves C_WAIT, and no step from
C_DRAIN changes it, but for the reset step (R36, R75). -/
def Obligations.LatchIsWrittenOnce : Prop :=
  ∀ (s t : State), (s.regs.status.code = .busy ↔ s.coord.cstate ≠ .idle) → step s = .next t →
    (s.coord.cstate = .wait → t.coord.latch ≠ s.coord.latch → t.coord.cstate ≠ .wait) ∧
    (s.coord.cstate = .drain → (∀ rest, s.env.agenda ≠ .rst true :: rest) → t.coord.latch = s.coord.latch)

/-- While a search runs some move of the block's own is enabled (R228, R312); each enabled move changes the state, so none is
an idle turn. The state is sound. -/
def Obligations.NoStuckCoordinator : Prop :=
  ∀ s : State, Sound s → s.env.rst = false →
    (s.coord.cstate ≠ .idle → enabledMoves s ≠ []) ∧
    ∀ e ∈ enabledMoves s, ∃ t, takeEvent e s = .next t ∧ t ≠ s

/-- With no event to come and nothing running the block stands still (R287). That the inputs to come stand in the state is
the model's choice (assumptions 1 and 2). -/
def Obligations.IdleBlockStandsStill : Prop :=
  ∀ s : State, ControlConsistent s → s.coord.cstate = .idle → s.env.agenda = [] → step s = .next s

/-! ### Reset -/

/-- Asserting `rst`, in any state and whatever runs, leaves every register, the coordinator and each of the machine's units
at the value R54 gives, and so it is at power-on; while `rst` stays asserted no agent moves and no tick counts
(R300, R54, R302). `rst` as a level in the state is the model's choice (assumption 13), and so is the place of the codec
parameters in the state, which the reset step keeps and which hold TWOS and LE at power-on (R7; assumption 11). -/
def Obligations.RstResetsEverything : Prop :=
  (∀ (s : State) (rest : List Event), s.env.agenda = .rst true :: rest →
    ∃ t : State, step s = .next t ∧ t.params = s.params ∧ RegsAtReset t.regs ∧ CoordAtReset t.coord ∧
      t.units.length = s.units.length ∧ (∀ u ∈ t.units, UnitAtReset u) ∧ doneLine t = false ∧ t.env = { s.env with agenda := rest, rst := true }) ∧
  (State.reset.params = { signMode := .twos, byteOrder := .le } ∧ RegsAtReset State.reset.regs ∧
    CoordAtReset State.reset.coord ∧ State.reset.units.length = Config.maxUnits ∧ ∀ u ∈ State.reset.units, UnitAtReset u) ∧
  ∀ (s : State) (e : Event) (rest : List Event), s.env.agenda = e :: rest → s.env.rst = true →
    (e = .tick ∨ e = .deadline ∨ e = .publish ∨ (∃ k, e = .unit k) ∨ ∃ k, e = .report k) →
    step s = .next { s with env := { s.env with agenda := rest } }

/-- What the host reads at every offset right after reset, the values the spec states (R43–R49, R54, V7.4). -/
def Obligations.RegistersAfterReset : Prop :=
  ∀ off : BitVec 6,
    readReg State.reset off =
      if 4 * off.toNat = 0x10 ∨ 4 * off.toNat = 0x14 then 0xFFFFFFFF#32
      else if 4 * off.toNat = 0x28 then 0x300#32 ||| BitVec.ofNat 32 Config.maxUnits
      else 0#32

/-- The state after reset is sound. -/
def Obligations.ResetIsSound : Prop := Sound State.reset

/-! ### Invariants and whole-machine rules -/

/-- Every step keeps every buffer full and every cell a trit (R21, R69). -/
def Obligations.StepKeepsBuffersSound : Prop :=
  ∀ s t : State, BuffersSound s → step s = .next t → BuffersSound t

/-- Every step keeps STATUS, the coordinator and the units consistent (R43, R210, R228, R288). -/
def Obligations.StepKeepsControlConsistent : Prop :=
  ∀ s t : State, StatusConsistent s.regs → ControlConsistent s → step s = .next t →
    StatusConsistent t.regs ∧ ControlConsistent t

/-- Every step keeps the whole state sound, and with it what each unit has established: a unit that ends FOUND holds the
smallest passing nonce of its part, and one that ends EXHAUSTED has none, on either backend (R184, R191). For the vector backend under BE it rests on the
model's reading of the byte order (assumption 10). -/
def Obligations.StepKeepsSound : Prop :=
  ∀ s t : State, Sound s → step s = .next t → Sound t

/-- From a sound state no run meets a fault (R137, R228, R275). -/
def Obligations.SoundRunsNeverFault : Prop :=
  ∀ s : State, Sound s → SafeFrom s

/-- The outcome that ends a search is true: FOUND is the smallest passing nonce of a non-empty part of the range, EXHAUSTED
means that no nonce of the range passes, TIMED_OUT only with a deadline, BACKEND_UNAVAILABLE only when some unit had no
usable backend when the search drew `initOk`; and no other code ends one but CANCELLED (R226, R191, R224, R189). For the vector backend under BE it rests on the model's
reading of the byte order (assumption 10). -/
def Obligations.PublishedOutcomeIsTrue : Prop :=
  ∀ s t : State, Sound s → isBusy s = true → step s = .next t → isBusy t = false →
    (∃ rest, s.env.agenda = .rst true :: rest) ∨
    (t.regs.status.code = .found ∧ ∃ k, k < s.coord.snap.units ∧ partEmpty s.coord.snap k = false ∧
      ∀ q, SmallestPassing s.params s.regs.digest s.coord.snap.tz (partStart s.coord.snap k) (partEnd q s.coord.snap k)
        (nonceReg t.regs)) ∨
    (t.regs.status.code = .exhausted ∧
      NonePass s.params s.regs.digest s.coord.snap.tz s.coord.snap.min.toNat (s.coord.snap.max.toNat + 1)) ∨
    (t.regs.status.code = .timedOut ∧ s.coord.snap.dl = true) ∨
    (t.regs.status.code = .backendUnavailable ∧ ∃ k, k < s.coord.snap.units ∧
      NoUsableBackend s.env (s.env.searches - 1) k s.coord.snap.vec s.coord.snap.fb) ∨
    t.regs.status.code = .cancelled

/-- Only the host's CANCEL, admitted in C_WAIT, latches CANCELLED, in every search (R221, R226). -/
def Obligations.OnlyHostCancelCancels : Prop :=
  ∀ s t : State, step s = .next t → t.coord.latch.set = true ∧ t.coord.latch.code = .cancelled →
    ¬ (s.coord.latch.set = true ∧ s.coord.latch.code = .cancelled) →
    ∃ rest, s.env.agenda = .host (.write 32 0 0x04000000#32) :: rest ∧ s.coord.cstate = .wait

/-- While a search runs no step changes what it reads: MIN, MAX, DEADLINE, the digest, DIGEST_VALID and the snapshot, but
for the reset step (R51, R72, R285); and no step at all, the reset step included, changes the codec parameters, which stand
in the state by the model's choice (R64; assumption 11). -/
def Obligations.SearchInputsAreImmutable : Prop :=
  ∀ s t : State, step s = .next t →
    t.params = s.params ∧
    (isBusy s = true → s.coord.cstate ≠ .idle → (∀ rest, s.env.agenda ≠ .rst true :: rest) →
      t.regs.minLo = s.regs.minLo ∧ t.regs.minHi = s.regs.minHi ∧ t.regs.maxLo = s.regs.maxLo ∧
        t.regs.maxHi = s.regs.maxHi ∧ t.regs.deadline = s.regs.deadline ∧ t.regs.digest = s.regs.digest ∧
        t.regs.digestValid = s.regs.digestValid ∧ t.coord.snap = s.coord.snap)

/-- The digest changes only by a SET_DIGEST_BYTE word accepted while not BUSY, or by reset (R39, R47, D34). -/
def Obligations.DigestChangesOnlyBySetDigestByte : Prop :=
  ∀ s t : State, step s = .next t → t.regs.digest ≠ s.regs.digest ∨ t.regs.digestValid ≠ s.regs.digestValid →
    (∃ rest, s.env.agenda = .rst true :: rest) ∨
    ∃ a rest idx val, s.env.agenda = .host a :: rest ∧ isBusy s = false ∧ decode a = .ok (.setDigestByte idx val)

/-- Once a search has ended its result stays readable: in C_IDLE, STATUS but for REJECTED, and NONCE, change only by a
command word that is a search or illegal, or by reset (R48, R71, R280). -/
def Obligations.ResultStaysUntilNextCommand : Prop :=
  ∀ s t : State, StatusConsistent s.regs → ControlConsistent s → isBusy s = false →
    (∀ rest, s.env.agenda ≠ .rst true :: rest) →
    (∀ w rest, s.env.agenda = .host (.write 32 0 w) :: rest →
      decodeCommand w = .ok .nop ∨ decodeCommand w = .ok .cancel ∨ ∃ idx val, decodeCommand w = .ok (.setDigestByte idx val)) →
    step s = .next t →
    nonceReg t.regs = nonceReg s.regs ∧ t.regs.status.code = s.regs.status.code ∧
      t.regs.status.nonceValid = s.regs.status.nonceValid ∧ t.regs.status.done = s.regs.status.done ∧
      t.regs.status.reason = s.regs.status.reason

/-- A step of the block's own agents or of the tick never changes a host-visible register unless it ends a search
(R52, R66, R223). -/
def Obligations.OnlyPublicationChangesRegisters : Prop :=
  ∀ (s t : State), StatusConsistent s.regs → ControlConsistent s → (∀ a rest, s.env.agenda ≠ .host a :: rest) →
    (∀ rest, s.env.agenda ≠ .rst true :: rest) → step s = .next t → t.regs ≠ s.regs →
    s.coord.cstate ≠ .idle ∧ t.coord.cstate = .idle ∧ doneLine t = true

/-- The STATUS word has each code by its number, each flag and REASON in its bits, and 0 in its reserved bits; BUSY is
code 1 and the `done` output is bit 6 (R43, R61, R270). -/
def Obligations.StatusWordHoldsItsFields : Prop :=
  ∀ (s : State) (w : Word), w = statusWord s.regs.status →
    ((s.regs.status.code = .idle ∧ w.toNat % 16 = 0) ∨ (s.regs.status.code = .busy ∧ w.toNat % 16 = 1) ∨
      (s.regs.status.code = .found ∧ w.toNat % 16 = 2) ∨ (s.regs.status.code = .exhausted ∧ w.toNat % 16 = 3) ∨
      (s.regs.status.code = .timedOut ∧ w.toNat % 16 = 4) ∨ (s.regs.status.code = .invalidInput ∧ w.toNat % 16 = 5) ∨
      (s.regs.status.code = .backendUnavailable ∧ w.toNat % 16 = 6) ∨
      (s.regs.status.code = .illegalCommand ∧ w.toNat % 16 = 7) ∨ (s.regs.status.code = .cancelled ∧ w.toNat % 16 = 8)) ∧
    w.getLsbD 4 = s.regs.status.nonceValid ∧ w.getLsbD 5 = s.regs.status.rejected ∧
    w.getLsbD 6 = s.regs.status.done ∧ w.getLsbD 7 = false ∧ w.extractLsb' 8 4 = s.regs.status.reason ∧
    w.toNat < 2 ^ 12 ∧ (isBusy s = true ↔ w.toNat % 16 = 1) ∧ doneLine s = w.getLsbD 6

/-- With no event named and a search running, the step is that of a schedule which names some enabled move: an
evaluation of a searching unit, the consumption of a pending report of a unit `k < U`, the deadline expiry in C_WAIT, or
the end of a drained search (R215, R219, R222, R225). The state is sound. The schedule as data and the count of free picks
are the model's choice (assumption 2), and the statement holds whichever move is picked. -/
def Obligations.UnscheduledStepTakesEnabledMove : Prop :=
  ∀ s : State, Sound s → s.env.rst = false → s.env.agenda = [] → s.coord.cstate ≠ .idle →
    ∃ (e : Event) (n : Nat),
      ((∃ k u, e = .unit k ∧ s.units[k]? = some u ∧ u.ustate = .searching) ∨
        (∃ k u, e = .report k ∧ s.units[k]? = some u ∧ k < s.coord.snap.units ∧ u.report ≠ .none) ∨
        (e = .deadline ∧ s.coord.cstate = .wait ∧ s.coord.snap.dl = true ∧
          s.coord.snap.limit.toNat ≤ s.coord.dlCnt.toNat) ∨
        (e = .publish ∧ s.coord.cstate = .drain ∧
          ∀ k u, k < s.coord.snap.units → s.units[k]? = some u →
            (u.ustate ≠ .searching ∧ u.ustate ≠ .idle) ∧ u.report = .none)) ∧
      step s = step { s with env := { s.env with agenda := [e], picks := n } }
end

