-- ==== Sys2Proof/Laws/Codec.lean ====
section
/-! SUPPORT. What the codec's operations do to a buffer: the cells they write, the cells they leave, and lane by lane. -/

namespace Sys2Proof
namespace Machine

/-! ### Writing cells -/

@[simp] theorem length_writeCells {α : Type} (xs : List α) (S : List α) (t : Nat) :
    (writeCells S t xs).length = S.length := by
  induction xs generalizing S t with
  | nil => rfl
  | cons x xs ih => simp [writeCells, ih]

/-- The cells `t .. t + xs.length − 1` hold `xs`, every other cell is unchanged. -/
theorem getElem?_writeCells {α : Type} (xs : List α) (S : List α) (t p : Nat) :
    (writeCells S t xs)[p]? =
      if t ≤ p ∧ p < t + xs.length then (if p < S.length then xs[p - t]? else none) else S[p]? := by
  induction xs generalizing S t with
  | nil =>
    simp [writeCells]
  | cons x xs ih =>
    simp only [writeCells, ih, List.length_set, List.length_cons]
    by_cases h : p = t
    · subst h
      have h1 : ¬ (p + 1 ≤ p ∧ p < p + 1 + xs.length) := by omega
      have h2 : p ≤ p ∧ p < p + (xs.length + 1) := by omega
      simp only [h1, h2, if_true, if_false, List.getElem?_set, Nat.sub_self, and_self]
      simp
    · by_cases h1 : t + 1 ≤ p ∧ p < t + 1 + xs.length
      · have h2 : t ≤ p ∧ p < t + (xs.length + 1) := by omega
        have h3 : p - t = (p - (t + 1)) + 1 := by omega
        simp [h1, h2, h3]
      · have h2 : ¬ (t ≤ p ∧ p < t + (xs.length + 1)) := by omega
        rw [if_neg h1, if_neg h2, List.getElem?_set_ne (Ne.symm h)]

/-- Writing cells commutes with reading every cell through a function, such as one lane of a group. -/
theorem map_writeCells {α β : Type} (f : α → β) (xs : List α) (S : List α) (t : Nat) :
    (writeCells S t xs).map f = writeCells (S.map f) t (xs.map f) := by
  induction xs generalizing S t with
  | nil => rfl
  | cons x xs ih => simp [writeCells, ih, List.map_set]

/-- A property of every old cell and every written one holds of every new cell. -/
theorem forall_writeCells {α : Type} {P : α → Prop} (xs : List α) (S : List α) (t : Nat)
    (hx : ∀ x ∈ xs, P x) (hS : ∀ x ∈ S, P x) : ∀ x ∈ writeCells S t xs, P x := by
  induction xs generalizing S t with
  | nil => simpa [writeCells] using hS
  | cons y ys ih =>
    refine ih _ _ (fun x h => hx x (List.mem_cons_of_mem _ h)) fun x h => ?_
    rcases List.mem_or_eq_of_mem_set h with h | h
    · exact hS x h
    · exact h ▸ hx y List.mem_cons_self

/-- `c` windows of six cells written one after another from `t0`. -/
theorem getElem?_foldl_windows {α : Type} (W : Nat → List α) (hW : ∀ k, (W k).length = 6) (t0 c : Nat) (S : List α)
    (p : Nat) (hlen : t0 + 6 * c ≤ S.length) :
    ((List.range c).foldl (fun S k => writeCells S (t0 + 6 * k) (W k)) S)[p]? =
      if t0 ≤ p ∧ p < t0 + 6 * c then (W ((p - t0) / 6))[(p - t0) % 6]? else S[p]? := by
  induction c with
  | zero => simp
  | succ c ih =>
    have hl : ∀ n : Nat, ((List.range n).foldl (fun S k => writeCells S (t0 + 6 * k) (W k)) S).length = S.length := by
      intro n
      induction n with
      | zero => simp
      | succ n ihn => simp [List.range_succ, ihn]
    rw [List.range_succ, List.foldl_append]
    simp only [List.foldl_cons, List.foldl_nil, getElem?_writeCells, hl, hW]
    by_cases h : t0 + 6 * c ≤ p ∧ p < t0 + 6 * c + 6
    · have h1 : p < S.length := by omega
      have h2 : t0 ≤ p ∧ p < t0 + 6 * (c + 1) := by omega
      have h3 : (p - t0) / 6 = c := by omega
      have h4 : (p - t0) % 6 = p - (t0 + 6 * c) := by omega
      simp [h, h1, h2, h3, h4]
    · rw [if_neg h, ih (by omega)]
      by_cases h1 : t0 ≤ p ∧ p < t0 + 6 * c
      · have h2 : t0 ≤ p ∧ p < t0 + 6 * (c + 1) := by omega
        simp [h1, h2]
      · have h2 : ¬ (t0 ≤ p ∧ p < t0 + 6 * (c + 1)) := by omega
        simp [h1, h2]

theorem length_foldl_windows {α : Type} (f : Nat → Nat) (W : Nat → List α) (l : List Nat) (S : List α) :
    (l.foldl (fun S k => writeCells S (f k) (W k)) S).length = S.length := by
  induction l generalizing S with
  | nil => rfl
  | cons k l ih => simp [ih]

theorem forall_foldl_windows {α : Type} {P : α → Prop} (f : Nat → Nat) (W : Nat → List α)
    (hW : ∀ k, ∀ x ∈ W k, P x) (l : List Nat) (S : List α) (hS : ∀ x ∈ S, P x) :
    ∀ x ∈ l.foldl (fun S k => writeCells S (f k) (W k)) S, P x := by
  induction l generalizing S with
  | nil => simpa using hS
  | cons k l ih => exact ih _ (forall_writeCells _ _ _ (hW k) hS)

theorem map_foldl_windows {α β : Type} (g : α → β) (f : Nat → Nat) (W : Nat → List α) (l : List Nat) (S : List α) :
    (l.foldl (fun S k => writeCells S (f k) (W k)) S).map g =
      l.foldl (fun S k => writeCells S (f k) ((W k).map g)) (S.map g) := by
  induction l generalizing S with
  | nil => rfl
  | cons k l ih => simp [ih, map_writeCells]

/-! ### One byte's window -/

@[simp] theorem length_byteWindow (m : CodecSignMode) (b : Byte) : (byteWindow m b).length = 6 := rfl

theorem signedValue_bounds (m : CodecSignMode) (b : Byte) : -128 ≤ signedValue m b ∧ signedValue m b ≤ 127 := by
  have := b.isLt
  cases m <;> simp only [signedValue] <;> (try split) <;> omega

theorem cell_valid {x : Int} (h : x = -1 ∨ x = 0 ∨ x = 1) : validCell (cell x) = true := by
  rcases h with rfl | rfl | rfl <;> rfl

/-- The codec writes only trits (R101, R21). -/
theorem validTrits_byteWindow (m : CodecSignMode) (b : Byte) : ∀ c ∈ byteWindow m b, validCell c = true := by
  have hd : ∀ x : Int, ∀ y ∈ threeDigits x, y = -1 ∨ y = 0 ∨ y = 1 := by
    intro x y hy
    simp only [threeDigits, List.mem_cons, List.not_mem_nil, or_false] at hy
    omega
  intro c hc
  simp only [byteWindow, List.mem_map, windowDigits, List.mem_append] at hc
  obtain ⟨y, hy, rfl⟩ := hc
  exact cell_valid (hy.elim (hd _ _) (hd _ _))

/-! ### The digest and the nonce in a scalar buffer -/

@[simp] theorem length_encodeByte (m : CodecSignMode) (S : TritState) (t : Nat) (b : Byte) :
    (encodeByte m S t b).length = S.length := by simp [encodeByte]

@[simp] theorem length_encodeDigest (m : CodecSignMode) (d : List Byte) (S : TritState) :
    (encodeDigest m d S).length = S.length := length_foldl_windows _ _ _ _

@[simp] theorem length_encodeNonce (m : CodecSignMode) (o : NonceByteOrder) (S : TritState) (n : Nonce) (c : Nat) :
    (encodeNonce m o S n c).length = S.length := length_foldl_windows _ _ _ _

theorem getElem?_encodeDigest (m : CodecSignMode) (d : List Byte) (S : TritState) (p : Nat) (h : 192 ≤ S.length) :
    (encodeDigest m d S)[p]? = if p < 192 then (byteWindow m (d.getD (p / 6) 0))[p % 6]? else S[p]? := by
  have := getElem?_foldl_windows (fun j => byteWindow m (d.getD j 0)) (fun _ => rfl) 0 32 S p (by omega)
  simpa [encodeDigest, encodeByte, Config.digestBytes] using this

/-- The nonce byte whose window is the j-th of `[192,240)` (R105, R106). -/
def byteAtWindow (o : NonceByteOrder) (j : Nat) : Nat :=
  match o with
  | .le => j
  | .be => 7 - j

@[simp] theorem byteAtWindow_le (j : Nat) : byteAtWindow .le j = j := rfl

@[simp] theorem byteAtWindow_be (j : Nat) : byteAtWindow .be j = 7 - j := rfl

/-- Byte k has window j exactly when window j is that of byte k (R105, R106). -/
theorem nonceWindow_eq (o : NonceByteOrder) {j k : Nat} (hk : k < 8) :
    nonceWindow o k = 192 + 6 * j ↔ j < 8 ∧ byteAtWindow o j = k := by
  cases o <;> simp only [nonceWindow, byteAtWindow] <;> omega

/-- The low `c` nonce bytes are written, each in its own window of `[192,240)`, and no other cell (R105, R106). -/
theorem getElem?_encodeNonce (m : CodecSignMode) (o : NonceByteOrder) (S : TritState) (n : Nonce) (c p : Nat) (hc : c ≤ 8)
    (h : 240 ≤ S.length) :
    (encodeNonce m o S n c)[p]? =
      if 192 ≤ p ∧ p < 240 ∧ byteAtWindow o ((p - 192) / 6) < c then
        (byteWindow m (byteOf n (byteAtWindow o ((p - 192) / 6))))[(p - 192) % 6]?
      else S[p]? := by
  induction c with
  | zero => simp [encodeNonce]
  | succ c ih =>
    have e : encodeNonce m o S n (c + 1) =
        writeCells (encodeNonce m o S n c) (nonceWindow o c) (byteWindow m (byteOf n c)) := by
      rw [encodeNonce, List.range_succ, List.foldl_append]; rfl
    rw [e, getElem?_writeCells, ih (by omega), length_encodeNonce, length_byteWindow]
    have hw : 192 ≤ nonceWindow o c ∧ nonceWindow o c + 6 ≤ 240 := by cases o <;> simp only [nonceWindow] <;> omega
    by_cases hp : nonceWindow o c ≤ p ∧ p < nonceWindow o c + 6
    · have hb : byteAtWindow o ((p - 192) / 6) = c ∧ p - nonceWindow o c = (p - 192) % 6 := by
        cases o <;> simp only [nonceWindow, byteAtWindow] at * <;> omega
      rw [if_pos hp, if_pos (by omega), if_pos ⟨by omega, by omega, by omega⟩, hb.1, hb.2]
    · have hb : (192 ≤ p ∧ p < 240 ∧ byteAtWindow o ((p - 192) / 6) < c + 1) ↔
          (192 ≤ p ∧ p < 240 ∧ byteAtWindow o ((p - 192) / 6) < c) := by
        cases o <;> simp only [nonceWindow, byteAtWindow] at * <;> omega
      rw [if_neg hp]
      simp only [hb]

@[simp] theorem length_zeroState : zeroState.length = 729 := List.length_replicate

@[simp] theorem length_inputState (m : CodecSignMode) (o : NonceByteOrder) (d : List Byte) (n : Nonce) :
    (inputState m o d n).length = 729 := by simp [inputState]

/-- Every cell of an input state: the digest in `[0,192)`, the nonce in `[192,240)`, zero above (R107, R106). -/
theorem getElem?_inputState (m : CodecSignMode) (o : NonceByteOrder) (d : List Byte) (n : Nonce) (p : Nat) :
    (inputState m o d n)[p]? =
      if p < 192 then (byteWindow m (d.getD (p / 6) 0))[p % 6]?
      else if p < 240 then (byteWindow m (byteOf n (byteAtWindow o ((p - 192) / 6))))[(p - 192) % 6]?
      else if p < 729 then some 0x00#8 else none := by
  rw [inputState, getElem?_encodeNonce _ _ _ _ _ _ (Nat.le_refl 8) (by simp), getElem?_encodeDigest _ _ _ _ (by simp)]
  by_cases h1 : p < 192
  · simp only [h1, if_true]
    rw [if_neg (by omega)]
  · by_cases h2 : p < 240
    · have : byteAtWindow o ((p - 192) / 6) < 8 := by cases o <;> simp only [byteAtWindow] <;> omega
      rw [if_pos ⟨by omega, h2, this⟩, if_neg h1, if_pos h2]
    · rw [if_neg (by omega), if_neg h1, if_neg h1, if_neg h2, zeroState, List.getElem?_replicate]
      rfl

theorem forall_encodeByte {P : Byte → Prop} (m : CodecSignMode) (S : TritState) (t : Nat) (b : Byte)
    (hw : ∀ c ∈ byteWindow m b, P c) (hS : ∀ c ∈ S, P c) : ∀ c ∈ encodeByte m S t b, P c :=
  forall_writeCells _ _ _ hw hS

/-! ### Lane by lane -/

theorem laneOf_eq (l : Nat) (V : VectorState) : laneOf l V = V.map fun g => g.getD l 0 := rfl

theorem getD_replicate_lane (n l : Nat) (x d : Byte) (h : l < n ∨ x = d) : (List.replicate n x).getD l d = x := by
  rw [List.getD_eq_getElem?_getD, List.getElem?_replicate]
  by_cases hl : l < n
  · rw [if_pos hl]; rfl
  · rw [if_neg hl, h.resolve_left hl]; rfl

@[simp] theorem laneOf_zeroVector (l : Nat) : laneOf l zeroVector = zeroState := by
  rw [laneOf, zeroVector, zeroState, List.map_replicate]
  exact congrArg _ (getD_replicate_lane _ _ _ _ (.inr rfl))

theorem map_getD_replicate (l : Nat) (hl : l < 16) (w : List Byte) :
    (w.map (List.replicate Config.lanes)).map (fun g => g.getD l 0) = w := by
  rw [List.map_map]
  conv_rhs => rw [← List.map_id w]
  exact List.map_congr_left fun x _ => getD_replicate_lane _ _ _ _ (.inl hl)

/-- One lane of a broadcast byte is the scalar encoding (R108). -/
theorem laneOf_vBroadcastByte (m : CodecSignMode) (V : VectorState) (t : Nat) (b : Byte) (l : Nat) (hl : l < 16) :
    laneOf l (vBroadcastByte m V t b) = encodeByte m (laneOf l V) t b := by
  rw [laneOf, vBroadcastByte, map_writeCells, map_getD_replicate l hl]; rfl

/-- Lane l of the per-lane byte is the encoding of byte 0 of `base + l` (R109). -/
theorem laneOf_vLaneByte0 (m : CodecSignMode) (o : NonceByteOrder) (V : VectorState) (base : Nonce) (l : Nat)
    (hl : l < 16) :
    laneOf l (vLaneByte0 m o V base) =
      encodeByte m (laneOf l V) (nonceWindow o 0) (byteOf (base + BitVec.ofNat 64 l) 0) := by
  rw [laneOf, vLaneByte0, map_writeCells, encodeByte]
  congr 1
  rw [List.map_map]
  have h : ∀ k, ((List.range Config.lanes).map
      (fun l => (byteWindow m (byteOf (base + BitVec.ofNat 64 l) 0)).getD k 0)).getD l 0 =
      (byteWindow m (byteOf (base + BitVec.ofNat 64 l) 0)).getD k 0 := by
    intro k
    rw [List.getD_eq_getElem?_getD, List.getElem?_map, List.getElem?_range (by exact hl)]
    rfl
  simp only [Function.comp_def, h]
  rfl

/-- One lane of the vector digest is the scalar digest (R110). -/
theorem laneOf_vEncodeDigest (m : CodecSignMode) (d : List Byte) (V : VectorState) (l : Nat) (hl : l < 16) :
    laneOf l (vEncodeDigest m d V) = encodeDigest m d (laneOf l V) := by
  rw [vEncodeDigest, encodeDigest]
  generalize List.range Config.digestBytes = js
  induction js generalizing V with
  | nil => rfl
  | cons j js ih => simp only [List.foldl_cons, ih, laneOf_vBroadcastByte m _ _ _ l hl]

/-- In a batch at a multiple of 16, the lanes differ in byte 0 only (R109, D10). -/
theorem byteOf_lane (base : Nonce) (hb : base.toNat % 16 = 0) (l : Nat) (hl : l < 16) (k : Nat) (hk : 1 ≤ k) :
    byteOf (base + BitVec.ofNat 64 l) k = byteOf base k := by
  have hlt := base.isLt
  apply BitVec.eq_of_toNat_eq
  have e : (base + BitVec.ofNat 64 l).toNat = base.toNat + l := by
    rw [BitVec.toNat_add, BitVec.toNat_ofNat, Nat.mod_eq_of_lt (a := l) (by omega)]
    exact Nat.mod_eq_of_lt (by omega)
  simp only [byteOf, BitVec.toNat_setWidth, BitVec.toNat_ushiftRight, e]
  congr 1
  obtain ⟨j, rfl⟩ : ∃ j, k = j + 1 := ⟨k - 1, by omega⟩
  rw [Nat.shiftRight_eq_div_pow, Nat.shiftRight_eq_div_pow,
    show 8 * (j + 1) = 8 + 8 * j by ring, Nat.pow_add, ← Nat.div_div_eq_div_mul, ← Nat.div_div_eq_div_mul]
  congr 1
  omega

/-- Lane l of a batch's nonce encoding is the scalar encoding of `base + l` (R111). -/
theorem laneOf_vEncodeNonce (m : CodecSignMode) (o : NonceByteOrder) (V : VectorState) (base : Nonce) (c : Nat)
    (hc : 1 ≤ c) (hb : base.toNat % 16 = 0) (l : Nat) (hl : l < 16) :
    laneOf l (vEncodeNonce m o V base c) = encodeNonce m o (laneOf l V) (base + BitVec.ofNat 64 l) c := by
  have hr : List.range c = 0 :: List.range' 1 (c - 1) := by
    rw [List.range_eq_range']
    obtain ⟨j, rfl⟩ : ∃ j, c = j + 1 := ⟨c - 1, by omega⟩
    rfl
  rw [vEncodeNonce, encodeNonce, hr, List.foldl_cons, ← laneOf_vLaneByte0 m o V base l hl]
  have hmem : ∀ k ∈ List.range' 1 (c - 1), 1 ≤ k := fun k hk => (List.mem_range'_1.1 hk).1
  generalize List.range' 1 (c - 1) = ks at hmem
  generalize vLaneByte0 m o V base = W
  induction ks generalizing W with
  | nil => rfl
  | cons k ks ih =>
    have h1 := hmem k List.mem_cons_self
    simp only [List.foldl_cons]
    rw [ih (fun k hk => hmem k (List.mem_cons_of_mem _ hk)), laneOf_vBroadcastByte m _ _ _ l hl,
      byteOf_lane base hb l hl k h1]

end Machine
end Sys2Proof
end

