-- ==== Sys2Proof/Laws/Masks.lean ====
section
/-! SUPPORT. Trailing zeros (spec/00_scope.md R11) and lane masks (spec/42_vector_kernel.md R156–R158), bit by bit. -/

namespace Sys2Proof
namespace Machine

/-! ### Trailing zeros -/

theorem trailingZeros_le (w n : Nat) : trailingZeros w n ≤ w := by
  induction w generalizing n with
  | zero => exact Nat.le_refl 0
  | succ w ih => rw [trailingZeros]; split <;> [omega; exact Nat.succ_le_succ (ih _)]

/-- The bits below the count are zero (R11). -/
theorem trailingZeros_dvd (w n : Nat) : 2 ^ trailingZeros w n ∣ n := by
  induction w generalizing n with
  | zero => exact Nat.one_dvd n
  | succ w ih =>
    rw [trailingZeros]
    split
    · exact Nat.one_dvd n
    · obtain ⟨m, hm⟩ := ih (n / 2)
      exact ⟨m, by rw [Nat.pow_succ, Nat.mul_right_comm, ← hm]; omega⟩

/-- The bit at the count is one, unless all `w` bits are zero (R11). -/
theorem trailingZeros_bit {w n : Nat} (h : trailingZeros w n < w) : n / 2 ^ trailingZeros w n % 2 = 1 := by
  induction w generalizing n with
  | zero => omega
  | succ w ih =>
    rw [trailingZeros] at h ⊢
    split
    · simpa
    · rw [if_neg (by assumption)] at h
      have := ih (n := n / 2) (by omega)
      rwa [Nat.div_div_eq_div_mul, ← Nat.pow_succ'] at this

/-- A number with a one among its low `w` bits is not divisible by any power of two above its count (R11). -/
theorem trailingZeros_not_dvd {w n k : Nat} (h : trailingZeros w n < w) (hk : trailingZeros w n < k) : ¬ 2 ^ k ∣ n := by
  intro hd
  have h1 := trailingZeros_bit h
  obtain ⟨m, hm⟩ := Nat.dvd_trans (Nat.pow_dvd_pow 2 (Nat.succ_le_of_lt hk)) hd
  generalize trailingZeros w n = t at h1 hm
  subst hm
  rw [Nat.pow_succ, Nat.mul_assoc, Nat.mul_div_cancel_left _ (Nat.two_pow_pos _)] at h1
  omega

/-- A nonzero number below `2^w` has its count below `w` (R11). -/
theorem trailingZeros_lt {w n : Nat} (h0 : n ≠ 0) (h : n < 2 ^ w) : trailingZeros w n < w := by
  refine Nat.lt_of_le_of_ne (trailingZeros_le w n) fun he => ?_
  have := Nat.le_of_dvd (by omega) (trailingZeros_dvd w n)
  rw [he] at this
  omega

/-! ### Lane masks -/

theorem getLsbD_laneMask_foldl (f : Nat → Bool) (ls : List Nat) (m : LaneMask) (i : Nat) (hi : i < 16) :
    (ls.foldl (fun m l => if f l then m ||| (1#16 <<< l) else m) m).getLsbD i =
      (m.getLsbD i || (decide (i ∈ ls) && f i)) := by
  induction ls generalizing m with
  | nil => simp
  | cons l ls ih =>
    rw [List.foldl_cons, ih]
    by_cases hl : l = i
    · subst hl
      cases hf : f l <;> simp [hi]
    · have hbit : (1#16 <<< l).getLsbD i = false := by
        rw [BitVec.getLsbD_shiftLeft]
        by_cases h : i < l
        · simp [h]
        · have : i - l ≠ 0 := by omega
          simp [this, BitVec.getLsbD_one]
      have hmem : decide (i ∈ l :: ls) = decide (i ∈ ls) := by
        simp [Ne.symm hl]
      rw [hmem]
      split
      · rw [BitVec.getLsbD_or, hbit, Bool.or_false]
      · rfl

/-- Bit l of a lane mask is what the loop tests for lane l (R156, R157). -/
theorem getLsbD_laneMask (f : Nat → Bool) (l : Nat) (hl : l < 16) : (laneMask f).getLsbD l = f l := by
  rw [laneMask, getLsbD_laneMask_foldl _ _ _ _ hl]
  simp [Config.lanes, hl]

/-- A mask is zero when no lane is set. -/
theorem laneMask_eq_zero_iff (m : LaneMask) : m = 0#16 ↔ ∀ l, l < 16 → m.getLsbD l = false := by
  constructor
  · rintro rfl l -; exact BitVec.getLsbD_zero
  · intro h
    exact BitVec.eq_of_getLsbD_eq fun l hl => by rw [h l hl]; exact BitVec.getLsbD_zero.symm

/-- `ctz16` of a nonzero mask is its lowest set lane (R158). -/
theorem ctz16_spec {m : LaneMask} (h : m ≠ 0#16) :
    ctz16 m < 16 ∧ m.getLsbD (ctz16 m) = true ∧ ∀ l, l < ctz16 m → m.getLsbD l = false := by
  have h0 : m.toNat ≠ 0 := fun e => h (BitVec.eq_of_toNat_eq e)
  have hlt := trailingZeros_lt h0 m.isLt
  have hbit := trailingZeros_bit hlt
  refine ⟨hlt, ?_, fun l hl => ?_⟩
  · rw [BitVec.getLsbD, Nat.testBit_eq_decide_div_mod_eq]
    exact decide_eq_true hbit
  · obtain ⟨j, hj⟩ := Nat.dvd_trans (Nat.pow_dvd_pow 2 (Nat.succ_le_of_lt hl)) (trailingZeros_dvd 16 m.toNat)
    rw [BitVec.getLsbD, Nat.testBit_eq_decide_div_mod_eq, hj, Nat.pow_succ, Nat.mul_assoc,
      Nat.mul_div_cancel_left _ (Nat.two_pow_pos _)]
    simp

end Machine
end Sys2Proof
end

