-- ==== Sys2Proof/Laws/Advance.lean ====
section
/-! SUPPORT. Why a partial re-encode suffices (spec/43_nonce_search.md R183, R184), and the shape of a vector input state. -/

namespace Sys2Proof
namespace Machine

variable {pr : Params}

/-- Byte k of a nonce as arithmetic (R8). -/
theorem byteOf_toNat (n : Nonce) (k : Nat) : (byteOf n k).toNat = n.toNat / 2 ^ (8 * k) % 256 := by
  simp only [byteOf, BitVec.toNat_setWidth, BitVec.toNat_ushiftRight, Nat.shiftRight_eq_div_pow]

/-- Advancing by 1 or by 16 changes no byte from `ADVANCE_COUNT` on (R183). -/
theorem byteOf_advance (n : Nonce) (d k : Nat) (hd : 0 < d) (hw : n.toNat + d < 2 ^ 64) (hdvd : d ∣ 2 ^ (8 * k)) (hn : d ∣ n.toNat)
    (h : advanceCount (n + BitVec.ofNat 64 d) ≤ k) (hk : k < 8) : byteOf (n + BitVec.ofNat 64 d) k = byteOf n k := by
  have e : (n + BitVec.ofNat 64 d).toNat = n.toNat + d := by
    rw [BitVec.toNat_add, BitVec.toNat_ofNat, Nat.mod_eq_of_lt (a := d) (by omega), Nat.mod_eq_of_lt hw]
  apply BitVec.eq_of_toNat_eq
  rw [byteOf_toNat, byteOf_toNat, e]
  congr 1
  have hnd : ¬ 2 ^ (8 * k) ∣ n.toNat + d := by
    have hlt := trailingZeros_lt (w := 64) (n := n.toNat + d) (by omega) hw
    refine trailingZeros_not_dvd hlt ?_
    rw [advanceCount, ctz64, e] at h
    omega
  obtain ⟨a, ha⟩ := hdvd
  obtain ⟨b, hb⟩ := hn
  rw [ha, hb, show d * b + d = d * (b + 1) by ring, Nat.mul_div_mul_left _ _ hd, Nat.mul_div_mul_left _ _ hd]
  have : ¬ a ∣ b + 1 := fun ⟨c, hc⟩ => hnd ⟨c, by rw [hb, ha]; rw [show d * b + d = d * (b+1) by ring, hc]; ring⟩
  rw [Nat.succ_div, if_neg this, Nat.add_zero]

/-- Writing the low `c` nonce bytes into an input state whose other bytes are right gives the full input state, in
either byte order (R106, R184). -/
theorem reencode_of_bytes (m : CodecSignMode) (o : NonceByteOrder) (d : List Byte) (n n' : Nonce) (c : Nat) (hc : c ≤ 8)
    (h : ∀ k, c ≤ k → k < 8 → byteOf n' k = byteOf n k) :
    encodeNonce m o (inputState m o d n) n' c = inputState m o d n' := by
  apply List.ext_getElem?
  intro p
  rw [getElem?_encodeNonce _ _ _ _ _ _ hc (by simp), getElem?_inputState, getElem?_inputState]
  by_cases h2 : p < 192
  · rw [if_neg (by omega), if_pos h2, if_pos h2]
  · by_cases h3 : p < 240
    · have hb : byteAtWindow o ((p - 192) / 6) < 8 := by cases o <;> simp only [byteAtWindow] <;> omega
      by_cases h1 : byteAtWindow o ((p - 192) / 6) < c
      · rw [if_pos ⟨by omega, h3, h1⟩, if_neg h2, if_pos h3]
      · rw [if_neg (fun hh => h1 hh.2.2), if_neg h2, if_neg h2, if_pos h3, if_pos h3, h _ (by omega) hb]
    · rw [if_neg (by omega), if_neg h2, if_neg h2, if_neg h3, if_neg h3]

theorem advanceCount_bounds (n : Nonce) : 1 ≤ advanceCount n ∧ advanceCount n ≤ 8 := by
  unfold advanceCount; omega

/-- Two full vector states with equal lanes are equal (R150). -/
theorem vector_ext {V W : VectorState} (hl : V.length = W.length) (hV : ∀ g ∈ V, g.length = 16) (hW : ∀ g ∈ W, g.length = 16)
    (h : ∀ l, l < 16 → laneOf l V = laneOf l W) : V = W := by
  apply List.ext_getElem hl
  intro i h1 h2
  have e1 := hV _ (List.getElem_mem h1)
  have e2 := hW _ (List.getElem_mem h2)
  apply List.ext_getElem (by omega)
  intro l l1 l2
  have := congrArg (·[i]?) (h l (by omega))
  simpa [laneOf, List.getElem?_map, List.getElem?_eq_getElem, h1, h2, l1, l2, List.getD_eq_getElem?_getD] using this

theorem groups_vEncodeNonce (m : CodecSignMode) (o : NonceByteOrder) (V : VectorState) (base : Nonce) (c : Nat) (hV : ∀ g ∈ V, g.length = 16) :
   ∀ g ∈ vEncodeNonce m o V base c, g.length = 16 := by
  refine forall_foldl_windows (P := fun g : Group => g.length = 16) _ _ ?_ _ _ (forall_writeCells (P := fun g : Group => g.length = 16) _ _ _ ?_ hV)
  · intro k x hx
    obtain ⟨b, -, rfl⟩ := List.mem_map.1 hx
    exact List.length_replicate
  · intro x hx
    obtain ⟨b, -, rfl⟩ := List.mem_map.1 hx
    rw [List.length_map, List.length_range]; rfl

theorem groups_vEncodeDigest (m : CodecSignMode) (d : List Byte) (V : VectorState) (hV : ∀ g ∈ V, g.length = 16) :
   ∀ g ∈ vEncodeDigest m d V, g.length = 16 := by
  refine forall_foldl_windows (P := fun g : Group => g.length = 16) _ _ ?_ _ _ hV
  · intro k x hx
    obtain ⟨b, -, rfl⟩ := List.mem_map.1 hx
    exact List.length_replicate

theorem length_vEncodeNonce (m : CodecSignMode) (o : NonceByteOrder) (V : VectorState) (base : Nonce) (c : Nat) :
   (vEncodeNonce m o V base c).length = V.length :=
  (length_foldl_windows _ _ _ _).trans (length_writeCells _ _ _)

theorem length_vEncodeDigest (m : CodecSignMode) (d : List Byte) (V : VectorState) : (vEncodeDigest m d V).length = V.length :=
  length_foldl_windows _ _ _ _

theorem groups_batch (d : List Byte) (n : Nonce) : (batchInput pr d n).length = 729 ∧ ∀ g ∈ batchInput pr d n, g.length = 16 := by
  refine ⟨?_, groups_vEncodeNonce _ _ _ _ _ (groups_vEncodeDigest _ _ _ ?_)⟩
  · rw [batchInput, length_vEncodeNonce, length_vEncodeDigest]; exact List.length_replicate
  · intro g hg; rw [List.eq_of_mem_replicate hg]; exact List.length_replicate

end Machine
end Sys2Proof
end

