-- ==== Sys2Proof/Laws/Kernel.lean ====
section
/-! SUPPORT. What the kernels do to valid trits: one lookup, one round, one transform, scalar and lane by lane. -/

namespace Sys2Proof
namespace Machine

/-! ### One lookup -/

/-- The cell a lookup of two trits writes (R136). -/
def truth (a b : Byte) : Byte := cell (table.getD (a.toInt + 4 * b.toInt + 5).toNat 0)

theorem validCell_cases {c : Byte} (h : validCell c = true) : c = 0xFF#8 ∨ c = 0x00#8 ∨ c = 0x01#8 := by
  simp only [validCell, Bool.or_eq_true, beq_iff_eq] at h
  tauto

/-- Two trits always select a table entry (R137). -/
theorem lookup_valid {a b : Byte} (ha : validCell a = true) (hb : validCell b = true) : lookup a b = .ok (truth a b) := by
  rcases validCell_cases ha with rfl | rfl | rfl <;> rcases validCell_cases hb with rfl | rfl | rfl <;> rfl

/-- The entry two trits select is a trit (R136). -/
theorem validCell_truth {a b : Byte} (ha : validCell a = true) (hb : validCell b = true) :
    validCell (truth a b) = true := by
  rcases validCell_cases ha with rfl | rfl | rfl <;> rcases validCell_cases hb with rfl | rfl | rfl <;> rfl

/-- A lane's index of two trits selects the table entry the scalar lookup selects (R152, R153). -/
theorem laneIndex_valid {a b : Byte} (ha : validCell a = true) (hb : validCell b = true) :
    laneIndexOk (a + 4#8 * b + 5#8) = true ∧ table16.getD (a + 4#8 * b + 5#8).toNat 0 = truth a b := by
  rcases validCell_cases ha with rfl | rfl | rfl <;> rcases validCell_cases hb with rfl | rfl | rfl <;> exact ⟨rfl, rfl⟩

theorem vLookup_valid {a b : Group} (ha : ∀ c ∈ a, validCell c = true) (hb : ∀ c ∈ b, validCell c = true) :
    vLookup (laneIndices a b) = .ok (List.zipWith truth a b) := by
  have key : (laneIndices a b).all laneIndexOk = true ∧
      (laneIndices a b).map (fun j => table16.getD j.toNat 0) = List.zipWith truth a b := by
    induction a generalizing b with
    | nil => exact ⟨rfl, rfl⟩
    | cons x a ih =>
      cases b with
      | nil => exact ⟨rfl, rfl⟩
      | cons y b =>
        obtain ⟨h1, h2⟩ := laneIndex_valid (ha x List.mem_cons_self) (hb y List.mem_cons_self)
        obtain ⟨i1, i2⟩ := ih (fun c h => ha c (List.mem_cons_of_mem _ h)) (fun c h => hb c (List.mem_cons_of_mem _ h))
        rw [laneIndices] at i1 i2 ⊢
        rw [List.zipWith_cons_cons, List.all_cons, List.map_cons, List.zipWith_cons_cons, h1, h2, i1, i2]
        exact ⟨rfl, rfl⟩
  rw [vLookup, if_pos key.1, key.2]

/-! ### The cursor -/

theorem cursorAdvance_lt {idx : Nat} (h : idx < 729) : cursorAdvance idx < 729 := by
  unfold cursorAdvance; split <;> omega

/-- The cursor's mod form (R131). -/
theorem cursorAdvance_mod {idx : Nat} (h : idx < 729) : cursorAdvance idx = (idx + 364) % 729 := by
  unfold cursorAdvance; split <;> omega

theorem cursor_iterate_lt (k : Nat) {idx : Nat} (h : idx < 729) : cursorAdvance^[k] idx < 729 := by
  induction k with
  | zero => exact h
  | succ k ih => rw [Function.iterate_succ_apply']; exact cursorAdvance_lt ih

/-- The k-th cursor value of a round (R132). -/
theorem cursor_iterate (k : Nat) : cursorAdvance^[k] 0 = 364 * k % 729 := by
  induction k with
  | zero => rfl
  | succ k ih =>
    rw [Function.iterate_succ_apply', cursorAdvance_mod (cursor_iterate_lt k (by omega)), ih]
    omega

/-! ### One round -/

theorem validCell_getD {S : TritState} (hS : ∀ c ∈ S, validCell c = true) (i : Nat) : validCell (S.getD i 0) = true := by
  rw [List.getD_eq_getElem?_getD]
  cases h : S[i]? with
  | none => rfl
  | some c => exact hS c (List.mem_of_getElem? h)

/-- The cell one iteration writes, the cursor standing at `idx` (R133). -/
def iterationCell (src : TritState) (idx : Nat) : Byte := truth (src.getD idx 0) (src.getD (cursorAdvance idx) 0)

/-- A run of iterations on valid trits: what it writes and where the cursor ends (R133). -/
theorem roundLoop_valid {src : TritState} (hS : ∀ c ∈ src, validCell c = true) (count idx : Nat) :
    roundLoop src count idx =
      .ok ((List.range count).map fun i => iterationCell src (cursorAdvance^[i] idx), cursorAdvance^[count] idx) := by
  induction count generalizing idx with
  | zero => rfl
  | succ count ih =>
    rw [roundLoop, lookup_valid (validCell_getD hS _) (validCell_getD hS _)]
    simp only [ih, List.range_succ_eq_map, List.map_cons, List.map_map]
    rfl

/-- The cells of one round on valid trits (R133). -/
def roundCells (src : TritState) : TritState :=
  (List.range Config.stateLength).map fun i => iterationCell src (cursorAdvance^[i] 0)

/-- One round of valid trits, the cursor back at 0 (R132, R133, R134). -/
theorem round_valid {src : TritState} (hS : ∀ c ∈ src, validCell c = true) : round src = .ok (roundCells src, 0) := by
  rw [round, roundLoop_valid hS, cursor_iterate]
  rfl

@[simp] theorem length_roundCells (src : TritState) : (roundCells src).length = 729 := by
  rw [roundCells, List.length_map, List.length_range]; rfl

theorem valid_roundCells {src : TritState} (hS : ∀ c ∈ src, validCell c = true) :
    ∀ c ∈ roundCells src, validCell c = true := by
  intro c hc
  obtain ⟨i, -, rfl⟩ := List.mem_map.1 hc
  exact validCell_truth (validCell_getD hS _) (validCell_getD hS _)

theorem getElem?_roundCells (src : TritState) {i : Nat} (hi : i < 729) :
    (roundCells src)[i]? = some (truth (src.getD (364 * i % 729) 0) (src.getD (364 * (i + 1) % 729) 0)) := by
  rw [roundCells, List.getElem?_map, List.getElem?_range (by exact hi), Option.map_some, iterationCell,
    ← Function.iterate_succ_apply' cursorAdvance i 0, cursor_iterate, cursor_iterate]

/-! ### A transform -/

/-- Rounds on valid trits: both buffers of the result are full and valid, and the cursor is 0 (R135). -/
theorem pingPong_valid (r : Nat) (cur oth : TritState) (hc : ∀ c ∈ cur, validCell c = true) :
    ∃ o, pingPong r { current := cur, other := oth, cursor := 0 } = .ok o ∧ o.current = roundCells^[r] cur ∧
      o.cursor = 0 ∧ (∀ c ∈ o.current, validCell c = true) ∧
      (cur.length = 729 → oth.length = 729 → (∀ c ∈ oth, validCell c = true) →
        o.current.length = 729 ∧ o.other.length = 729 ∧ ∀ c ∈ o.other, validCell c = true) := by
  induction r generalizing cur oth with
  | zero => exact ⟨_, rfl, rfl, rfl, hc, fun h1 h2 h3 => ⟨h1, h2, h3⟩⟩
  | succ r ih =>
    obtain ⟨o, e, o1, o2, o3, o4⟩ := ih (roundCells cur) cur (valid_roundCells hc)
    refine ⟨o, ?_, ?_, o2, o3, fun h1 _ _ => o4 (length_roundCells _) h1 hc⟩
    · rw [pingPong, round_valid hc]; exact e
    · rw [o1, Function.iterate_succ_apply]

theorem valid_iterate_roundCells {src : TritState} (hv : ∀ c ∈ src, validCell c = true) (r : Nat) :
    ∀ c ∈ roundCells^[r] src, validCell c = true := by
  induction r with
  | zero => exact hv
  | succ r ih => rw [Function.iterate_succ_apply']; exact valid_roundCells ih

/-- One more round of what `r` rounds of valid trits give (R133). -/
theorem round_iterate {src : TritState} (hv : ∀ c ∈ src, validCell c = true) (r : Nat) :
    round (roundCells^[r] src) = .ok (roundCells^[r + 1] src, 0) := by
  rw [Function.iterate_succ_apply']
  exact round_valid (valid_iterate_roundCells hv r)

/-- 81 rounds of an input, as a plain function (R135). -/
def transformCells (inp : TritState) : TritState := roundCells^[81] inp

theorem transform_eq_pingPong {inp : TritState} (hv : ∀ c ∈ inp, validCell c = true) (b : TritState) :
    transform inp b = pingPong 80 { current := roundCells inp, other := b, cursor := 0 } := by
  rw [transform, round_valid hv]; rfl

/-- A transform of valid trits: it never faults, and its output depends on the input alone (R135, R137, R138). -/
theorem transform_valid {inp : TritState} (hv : ∀ c ∈ inp, validCell c = true) (b : TritState) :
    ∃ o, transform inp b = .ok o ∧ o.current = transformCells inp ∧ o.cursor = 0 ∧
      (∀ c ∈ o.current, validCell c = true) ∧ o.current.length = 729 := by
  obtain ⟨o, e, o1, o2, o3, -⟩ := pingPong_valid 80 (roundCells inp) b (valid_roundCells hv)
  have hcur : o.current = transformCells inp := by
    rw [o1, transformCells, ← Function.iterate_succ_apply]
  refine ⟨o, (transform_eq_pingPong hv b).trans e, hcur, o2, o3, ?_⟩
  rw [hcur, transformCells, Function.iterate_succ_apply', length_roundCells]

/-- The scratch buffers after a transform are full and valid (R21, R23). -/
theorem transform_sound {inp b : TritState} (hv : ∀ c ∈ inp, validCell c = true) (hb : ∀ c ∈ b, validCell c = true)
    (hl : b.length = 729) {o : KernelOut TritState} (h : transform inp b = .ok o) :
    (∀ c ∈ o.current, validCell c = true) ∧ o.current.length = 729 ∧
      (∀ c ∈ o.other, validCell c = true) ∧ o.other.length = 729 := by
  obtain ⟨o', e, -, -, o3, o4⟩ := pingPong_valid 80 (roundCells inp) b (valid_roundCells hv)
  rw [transform_eq_pingPong hv, e, Except.ok.injEq] at h
  subst h
  obtain ⟨a1, a2, a3⟩ := o4 (length_roundCells _) hl hb
  exact ⟨o3, a1, a3, a2⟩

/-! ### Lane by lane -/

/-- A vector state whose groups hold 16 trits. -/
def LanesValid (V : VectorState) : Prop := ∀ g ∈ V, g.length = 16 ∧ ∀ c ∈ g, validCell c = true

theorem getD_laneOf (l idx : Nat) (V : VectorState) : (laneOf l V).getD idx 0 = (V.getD idx []).getD l 0 := by
  simp only [laneOf, List.getD_eq_getElem?_getD, List.getElem?_map]
  cases V[idx]? <;> rfl

theorem valid_getD_group {V : VectorState} (hV : LanesValid V) (idx : Nat) : ∀ c ∈ V.getD idx [], validCell c = true := by
  rw [List.getD_eq_getElem?_getD]
  cases h : V[idx]? with
  | none => simp
  | some g => exact (hV g (List.mem_of_getElem? h)).2

theorem length_getD_group {V : VectorState} (hV : LanesValid V) {idx : Nat} (h : idx < V.length) :
    (V.getD idx []).length = 16 := by
  rw [List.getD_eq_getElem?_getD, List.getElem?_eq_getElem h]
  exact (hV _ (List.getElem_mem h)).1

theorem valid_laneOf {V : VectorState} (hV : LanesValid V) (l : Nat) : ∀ c ∈ laneOf l V, validCell c = true := by
  intro c hc
  obtain ⟨g, hg, rfl⟩ := List.mem_map.1 hc
  exact validCell_getD (hV g hg).2 l

/-- The group one vector iteration writes (R153). -/
def iterationGroup (src : VectorState) (idx : Nat) : Group :=
  List.zipWith truth (src.getD idx []) (src.getD (cursorAdvance idx) [])

theorem vRoundLoop_valid {src : VectorState} (hV : LanesValid src) (count idx : Nat) :
    vRoundLoop src count idx =
      .ok ((List.range count).map fun i => iterationGroup src (cursorAdvance^[i] idx), cursorAdvance^[count] idx) := by
  induction count generalizing idx with
  | zero => rfl
  | succ count ih =>
    rw [vRoundLoop, vLookup_valid (valid_getD_group hV _) (valid_getD_group hV _)]
    simp only [ih, List.range_succ_eq_map, List.map_cons, List.map_map]
    rfl

/-- The groups of one vector round on valid trits (R153). -/
def vRoundCells (src : VectorState) : VectorState :=
  (List.range Config.stateLength).map fun i => iterationGroup src (cursorAdvance^[i] 0)

theorem vRound_valid {src : VectorState} (hV : LanesValid src) : vRound src = .ok (vRoundCells src, 0) := by
  rw [vRound, vRoundLoop_valid hV, cursor_iterate]
  rfl

@[simp] theorem length_vRoundCells (src : VectorState) : (vRoundCells src).length = 729 := by
  rw [vRoundCells, List.length_map, List.length_range]; rfl

theorem mem_zipWith_truth {a b : Group} (ha : ∀ c ∈ a, validCell c = true) (hb : ∀ c ∈ b, validCell c = true) :
    ∀ c ∈ List.zipWith truth a b, validCell c = true := by
  intro c hc
  obtain ⟨i, hi, rfl⟩ := List.getElem_of_mem hc
  rw [List.getElem_zipWith]
  exact validCell_truth (ha _ (List.getElem_mem _)) (hb _ (List.getElem_mem _))

theorem lanesValid_vRoundCells {src : VectorState} (hV : LanesValid src) (hl : src.length = 729) :
    LanesValid (vRoundCells src) := by
  intro g hg
  obtain ⟨i, hi, rfl⟩ := List.mem_map.1 hg
  have h1 := cursor_iterate_lt i (idx := 0) (by omega)
  refine ⟨?_, mem_zipWith_truth (valid_getD_group hV _) (valid_getD_group hV _)⟩
  rw [iterationGroup, List.length_zipWith, length_getD_group hV (by omega),
    length_getD_group hV (by have := cursorAdvance_lt h1; omega)]
  rfl

/-- Lane l of a vector round is the scalar round of lane l (R153, R155). -/
theorem laneOf_vRoundCells {src : VectorState} (hV : LanesValid src) (hl : src.length = 729) {l : Nat} (h : l < 16) :
    laneOf l (vRoundCells src) = roundCells (laneOf l src) := by
  rw [laneOf, vRoundCells, roundCells, List.map_map]
  refine List.map_congr_left fun i _ => ?_
  have h1 := cursor_iterate_lt i (idx := 0) (by omega)
  have h2 := cursorAdvance_lt h1
  have l1 := length_getD_group hV (idx := cursorAdvance^[i] 0) (by omega)
  have l2 := length_getD_group hV (idx := cursorAdvance (cursorAdvance^[i] 0)) (by omega)
  rw [Function.comp_apply, iterationGroup, iterationCell, getD_laneOf, getD_laneOf,
    List.getD_eq_getElem?_getD, List.getD_eq_getElem?_getD (l := List.getD src _ []),
    List.getD_eq_getElem?_getD (l := List.getD src (cursorAdvance _) []),
    List.getElem?_eq_getElem (by rw [List.length_zipWith, l1, l2]; omega), List.getElem_zipWith,
    List.getElem?_eq_getElem (by omega), List.getElem?_eq_getElem (by omega)]
  rfl

theorem vPingPong_valid (r : Nat) (cur oth : VectorState) (hc : LanesValid cur) (hl : cur.length = 729) :
    ∃ o, vPingPong r { current := cur, other := oth, cursor := 0 } = .ok o ∧ o.current = vRoundCells^[r] cur ∧
      o.cursor = 0 ∧ LanesValid o.current ∧ o.current.length = 729 ∧
      (oth.length = 729 → LanesValid oth → o.other.length = 729 ∧ LanesValid o.other) := by
  induction r generalizing cur oth with
  | zero => exact ⟨_, rfl, rfl, rfl, hc, hl, fun h2 h3 => ⟨h2, h3⟩⟩
  | succ r ih =>
    obtain ⟨o, e, o1, o2, o3, o4, o5⟩ := ih (vRoundCells cur) cur (lanesValid_vRoundCells hc hl) (length_vRoundCells _)
    refine ⟨o, ?_, ?_, o2, o3, o4, fun _ _ => o5 hl hc⟩
    · rw [vPingPong, vRound_valid hc]; exact e
    · rw [o1, Function.iterate_succ_apply]

/-- A vector transform of valid trits: it never faults, and its output depends on the input alone (R154). -/
theorem vTransform_valid {vin : VectorState} (hV : LanesValid vin) (hl : vin.length = 729) (b : VectorState) :
    ∃ o, vTransform vin b = .ok o ∧ o.current = vRoundCells^[81] vin ∧ o.cursor = 0 ∧ LanesValid o.current ∧
      o.current.length = 729 ∧ (b.length = 729 → LanesValid b → o.other.length = 729 ∧ LanesValid o.other) := by
  obtain ⟨o, e, o1, o2, o3, o4, o5⟩ :=
    vPingPong_valid 80 (vRoundCells vin) b (lanesValid_vRoundCells hV hl) (length_vRoundCells _)
  refine ⟨o, ?_, ?_, o2, o3, o4, o5⟩
  · rw [vTransform, vRound_valid hV]; exact e
  · rw [o1, ← Function.iterate_succ_apply]

end Machine
end Sys2Proof
end

