-- ==== Sys2Proof/Laws/Inputs.lean ====
section
/-! SUPPORT. Every input state is full and holds trits; the difficulty test and lane selection, lane by lane. -/

namespace Sys2Proof
namespace Machine

variable {pr : Params}

/-! ### Full states of trits -/

theorem tritStateSound_iff (S : TritState) : tritStateSound S = true ↔ S.length = 729 ∧ ∀ c ∈ S, validCell c =
    true := by
  simp [tritStateSound, tritStateWf, validTrits, Config.stateLength]

theorem vectorStateSound_iff (V : VectorState) : vectorStateSound V = true ↔ V.length = 729 ∧ LanesValid V := by
  simp [vectorStateSound, vectorStateWf, validVector, validTrits, Config.stateLength, LanesValid, Config.lanes]
  constructor
  · rintro ⟨⟨h0, h1⟩, h2⟩; exact ⟨h0, fun g hg => ⟨h1 g hg, h2 g hg⟩⟩
  · rintro ⟨h0, h⟩; exact ⟨⟨h0, fun g hg => (h g hg).1⟩, fun g hg => (h g hg).2⟩

theorem valid_zeroState : ∀ c ∈ zeroState, validCell c = true := by
  intro c h; rw [List.eq_of_mem_replicate h]; rfl

theorem lanesValid_zeroVector : LanesValid zeroVector := by
  intro g hg
  rw [List.eq_of_mem_replicate hg]
  refine ⟨List.length_replicate, fun c hc => ?_⟩
  rw [List.eq_of_mem_replicate hc]; rfl

/-- The signed value of a cell (R20). -/
theorem toInt_cell {x : Int} (h : x = -1 ∨ x = 0 ∨ x = 1) : (cell x).toInt = x := by
  rcases h with rfl | rfl | rfl <;> decide

/-- Every cell of a candidate is a trit (R21, R107). -/
theorem valid_candidate (d : List Byte) (n : Nonce) : ∀ c ∈ candidate pr d n, validCell c = true := by
  refine forall_foldl_windows (P := fun c : Byte => validCell c = true) _ _ (fun k => validTrits_byteWindow _ _) _ _
      (forall_foldl_windows (P := fun c : Byte => validCell c = true) _ _ (fun k => validTrits_byteWindow _ _) _ _
      valid_zeroState)

theorem length_candidate (d : List Byte) (n : Nonce) : (candidate pr d n).length = 729 := length_inputState _ _ _ _

theorem valid_encodeNonce (m : CodecSignMode) (o : NonceByteOrder) (S : TritState) (n : Nonce) (c : Nat)
    (hS : ∀ x ∈ S, validCell x = true) :
    ∀ x ∈ encodeNonce m o S n c, validCell x = true :=
  forall_foldl_windows (P := fun c : Byte => validCell c = true) _ _ (fun k => validTrits_byteWindow _ _) _ _ hS

theorem lanesValid_vEncodeNonce (m : CodecSignMode) (o : NonceByteOrder) (V : VectorState) (base : Nonce) (c : Nat)
    (hV : LanesValid V) :
    LanesValid (vEncodeNonce m o V base c) := by
  have hb : ∀ (b : Byte), ∀ g ∈ (byteWindow m b).map (List.replicate Config.lanes), g.length = 16 ∧ ∀ c ∈ g,
      validCell c = true := by
    intro b g hg
    obtain ⟨x, hx, rfl⟩ := List.mem_map.1 hg
    refine ⟨List.length_replicate, fun c hc => ?_⟩
    rw [List.eq_of_mem_replicate hc]; exact validTrits_byteWindow _ _ x hx
  refine forall_foldl_windows (P := fun g : Group => g.length = 16 ∧ ∀ c ∈ g, validCell c = true) _ _ (fun k => hb _)
      _ _ (forall_writeCells (P := fun g : Group => g.length = 16 ∧ ∀ c ∈ g, validCell c = true) _ _ _ ?_ hV)
  intro g hg
  obtain ⟨k, -, rfl⟩ := List.mem_map.1 hg
  refine ⟨by rw [List.length_map, List.length_range]; rfl, fun c hc => ?_⟩
  obtain ⟨l, -, rfl⟩ := List.mem_map.1 hc
  exact validCell_getD (validTrits_byteWindow _ _) _

/-- Every lane of a batch holds trits (R21, R112). -/
theorem lanesValid_batchInput (d : List Byte) (n : Nonce) : LanesValid (batchInput pr d n) := by
  intro g hg
  refine ⟨(groups_batch d n).2 g hg, ?_⟩
  revert g
  have hb : ∀ (b : Byte), ∀ g ∈ (byteWindow pr.signMode b).map (List.replicate Config.lanes), ∀ c ∈ g,
      validCell c = true := by
    intro b g hg c hc
    obtain ⟨x, hx, rfl⟩ := List.mem_map.1 hg
    rw [List.eq_of_mem_replicate hc]; exact validTrits_byteWindow _ _ x hx
  refine forall_foldl_windows (P := fun g : Group => ∀ c ∈ g, validCell c = true) _ _ (fun k => hb _) _ _
      (forall_writeCells (P := fun g : Group => ∀ c ∈ g, validCell c = true) _ _ _ ?_
      (forall_foldl_windows (P := fun g : Group => ∀ c ∈ g, validCell c = true) _ _ (fun k => hb _) _ _ ?_))
  · intro g hg c hc
    obtain ⟨k, -, rfl⟩ := List.mem_map.1 hg
    obtain ⟨l, -, rfl⟩ := List.mem_map.1 hc
    exact validCell_getD (validTrits_byteWindow _ _) _
  · intro g hg c hc
    rw [List.eq_of_mem_replicate hg] at hc
    rw [List.eq_of_mem_replicate hc]; rfl

/-! ### The difficulty test -/

/-- A lookup of two trits is the truth function of R136. -/
theorem truth_toInt {a b : Byte} (ha : validCell a = true) (hb : validCell b = true) : (truth a b).toInt =
          if b.toInt = -1 then (if a.toInt = -1 then 1 else if a.toInt = 0 then 0 else -1)
          else if b.toInt = 0 then (if a.toInt = -1 then 1 else if a.toInt = 0 then -1 else 0)
          else (if a.toInt = -1 then -1 else if a.toInt = 0 then 1 else 0) := by
  rcases validCell_cases ha with rfl | rfl | rfl <;> rcases validCell_cases hb with rfl | rfl | rfl <;> decide

theorem passes_of_valid {d : List Byte} {n : Nonce} (h : ∀ c ∈ candidate pr d n, validCell c = true) (tz : Nat) :
    passes pr d tz n = hit (transformCells (candidate pr d n)) tz := by
  obtain ⟨o, e, e1, -⟩ := transform_valid h zeroState
  unfold passes
  rw [e, ← e1]

/-- A host's check of a nonce, as a plain function of its candidate (R142). -/
theorem passes_eq (d : List Byte) (n : Nonce) (tz : Nat) : passes pr d tz n = hit (transformCells (candidate pr d n)) tz :=
    passes_of_valid (valid_candidate d n) tz

/-- HIT is the test of the positions `243 − tz .. 242` (R139). -/
theorem hit_iff (H : TritState) {tz : Nat} (h : tz ≤ 243) :
    hit H tz = true ↔ ∀ p, 243 - tz ≤ p → p < 243 → H.getD p 0 = 0x00#8 := by
  rw [hit, List.all_eq_true]
  unfold Config.hashLength
  constructor
  · intro hh p h1 h2
    have := hh (p - (243 - tz)) (List.mem_range.2 (by omega))
    rwa [show 243 - tz + (p - (243 - tz)) = p by omega, beq_iff_eq] at this
  · intro hh k hk
    rw [List.mem_range] at hk
    rw [beq_iff_eq]
    exact hh _ (by omega) (by omega)

theorem getD_groupOr (a b : Group) (ha : a.length = 16) (hb : b.length = 16) (l : Nat) (hl : l < 16) :
    (groupOr a b).getD l 0 = a.getD l 0 ||| b.getD l 0 := by
  rw [groupOr, List.getD_eq_getElem?_getD, List.getD_eq_getElem?_getD, List.getD_eq_getElem?_getD,
      List.getElem?_eq_getElem (by rw [List.length_zipWith]; omega), List.getElem_zipWith, List.getElem?_eq_getElem
      (by omega), List.getElem?_eq_getElem (by omega)]
  rfl

/-- The OR of the tested groups is zero in a lane exactly when every tested trit of the lane is zero (R156). -/
theorem getD_zAccumulator_foldl {V : VectorState} (hl : V.length = 729) (hV : LanesValid V) (tz l : Nat)
    (htz : tz ≤ 243)
    (h : l < 16) (ks : List Nat) (hk : ∀ k ∈ ks, k < tz) (acc : Group) (ha : acc.length = 16) :
   ((ks.foldl (fun acc k => groupOr acc (V.getD (Config.hashLength - tz + k) [])) acc).getD l 0 == 0x00#8) =
     ((acc.getD l 0 == 0x00#8) && ks.all fun k => (laneOf l V).getD (Config.hashLength - tz + k) 0 == 0x00#8) := by
  induction ks generalizing acc with
  | nil => simp
  | cons k ks ih =>
    have hk1 := hk k List.mem_cons_self
    have hg : (V.getD (Config.hashLength - tz + k) []).length = 16 :=
      length_getD_group hV (by rw [hl]; unfold Config.hashLength; omega)
    have ho : (groupOr acc (V.getD (Config.hashLength - tz + k) [])).length = 16 := by
      rw [groupOr, List.length_zipWith, ha, hg]; rfl
    rw [List.foldl_cons, ih (fun j hj => hk j (List.mem_cons_of_mem _ hj)) _ ho, getD_groupOr _ _ ha hg l h]
    rw [List.all_cons, getD_laneOf]
    rw [Bool.eq_iff_iff]
    simp only [Bool.and_eq_true, beq_iff_eq, BitVec.or_eq_zero_iff]
    tauto

/-! ### Selection -/

/-- A lane of the range mask (R157). -/
theorem getLsbD_vRmask (base start stop : Nonce) (l : Nat) (hl : l < 16) :
   (vRmask base start stop).getLsbD l = true ↔ start.toNat ≤ base.toNat + l ∧ base.toNat + l ≤ stop.toNat := by
  rw [vRmask, getLsbD_laneMask _ _ hl]; simp

/-- Selection takes the lowest lane in both masks, and none when there is none (R158). -/
theorem vSelect_spec (base : Nonce) (hb : base.toNat % 16 = 0) (zm rm : LaneMask) :
    (∀ w, vSelect base zm rm = some w → ∃ l, l < 16 ∧ w.toNat = base.toNat + l ∧ zm.getLsbD l = true ∧ rm.getLsbD l =
        true ∧ ∀ l', l' < l → ¬ (zm.getLsbD l' = true ∧ rm.getLsbD l' = true)) ∧
    (vSelect base zm rm = none ↔ ∀ l, l < 16 → ¬ (zm.getLsbD l = true ∧ rm.getLsbD l = true)) := by
  rw [vSelect]
  split
  · rename_i h0
    refine ⟨by simp, ⟨fun _ l hl hh => ?_, fun _ => rfl⟩⟩
    have := (laneMask_eq_zero_iff _).1 h0 l hl
    rw [BitVec.getLsbD_and, hh.1, hh.2] at this
    cases this
  · rename_i h0
    obtain ⟨c1, c2, c3⟩ := ctz16_spec h0
    rw [BitVec.getLsbD_and, Bool.and_eq_true] at c2
    refine ⟨fun w hw => ⟨_, c1, ?_, c2.1, c2.2, fun l' hl' hh => ?_⟩, ⟨by simp, fun h => absurd c2 (h _ c1)⟩⟩
    · cases hw
      have := base.isLt
      rw [BitVec.toNat_add, BitVec.toNat_ofNat]; omega
    · have := c3 l' hl'
      rw [BitVec.getLsbD_and, hh.1, hh.2] at this
      cases this

end Machine
end Sys2Proof
end

