-- ==== Sys2Proof/Laws/BitKernel.lean ====
section
/-! SUPPORT. A second, fast form of the scalar transform: a state as two bit masks, the round as a rotation. It is proved
equal to the model's transform, so that tests can check the spec's hash vectors (spec/95_test_vectors.md) by evaluation. -/

namespace Sys2Proof
namespace Machine

variable {pr : Params}
namespace BitKernel

/-- The mask of 729 ones. -/
def full : Nat := 2 ^ 729 - 1

/-- A 729-bit mask rotated down by `k`. -/
def rotate (x k : Nat) : Nat := (x >>> k ||| x <<< (729 - k)) % 2 ^ 729

/-- The cells that hold 1 after a round: the truth function of R136 on masks. -/
def plusRound (p m k : Nat) : Nat := (m &&& (full ^^^ rotate p k)) ||| (rotate p k &&& (full ^^^ (p ||| m)))

/-- The cells that hold −1 after a round (R136). -/
def minusRound (p m k : Nat) : Nat :=
  (p &&& rotate m k) ||| ((full ^^^ (p ||| m)) &&& (full ^^^ (rotate p k ||| rotate m k))) ||| (m &&& rotate p k)

/-- Rounds on masks: position `j` of a mask stands for position `u·j` of the state, and `u` changes from round to round
so that the second operand of every cell stands `k` places further on. -/
def rounds : Nat → Nat → Nat → Nat → Nat × Nat
  | 0, _, p, m => (p, m)
  | r + 1, k, p, m => rounds r (k * 364 % 729) (plusRound p m k) (minusRound p m k)

/-- The cell that two bits stand for. -/
def bitCell (p m : Bool) : Byte := if p then 0x01#8 else if m then 0xFF#8 else 0x00#8

/-- The masks `p`, `m` hold the state `S`, position `j` standing for `u·j`. -/
def Holds (u p m : Nat) (S : TritState) : Prop :=
  p < 2 ^ 729 ∧ m < 2 ^ 729 ∧ ∀ j, j < 729 →
    (p.testBit j && m.testBit j) = false ∧ S.getD (u * j % 729) 0 = bitCell (p.testBit j) (m.testBit j)

theorem testBit_full (j : Nat) (hj : j < 729) : full.testBit j = true := by
  rw [full, Nat.testBit_two_pow_sub_one]
  simpa using hj

theorem full_xor_lt {x : Nat} (h : x < 2 ^ 729) : full ^^^ x < 2 ^ 729 :=
  Nat.xor_lt_two_pow (Nat.sub_lt (Nat.two_pow_pos _) Nat.one_pos) h

theorem testBit_rotate {x k j : Nat} (hx : x < 2 ^ 729) (hk : k < 729) (hj : j < 729) :
    (rotate x k).testBit j = x.testBit ((j + k) % 729) := by
  rw [rotate, Nat.testBit_mod_two_pow, Nat.testBit_or, Nat.testBit_shiftRight, Nat.testBit_shiftLeft]
  by_cases h : j + k < 729
  · rw [Nat.mod_eq_of_lt h]
    have h1 : ¬ (729 - k ≤ j) := by omega
    simp [hj, h1, Nat.add_comm]
  · have h1 : 729 - k ≤ j := by omega
    have h2 : x.testBit (k + j) = false :=
      Nat.testBit_lt_two_pow (lt_of_lt_of_le hx (Nat.pow_le_pow_right (by omega) (by omega)))
    have h3 : (j + k) % 729 = j - (729 - k) := by omega
    simp [hj, h1, h2, h3]

theorem rotate_lt (x k : Nat) : rotate x k < 2 ^ 729 := Nat.mod_lt _ (Nat.two_pow_pos _)

/-- The truth function of R136, bit by bit. -/
theorem truth_bits (ap am bp bm : Bool) (ha : (ap && am) = false) (hb : (bp && bm) = false) :
    truth (bitCell ap am) (bitCell bp bm) =
      bitCell (am && (true ^^ bp) || bp && (true ^^ (ap || am)))
        (ap && bm || (true ^^ (ap || am)) && (true ^^ (bp || bm)) || am && bp) ∧
    ((am && (true ^^ bp) || bp && (true ^^ (ap || am))) &&
      (ap && bm || (true ^^ (ap || am)) && (true ^^ (bp || bm)) || am && bp)) = false := by
  revert ap am bp bm
  decide

theorem holds_round {u k p m : Nat} {S : TritState} (hk : k < 729) (huk : u * k % 729 = 364) (h : Holds u p m S) :
    Holds (u * 727 % 729) (plusRound p m k) (minusRound p m k) (roundCells S) := by
  obtain ⟨hp, hm, hc⟩ := h
  have hpm : p ||| m < 2 ^ 729 := Nat.or_lt_two_pow hp hm
  refine ⟨Nat.or_lt_two_pow (Nat.and_lt_two_pow _ (full_xor_lt (rotate_lt _ _)))
      (Nat.and_lt_two_pow _ (full_xor_lt hpm)),
    Nat.or_lt_two_pow (Nat.or_lt_two_pow (Nat.and_lt_two_pow _ (rotate_lt _ _))
      (Nat.and_lt_two_pow _ (full_xor_lt (Nat.or_lt_two_pow (rotate_lt _ _) (rotate_lt _ _)))))
      (Nat.and_lt_two_pow _ (rotate_lt _ _)), fun j hj => ?_⟩
  obtain ⟨a1, a2⟩ := hc j hj
  obtain ⟨b1, b2⟩ := hc ((j + k) % 729) (Nat.mod_lt _ (by omega))
  have e1 : 364 * (u * 727 % 729 * j % 729) % 729 = u * j % 729 := by
    have : 364 * (u * 727 % 729 * j % 729) ≡ u * j [MOD 729] := by
      calc 364 * (u * 727 % 729 * j % 729) ≡ 364 * (u * 727 * j) [MOD 729] :=
            Nat.ModEq.mul_left _ ((Nat.mod_modEq _ _).trans (Nat.ModEq.mul_right _ (Nat.mod_modEq _ _)))
        _ = 264628 * (u * j) := by ring
        _ ≡ 1 * (u * j) [MOD 729] := Nat.ModEq.mul_right _ (by decide)
        _ = u * j := Nat.one_mul _
    exact this
  have e2 : 364 * (u * 727 % 729 * j % 729 + 1) % 729 = u * ((j + k) % 729) % 729 := by
    have h1 : u * k ≡ 364 [MOD 729] := huk
    have : 364 * (u * 727 % 729 * j % 729 + 1) ≡ u * ((j + k) % 729) [MOD 729] := by
      calc 364 * (u * 727 % 729 * j % 729 + 1) = 364 * (u * 727 % 729 * j % 729) + 364 := by ring
        _ ≡ u * j + u * k [MOD 729] := Nat.ModEq.add e1 h1.symm
        _ = u * (j + k) := by ring
        _ ≡ u * ((j + k) % 729) [MOD 729] := Nat.ModEq.mul_left _ (Nat.mod_modEq _ _).symm
    exact this
  have hr : (roundCells S).getD (u * 727 % 729 * j % 729) 0 =
      truth (bitCell (p.testBit j) (m.testBit j))
        (bitCell (p.testBit ((j + k) % 729)) (m.testBit ((j + k) % 729))) := by
    rw [List.getD_eq_getElem?_getD, getElem?_roundCells S (Nat.mod_lt _ (by omega)), Option.getD_some, e1, e2, a2, b2]
  obtain ⟨t1, t2⟩ := truth_bits _ _ _ _ a1 b1
  rw [hr, t1]
  simp only [plusRound, minusRound, Nat.testBit_or, Nat.testBit_and, Nat.testBit_xor, testBit_full j hj,
    testBit_rotate hp hk hj, testBit_rotate hm hk hj]
  exact ⟨t2, trivial⟩

theorem holds_rounds (r : Nat) : ∀ {u k p m : Nat} {S : TritState}, k < 729 → u * k % 729 = 364 → Holds u p m S →
    ∃ w, w * (364 ^ r * k % 729) % 729 = 364 ∧
      Holds w (rounds r k p m).1 (rounds r k p m).2 (roundCells^[r] S) := by
  induction r with
  | zero => intro u k p m S hk huk h; exact ⟨u, by rwa [Nat.pow_zero, Nat.one_mul, Nat.mod_eq_of_lt hk], h⟩
  | succ r ih =>
    intro u k p m S hk huk h
    have huk' : u * 727 % 729 * (k * 364 % 729) % 729 = 364 := by
      have h1 : u * k ≡ 364 [MOD 729] := huk
      have : u * 727 % 729 * (k * 364 % 729) ≡ 364 [MOD 729] := by
        calc u * 727 % 729 * (k * 364 % 729) ≡ u * 727 * (k * 364) [MOD 729] :=
              Nat.ModEq.mul (Nat.mod_modEq _ _) (Nat.mod_modEq _ _)
          _ = 264628 * (u * k) := by ring
          _ ≡ 1 * 364 [MOD 729] := Nat.ModEq.mul (by decide) h1
      exact this
    obtain ⟨w, h1, h2⟩ := ih (Nat.mod_lt _ (by omega)) huk' (holds_round hk huk h)
    refine ⟨w, ?_, by rw [Function.iterate_succ_apply]; exact h2⟩
    have h3 : 364 ^ r * (k * 364 % 729) % 729 = 364 ^ (r + 1) * k % 729 := by
      have : 364 ^ r * (k * 364 % 729) ≡ 364 ^ (r + 1) * k [MOD 729] := by
        calc 364 ^ r * (k * 364 % 729) ≡ 364 ^ r * (k * 364) [MOD 729] := Nat.ModEq.mul_left _ (Nat.mod_modEq _ _)
          _ = 364 ^ (r + 1) * k := by ring
      exact this
    rwa [← h3]

/-- The mask of the cells of a state that hold `c`, position by position. -/
def mask (c : Byte) : TritState → Nat
  | [] => 0
  | x :: xs => (if x = c then 1 else 0) + 2 * mask c xs

theorem testBit_mask (c : Byte) (hc : c ≠ 0) (S : TritState) : ∀ j, (mask c S).testBit j = decide (S.getD j 0 = c) := by
  induction S with
  | nil =>
    intro j
    rw [mask, Nat.zero_testBit, List.getD_nil]
    exact (decide_eq_false (Ne.symm hc)).symm
  | cons x xs ih =>
    intro j
    cases j with
    | zero =>
      rw [mask, Nat.testBit_zero, List.getD_cons_zero]
      by_cases h : x = c
      · rw [if_pos h, Nat.add_mul_mod_self_left]; simp [h]
      · rw [if_neg h, Nat.zero_add, Nat.mul_mod_right]; simp [h]
    | succ j =>
      rw [List.getD_cons_succ, ← ih, mask, Nat.testBit_succ]
      congr 1
      split <;> omega

theorem mask_lt (c : Byte) (S : TritState) : mask c S < 2 ^ S.length := by
  induction S with
  | nil => exact Nat.one_pos
  | cons x xs ih =>
    rw [mask, List.length_cons, Nat.pow_succ]
    split <;> omega

/-- The masks of a full state of trits hold it as it stands. -/
theorem holds_mask {S : TritState} (hl : S.length = 729) (hS : ∀ c ∈ S, validCell c = true) :
    Holds 1 (mask 0x01#8 S) (mask 0xFF#8 S) S := by
  refine ⟨hl ▸ mask_lt _ S, hl ▸ mask_lt _ S, fun j hj => ?_⟩
  rw [testBit_mask _ (by decide), testBit_mask _ (by decide), Nat.one_mul, Nat.mod_eq_of_lt hj]
  rcases validCell_cases (validCell_getD hS j) with h | h | h <;> rw [h] <;> decide

/-- The masks after 81 rounds. -/
def transformMasks (S : TritState) : Nat × Nat := rounds 81 364 (mask 0x01#8 S) (mask 0xFF#8 S)

/-- Where position `t` of the output stands in the masks: `364^81 · t`. -/
def outputBit (t : Nat) : Nat := 244 * t % 729

/-- The masks after 81 rounds hold the transform's output. -/
theorem transformMasks_spec {S : TritState} (hl : S.length = 729) (hS : ∀ c ∈ S, validCell c = true) {t : Nat}
    (ht : t < 729) : (transformCells S).getD t 0 =
      bitCell ((transformMasks S).1.testBit (outputBit t)) ((transformMasks S).2.testBit (outputBit t)) := by
  obtain ⟨w, h1, -, -, h2⟩ := holds_rounds 81 (u := 1) (k := 364) (by decide) (by decide) (holds_mask hl hS)
  obtain ⟨-, h3⟩ := h2 (outputBit t) (Nat.mod_lt _ (by omega))
  have e : w * outputBit t % 729 = t := by
    have h4 : w * (364 ^ 81 * 364 % 729) ≡ 364 [MOD 729] := h1
    have : w * outputBit t ≡ t [MOD 729] := by
      calc w * outputBit t ≡ w * (244 * t) [MOD 729] := Nat.ModEq.mul_left _ (Nat.mod_modEq _ _)
        _ ≡ w * (364 ^ 81 * 364 % 729 * 727 * t) [MOD 729] :=
            Nat.ModEq.mul_left _ (Nat.ModEq.mul_right _ (by decide))
        _ = w * (364 ^ 81 * 364 % 729) * (727 * t) := by ring
        _ ≡ 364 * (727 * t) [MOD 729] := Nat.ModEq.mul_right _ h4
        _ = 264628 * t := by ring
        _ ≡ 1 * t [MOD 729] := Nat.ModEq.mul_right _ (by decide)
        _ = t := Nat.one_mul _
    exact Nat.mod_eq_of_modEq this ht
  rw [e] at h3
  exact h3

/-- The difficulty test on the masks (R139). -/
def hits (pm : Nat × Nat) (tz : Nat) : Bool :=
  (List.range tz).all fun k =>
    !(pm.1.testBit (outputBit (243 - tz + k))) && !(pm.2.testBit (outputBit (243 - tz + k)))

theorem bitCell_eq_zero (p m : Bool) : (bitCell p m == 0x00#8) = (!p && !m) := by revert p m; decide

/-! ### The input state of a nonce, as its windows in a row -/

/-- `c` windows in a row. -/
theorem getElem?_flatMap_windows (W : Nat → List Byte) (hW : ∀ k, (W k).length = 6) (c : Nat) :
    ((List.range c).flatMap W).length = 6 * c ∧
      ∀ p, ((List.range c).flatMap W)[p]? = if p < 6 * c then (W (p / 6))[p % 6]? else none := by
  induction c with
  | zero => exact ⟨rfl, fun p => by simp⟩
  | succ c ih =>
    obtain ⟨h1, h2⟩ := ih
    rw [List.range_succ, List.flatMap_append, List.flatMap_singleton]
    refine ⟨by rw [List.length_append, h1, hW]; omega, fun p => ?_⟩
    rw [List.getElem?_append, h1, h2]
    by_cases hp : p < 6 * c
    · rw [if_pos hp, if_pos hp, if_pos (by omega)]
    · rw [if_neg hp]
      by_cases hq : p < 6 * (c + 1)
      · have e1 : p / 6 = c := by omega
        have e2 : p % 6 = p - 6 * c := by omega
        rw [if_pos hq, e1, e2]
      · rw [if_neg hq, List.getElem?_eq_none (by rw [hW]; omega)]

/-- The input state of a nonce, its 40 windows and the zeros in a row (R107). -/
def inputCells (pr : Params) (d : List Byte) (n : Nonce) : TritState :=
  (List.range 32).flatMap (fun j => byteWindow pr.signMode (d.getD j 0)) ++
    ((List.range 8).flatMap (fun k => byteWindow pr.signMode (byteOf n (byteAtWindow pr.byteOrder k))) ++ List.replicate 489 0x00#8)

theorem candidate_eq_inputCells (d : List Byte) (n : Nonce) : candidate pr d n = inputCells pr d n := by
  obtain ⟨a1, a2⟩ := getElem?_flatMap_windows (fun j => byteWindow pr.signMode (d.getD j 0)) (fun _ => rfl) 32
  obtain ⟨b1, b2⟩ := getElem?_flatMap_windows (fun k => byteWindow pr.signMode (byteOf n (byteAtWindow pr.byteOrder k))) (fun _ => rfl) 8
  apply List.ext_getElem?
  intro p
  rw [candidate, getElem?_inputState, inputCells, List.getElem?_append, a1,
    a2, List.getElem?_append, b1, b2, List.getElem?_replicate]
  by_cases h1 : p < 192
  · have h : p < 6 * 32 := h1
    rw [if_pos h1, if_pos h, if_pos h]
  · have h : ¬ p < 6 * 32 := h1
    rw [if_neg h1, if_neg h]
    by_cases h2 : p < 240
    · have h' : p - 6 * 32 < 6 * 8 := by omega
      rw [if_pos h2, if_pos h', if_pos h']
    · have h' : ¬ p - 6 * 32 < 6 * 8 := by omega
      rw [if_neg h2, if_neg h']
      by_cases h3 : p < 729
      · rw [if_pos h3, if_pos (by omega)]
      · rw [if_neg h3, if_neg (by omega)]

/-- A host's check of a nonce (R142), by the masks. -/
theorem passes_eq_hits (d : List Byte) (n : Nonce) {tz : Nat} (htz : tz ≤ 243) :
    passes pr d tz n = hits (transformMasks (inputCells pr d n)) tz := by
  rw [passes_eq, hit, hits, Bool.eq_iff_iff, List.all_eq_true, List.all_eq_true]
  refine forall_congr' fun k => forall_congr' fun hk => ?_
  have hk := List.mem_range.1 hk
  have ht : Config.hashLength - tz + k < 729 := by rw [Config.hashLength]; omega
  rw [transformMasks_spec (length_candidate d n) (valid_candidate d n) ht, bitCell_eq_zero, candidate_eq_inputCells]
  rfl

end BitKernel
end Machine
end Sys2Proof
end

