-- ==== Sys2Proof/Laws/Decode.lean ====
section
/-! SUPPORT. Fields of a command word as arithmetic, the words of each format, and what the port admits. -/

namespace Sys2Proof

/-! ### Fields -/

/-- Concatenation as arithmetic. -/
theorem toNat_append_add {m n : Nat} (x : BitVec m) (y : BitVec n) : (x ++ y).toNat = x.toNat * 2 ^ n + y.toNat := by
  rw [BitVec.toNat_append, ← Nat.shiftLeft_add_eq_or_of_lt y.isLt, Nat.shiftLeft_eq]

theorem field_toNat (w : Word) (hi lo : Nat) : (field w hi lo).toNat = w.toNat / 2 ^ lo % 2 ^ (hi - lo + 1) := by
  simp [field, BitVec.extractLsb, Nat.shiftRight_eq_div_pow]

theorem field_eq_iff (w : Word) (hi lo : Nat) (v : BitVec (hi - lo + 1)) :
  field w hi lo = v ↔ w.toNat / 2 ^ lo % 2 ^ (hi - lo + 1) = v.toNat := by
  rw [← BitVec.toNat_inj, field_toNat]

theorem flagBit_toNat (w : Word) (i : Nat) : (BitVec.ofBool (flagBit w i)).toNat = w.toNat / 2 ^ i % 2 := by
  rw [flagBit, BitVec.getLsbD, Nat.testBit_eq_decide_div_mod_eq, BitVec.toNat_ofBool]
  have := Nat.mod_two_eq_zero_or_one (w.toNat / 2 ^ i)
  rcases this with h | h <;> simp [h]

theorem flagBit_false_iff (w : Word) (i : Nat) : flagBit w i = false ↔ w.toNat / 2 ^ i % 2 = 0 := by
  rw [flagBit, BitVec.getLsbD, Nat.testBit_eq_decide_div_mod_eq]
  have := Nat.mod_two_eq_zero_or_one (w.toNat / 2 ^ i)
  rcases this with h | h <;> simp [h]

theorem flagBit_eq_of {w : Word} {i : Nat} {b : Bool} (h : w.toNat / 2 ^ i % 2 = b.toNat) : flagBit w i = b := by
  rw [← flagBit_toNat, BitVec.toNat_ofBool] at h
  cases b <;> cases hh : flagBit w i <;> simp_all

/-! ### Words of each format -/

/-- Format D (R82). -/
theorem formatD_word {w : Word} (h1 : field w 31 24 = 0x01#8) (h2 : field w 23 13 = 0#11) :
    (0x01#8 ++ 0#11 ++ field w 12 8 ++ field w 7 0 : BitVec 32) = w := by
  apply BitVec.eq_of_toNat_eq
  rw [field_eq_iff] at h1 h2
  have := w.isLt
  simp only [toNat_append_add, field_toNat]
  simp at h1 h2 ⊢
  omega

/-- Format S (R83). -/
theorem formatS_word {w : Word} (h2 : field w 23 19 = 0#5) :
    formatS (field w 31 24) (field w 7 0) (field w 15 8) (flagBit w 16) (flagBit w 17) (flagBit w 18) = w := by
  apply BitVec.eq_of_toNat_eq
  rw [field_eq_iff] at h2
  have := w.isLt
  simp only [formatS, toNat_append_add, field_toNat, flagBit_toNat]
  simp at h2 ⊢
  omega

/-- Format N (R81). -/
theorem formatN_word {w : Word} (h2 : field w 23 0 = 0#24) : (field w 31 24 ++ 0#24 : BitVec 32) = w := by
  apply BitVec.eq_of_toNat_eq
  rw [field_eq_iff] at h2
  have := w.isLt
  simp only [toNat_append_add, field_toNat]
  simp at h2 ⊢
  omega

theorem toNat_formatS (op tz units : BitVec 8) (dl vec fb : Bool) :
    (formatS op tz units dl vec fb).toNat =
      op.toNat * 2 ^ 24 + fb.toNat * 2 ^ 18 + vec.toNat * 2 ^ 17 + dl.toNat * 2 ^ 16 + units.toNat * 2 ^ 8 + tz.toNat := by
  simp only [formatS, toNat_append_add, BitVec.toNat_ofBool, BitVec.toNat_ofNat]
  omega

/-- The fields of a format S word are its operands (R83). -/
theorem formatS_fields (op tz units : BitVec 8) (dl vec fb : Bool) :
    field (formatS op tz units dl vec fb) 31 24 = op ∧ field (formatS op tz units dl vec fb) 23 19 = 0#5 ∧
    flagBit (formatS op tz units dl vec fb) 18 = fb ∧ flagBit (formatS op tz units dl vec fb) 17 = vec ∧
    flagBit (formatS op tz units dl vec fb) 16 = dl ∧ field (formatS op tz units dl vec fb) 15 8 = units ∧
    field (formatS op tz units dl vec fb) 7 0 = tz := by
  have h1 := op.isLt
  have h2 := tz.isLt
  have h3 := units.isLt
  have b1 := Bool.toNat_lt dl
  have b2 := Bool.toNat_lt vec
  have b3 := Bool.toNat_lt fb
  refine ⟨?_, ?_, flagBit_eq_of ?_, flagBit_eq_of ?_, flagBit_eq_of ?_, ?_, ?_⟩ <;>
    (try rw [field_eq_iff]) <;> rw [toNat_formatS] <;> simp <;> omega

/-- The five legal forms decode to their instructions (R86). -/
theorem decodeCommand_of_fields (w : Word) :
   (field w 31 24 = 0x00#8 → field w 23 0 = 0#24 → decodeCommand w = .ok .nop) ∧
   (field w 31 24 = 0x01#8 → field w 23 13 = 0#11 → decodeCommand w = .ok (.setDigestByte (field w 12 8) (field w 7 0))) ∧
   (field w 31 24 = 0x02#8 → field w 23 19 = 0#5 → flagBit w 18 = false → flagBit w 16 = false → field w 15 8 = 0#8 →
     decodeCommand w = .ok (.runSearch (field w 7 0) (flagBit w 17))) ∧
   (field w 31 24 = 0x03#8 → field w 23 19 = 0#5 → decodeCommand w = .ok (.search (field w 7 0) (field w 15 8) (flagBit w 16) (flagBit w 17) (flagBit w 18))) ∧
   (field w 31 24 = 0x04#8 → field w 23 0 = 0#24 → decodeCommand w = .ok .cancel) := by
  refine ⟨?_, ?_, ?_, ?_, ?_⟩ <;> intros <;> simp_all [decodeCommand]

/-- A word that does not decode is illegal, by name (R88). -/
theorem decodeCommand_error {w : Word} {e : DecodeError} (h : decodeCommand w = .error e) : e = .illegalCommand w := by
  rw [decodeCommand] at h
  split at h
  · split at h <;> simp_all
  split at h
  · split at h <;> simp_all
  split at h
  · split at h <;> simp_all
  split at h
  · split at h <;> simp_all
  split at h
  · split at h <;> simp_all
  · cases h; rfl

/-! ### Offsets -/

theorem byteOffset_lt (off : BitVec 6) : byteOffset off < 0x100 := by
  have := off.isLt; unfold byteOffset; omega

/-- Every word index is admitted at its own byte offset (R60). -/
theorem admit_byteOffset (off : BitVec 6) : portOffset 32 (byteOffset off) = .ok off := by
  have := off.isLt
  have h := byteOffset_lt off
  rw [portOffset, if_neg (by simp), if_neg (by omega), if_neg (by unfold byteOffset; omega), byteOffset, Nat.mul_div_cancel_left _ (by omega)]
  simp

/-- What the port admits (R60). -/
theorem admit_ok {width off : Nat} {o : BitVec 6} (h : portOffset width off = .ok o) : width = 32 ∧ off = byteOffset o := by
  rw [portOffset] at h
  split at h
  · cases h
  split at h
  · cases h
  split at h
  · cases h
  · cases h
    refine ⟨by omega, ?_⟩
    rw [byteOffset, BitVec.toNat_ofNat]; omega

end Sys2Proof
end

