-- ==== Sys2Proof/Laws/State.lean ====
section
/-! SUPPORT. The field lemmas of every named state update: what each update sets and what it leaves, each true by `rfl`
and tagged `@[simp]`, so that no later proof unfolds a record update. -/

namespace Sys2Proof
namespace Machine

/-! ### The parts of the state -/

@[simp] theorem State.withRegs_regs (s : State) (r : HostRegs) : (s.withRegs r).regs = r := rfl
@[simp] theorem State.withRegs_coord (s : State) (r : HostRegs) : (s.withRegs r).coord = s.coord := rfl
@[simp] theorem State.withRegs_units (s : State) (r : HostRegs) : (s.withRegs r).units = s.units := rfl
@[simp] theorem State.withRegs_params (s : State) (r : HostRegs) : (s.withRegs r).params = s.params := rfl
@[simp] theorem State.withRegs_env (s : State) (r : HostRegs) : (s.withRegs r).env = s.env := rfl

@[simp] theorem State.withCoord_regs (s : State) (c : Coordinator) : (s.withCoord c).regs = s.regs := rfl
@[simp] theorem State.withCoord_coord (s : State) (c : Coordinator) : (s.withCoord c).coord = c := rfl
@[simp] theorem State.withCoord_units (s : State) (c : Coordinator) : (s.withCoord c).units = s.units := rfl
@[simp] theorem State.withCoord_params (s : State) (c : Coordinator) : (s.withCoord c).params = s.params := rfl
@[simp] theorem State.withCoord_env (s : State) (c : Coordinator) : (s.withCoord c).env = s.env := rfl

@[simp] theorem State.withUnits_regs (s : State) (us : List SearchUnit) : (s.withUnits us).regs = s.regs := rfl
@[simp] theorem State.withUnits_coord (s : State) (us : List SearchUnit) : (s.withUnits us).coord = s.coord := rfl
@[simp] theorem State.withUnits_units (s : State) (us : List SearchUnit) : (s.withUnits us).units = us := rfl
@[simp] theorem State.withUnits_params (s : State) (us : List SearchUnit) : (s.withUnits us).params = s.params := rfl
@[simp] theorem State.withUnits_env (s : State) (us : List SearchUnit) : (s.withUnits us).env = s.env := rfl

@[simp] theorem State.withEnv_regs (s : State) (e : Env) : (s.withEnv e).regs = s.regs := rfl
@[simp] theorem State.withEnv_coord (s : State) (e : Env) : (s.withEnv e).coord = s.coord := rfl
@[simp] theorem State.withEnv_units (s : State) (e : Env) : (s.withEnv e).units = s.units := rfl
@[simp] theorem State.withEnv_params (s : State) (e : Env) : (s.withEnv e).params = s.params := rfl
@[simp] theorem State.withEnv_env (s : State) (e : Env) : (s.withEnv e).env = e := rfl

/-! ### STATUS, NONCE and one unit -/

@[simp] theorem State.withStatus_coord (s : State) (st : Status) : (s.withStatus st).coord = s.coord := rfl
@[simp] theorem State.withStatus_units (s : State) (st : Status) : (s.withStatus st).units = s.units := rfl
@[simp] theorem State.withStatus_params (s : State) (st : Status) : (s.withStatus st).params = s.params := rfl
@[simp] theorem State.withStatus_env (s : State) (st : Status) : (s.withStatus st).env = s.env := rfl
@[simp] theorem State.withStatus_status (s : State) (st : Status) : (s.withStatus st).regs.status = st := rfl
@[simp] theorem State.withStatus_minLo (s : State) (st : Status) : (s.withStatus st).regs.minLo = s.regs.minLo := rfl
@[simp] theorem State.withStatus_minHi (s : State) (st : Status) : (s.withStatus st).regs.minHi = s.regs.minHi := rfl
@[simp] theorem State.withStatus_maxLo (s : State) (st : Status) : (s.withStatus st).regs.maxLo = s.regs.maxLo := rfl
@[simp] theorem State.withStatus_maxHi (s : State) (st : Status) : (s.withStatus st).regs.maxHi = s.regs.maxHi := rfl
@[simp] theorem State.withStatus_deadline (s : State) (st : Status) : (s.withStatus st).regs.deadline = s.regs.deadline := rfl
@[simp] theorem State.withStatus_digest (s : State) (st : Status) : (s.withStatus st).regs.digest = s.regs.digest := rfl
@[simp] theorem State.withStatus_digestValid (s : State) (st : Status) : (s.withStatus st).regs.digestValid = s.regs.digestValid := rfl
@[simp] theorem State.withStatus_nonceLo (s : State) (st : Status) : (s.withStatus st).regs.nonceLo = s.regs.nonceLo := rfl
@[simp] theorem State.withStatus_nonceHi (s : State) (st : Status) : (s.withStatus st).regs.nonceHi = s.regs.nonceHi := rfl

@[simp] theorem State.withNonce_coord (s : State) (n : Nonce) : (s.withNonce n).coord = s.coord := rfl
@[simp] theorem State.withNonce_units (s : State) (n : Nonce) : (s.withNonce n).units = s.units := rfl
@[simp] theorem State.withNonce_params (s : State) (n : Nonce) : (s.withNonce n).params = s.params := rfl
@[simp] theorem State.withNonce_env (s : State) (n : Nonce) : (s.withNonce n).env = s.env := rfl
@[simp] theorem State.withNonce_status (s : State) (n : Nonce) : (s.withNonce n).regs.status = s.regs.status := rfl
@[simp] theorem State.withNonce_minLo (s : State) (n : Nonce) : (s.withNonce n).regs.minLo = s.regs.minLo := rfl
@[simp] theorem State.withNonce_minHi (s : State) (n : Nonce) : (s.withNonce n).regs.minHi = s.regs.minHi := rfl
@[simp] theorem State.withNonce_maxLo (s : State) (n : Nonce) : (s.withNonce n).regs.maxLo = s.regs.maxLo := rfl
@[simp] theorem State.withNonce_maxHi (s : State) (n : Nonce) : (s.withNonce n).regs.maxHi = s.regs.maxHi := rfl
@[simp] theorem State.withNonce_deadline (s : State) (n : Nonce) : (s.withNonce n).regs.deadline = s.regs.deadline := rfl
@[simp] theorem State.withNonce_digest (s : State) (n : Nonce) : (s.withNonce n).regs.digest = s.regs.digest := rfl
@[simp] theorem State.withNonce_digestValid (s : State) (n : Nonce) : (s.withNonce n).regs.digestValid = s.regs.digestValid := rfl
@[simp] theorem State.withNonce_nonceLo (s : State) (n : Nonce) : (s.withNonce n).regs.nonceLo = lowHalf n := rfl
@[simp] theorem State.withNonce_nonceHi (s : State) (n : Nonce) : (s.withNonce n).regs.nonceHi = highHalf n := rfl

@[simp] theorem State.withUnit_regs (s : State) (k : Nat) (u : SearchUnit) : (s.withUnit k u).regs = s.regs := rfl
@[simp] theorem State.withUnit_coord (s : State) (k : Nat) (u : SearchUnit) : (s.withUnit k u).coord = s.coord := rfl
@[simp] theorem State.withUnit_units (s : State) (k : Nat) (u : SearchUnit) : (s.withUnit k u).units = s.units.set k u := rfl
@[simp] theorem State.withUnit_params (s : State) (k : Nat) (u : SearchUnit) : (s.withUnit k u).params = s.params := rfl
@[simp] theorem State.withUnit_env (s : State) (k : Nat) (u : SearchUnit) : (s.withUnit k u).env = s.env := rfl

/-! ### STATUS fields under each flag rule -/

@[simp] theorem Status.reject_code (st : Status) : (st.reject).code = st.code := rfl
@[simp] theorem Status.reject_nonceValid (st : Status) : (st.reject).nonceValid = st.nonceValid := rfl
@[simp] theorem Status.reject_rejected (st : Status) : (st.reject).rejected = true := rfl
@[simp] theorem Status.reject_done (st : Status) : (st.reject).done = st.done := rfl
@[simp] theorem Status.reject_reason (st : Status) : (st.reject).reason = st.reason := rfl

@[simp] theorem Status.accept_code (st : Status) : (st.accept).code = st.code := rfl
@[simp] theorem Status.accept_nonceValid (st : Status) : (st.accept).nonceValid = st.nonceValid := rfl
@[simp] theorem Status.accept_rejected (st : Status) : (st.accept).rejected = false := rfl
@[simp] theorem Status.accept_done (st : Status) : (st.accept).done = st.done := rfl
@[simp] theorem Status.accept_reason (st : Status) : (st.accept).reason = st.reason := rfl

@[simp] theorem Status.start_code (st : Status) : (st.start).code = .busy := rfl
@[simp] theorem Status.start_nonceValid (st : Status) : (st.start).nonceValid = false := rfl
@[simp] theorem Status.start_rejected (st : Status) : (st.start).rejected = st.rejected := rfl
@[simp] theorem Status.start_done (st : Status) : (st.start).done = false := rfl
@[simp] theorem Status.start_reason (st : Status) : (st.start).reason = 0#4 := rfl

@[simp] theorem Status.raise_code (c : StatusCode) (r : BitVec 4) (st : Status) : (st.raise c r).code = c := rfl
@[simp] theorem Status.raise_nonceValid (c : StatusCode) (r : BitVec 4) (st : Status) : (st.raise c r).nonceValid = false := rfl
@[simp] theorem Status.raise_rejected (c : StatusCode) (r : BitVec 4) (st : Status) : (st.raise c r).rejected = st.rejected := rfl
@[simp] theorem Status.raise_done (c : StatusCode) (r : BitVec 4) (st : Status) : (st.raise c r).done = true := rfl
@[simp] theorem Status.raise_reason (c : StatusCode) (r : BitVec 4) (st : Status) : (st.raise c r).reason = r := rfl

@[simp] theorem Status.publish_code (c : StatusCode) (st : Status) : (st.publish c).code = c := rfl
@[simp] theorem Status.publish_nonceValid (c : StatusCode) (st : Status) : (st.publish c).nonceValid = (c == .found) := rfl
@[simp] theorem Status.publish_rejected (c : StatusCode) (st : Status) : (st.publish c).rejected = st.rejected := rfl
@[simp] theorem Status.publish_done (c : StatusCode) (st : Status) : (st.publish c).done = true := rfl
@[simp] theorem Status.publish_reason (c : StatusCode) (st : Status) : (st.publish c).reason = 0#4 := rfl

/-! ### The shared operations -/

@[simp] theorem rejectWrite_coord (s : State) : (rejectWrite s).coord = s.coord := rfl
@[simp] theorem rejectWrite_units (s : State) : (rejectWrite s).units = s.units := rfl
@[simp] theorem rejectWrite_params (s : State) : (rejectWrite s).params = s.params := rfl
@[simp] theorem rejectWrite_env (s : State) : (rejectWrite s).env = s.env := rfl
@[simp] theorem rejectWrite_status (s : State) : (rejectWrite s).regs.status = s.regs.status.reject := rfl
@[simp] theorem rejectWrite_minLo (s : State) : (rejectWrite s).regs.minLo = s.regs.minLo := rfl
@[simp] theorem rejectWrite_minHi (s : State) : (rejectWrite s).regs.minHi = s.regs.minHi := rfl
@[simp] theorem rejectWrite_maxLo (s : State) : (rejectWrite s).regs.maxLo = s.regs.maxLo := rfl
@[simp] theorem rejectWrite_maxHi (s : State) : (rejectWrite s).regs.maxHi = s.regs.maxHi := rfl
@[simp] theorem rejectWrite_deadline (s : State) : (rejectWrite s).regs.deadline = s.regs.deadline := rfl
@[simp] theorem rejectWrite_digest (s : State) : (rejectWrite s).regs.digest = s.regs.digest := rfl
@[simp] theorem rejectWrite_digestValid (s : State) : (rejectWrite s).regs.digestValid = s.regs.digestValid := rfl
@[simp] theorem rejectWrite_nonceLo (s : State) : (rejectWrite s).regs.nonceLo = s.regs.nonceLo := rfl
@[simp] theorem rejectWrite_nonceHi (s : State) : (rejectWrite s).regs.nonceHi = s.regs.nonceHi := rfl

@[simp] theorem acceptCommand_coord (s : State) : (acceptCommand s).coord = s.coord := rfl
@[simp] theorem acceptCommand_units (s : State) : (acceptCommand s).units = s.units := rfl
@[simp] theorem acceptCommand_params (s : State) : (acceptCommand s).params = s.params := rfl
@[simp] theorem acceptCommand_env (s : State) : (acceptCommand s).env = s.env := rfl
@[simp] theorem acceptCommand_status (s : State) : (acceptCommand s).regs.status = s.regs.status.accept := rfl
@[simp] theorem acceptCommand_minLo (s : State) : (acceptCommand s).regs.minLo = s.regs.minLo := rfl
@[simp] theorem acceptCommand_minHi (s : State) : (acceptCommand s).regs.minHi = s.regs.minHi := rfl
@[simp] theorem acceptCommand_maxLo (s : State) : (acceptCommand s).regs.maxLo = s.regs.maxLo := rfl
@[simp] theorem acceptCommand_maxHi (s : State) : (acceptCommand s).regs.maxHi = s.regs.maxHi := rfl
@[simp] theorem acceptCommand_deadline (s : State) : (acceptCommand s).regs.deadline = s.regs.deadline := rfl
@[simp] theorem acceptCommand_digest (s : State) : (acceptCommand s).regs.digest = s.regs.digest := rfl
@[simp] theorem acceptCommand_digestValid (s : State) : (acceptCommand s).regs.digestValid = s.regs.digestValid := rfl
@[simp] theorem acceptCommand_nonceLo (s : State) : (acceptCommand s).regs.nonceLo = s.regs.nonceLo := rfl
@[simp] theorem acceptCommand_nonceHi (s : State) : (acceptCommand s).regs.nonceHi = s.regs.nonceHi := rfl

@[simp] theorem raiseStatus_coord (c : StatusCode) (r : BitVec 4) (s : State) : (raiseStatus c r s).coord = s.coord := rfl
@[simp] theorem raiseStatus_units (c : StatusCode) (r : BitVec 4) (s : State) : (raiseStatus c r s).units = s.units := rfl
@[simp] theorem raiseStatus_params (c : StatusCode) (r : BitVec 4) (s : State) : (raiseStatus c r s).params = s.params := rfl
@[simp] theorem raiseStatus_env (c : StatusCode) (r : BitVec 4) (s : State) : (raiseStatus c r s).env = s.env := rfl
@[simp] theorem raiseStatus_status (c : StatusCode) (r : BitVec 4) (s : State) : (raiseStatus c r s).regs.status = s.regs.status.raise c r := rfl
@[simp] theorem raiseStatus_minLo (c : StatusCode) (r : BitVec 4) (s : State) : (raiseStatus c r s).regs.minLo = s.regs.minLo := rfl
@[simp] theorem raiseStatus_minHi (c : StatusCode) (r : BitVec 4) (s : State) : (raiseStatus c r s).regs.minHi = s.regs.minHi := rfl
@[simp] theorem raiseStatus_maxLo (c : StatusCode) (r : BitVec 4) (s : State) : (raiseStatus c r s).regs.maxLo = s.regs.maxLo := rfl
@[simp] theorem raiseStatus_maxHi (c : StatusCode) (r : BitVec 4) (s : State) : (raiseStatus c r s).regs.maxHi = s.regs.maxHi := rfl
@[simp] theorem raiseStatus_deadline (c : StatusCode) (r : BitVec 4) (s : State) : (raiseStatus c r s).regs.deadline = s.regs.deadline := rfl
@[simp] theorem raiseStatus_digest (c : StatusCode) (r : BitVec 4) (s : State) : (raiseStatus c r s).regs.digest = s.regs.digest := rfl
@[simp] theorem raiseStatus_digestValid (c : StatusCode) (r : BitVec 4) (s : State) : (raiseStatus c r s).regs.digestValid = s.regs.digestValid := rfl
@[simp] theorem raiseStatus_nonceLo (c : StatusCode) (r : BitVec 4) (s : State) : (raiseStatus c r s).regs.nonceLo = s.regs.nonceLo := rfl
@[simp] theorem raiseStatus_nonceHi (c : StatusCode) (r : BitVec 4) (s : State) : (raiseStatus c r s).regs.nonceHi = s.regs.nonceHi := rfl

@[simp] theorem startSearch_coord (s : State) : (startSearch s).coord = s.coord := rfl
@[simp] theorem startSearch_units (s : State) : (startSearch s).units = s.units := rfl
@[simp] theorem startSearch_params (s : State) : (startSearch s).params = s.params := rfl
@[simp] theorem startSearch_env (s : State) : (startSearch s).env = s.env := rfl
@[simp] theorem startSearch_status (s : State) : (startSearch s).regs.status = s.regs.status.start := rfl
@[simp] theorem startSearch_minLo (s : State) : (startSearch s).regs.minLo = s.regs.minLo := rfl
@[simp] theorem startSearch_minHi (s : State) : (startSearch s).regs.minHi = s.regs.minHi := rfl
@[simp] theorem startSearch_maxLo (s : State) : (startSearch s).regs.maxLo = s.regs.maxLo := rfl
@[simp] theorem startSearch_maxHi (s : State) : (startSearch s).regs.maxHi = s.regs.maxHi := rfl
@[simp] theorem startSearch_deadline (s : State) : (startSearch s).regs.deadline = s.regs.deadline := rfl
@[simp] theorem startSearch_digest (s : State) : (startSearch s).regs.digest = s.regs.digest := rfl
@[simp] theorem startSearch_digestValid (s : State) : (startSearch s).regs.digestValid = s.regs.digestValid := rfl
@[simp] theorem startSearch_nonceLo (s : State) : (startSearch s).regs.nonceLo = s.regs.nonceLo := rfl
@[simp] theorem startSearch_nonceHi (s : State) : (startSearch s).regs.nonceHi = s.regs.nonceHi := rfl

@[simp] theorem illegalAccepted_coord (s : State) : (illegalAccepted s).coord = s.coord := rfl
@[simp] theorem illegalAccepted_units (s : State) : (illegalAccepted s).units = s.units := rfl
@[simp] theorem illegalAccepted_params (s : State) : (illegalAccepted s).params = s.params := rfl
@[simp] theorem illegalAccepted_env (s : State) : (illegalAccepted s).env = s.env := rfl
@[simp] theorem illegalAccepted_status (s : State) : (illegalAccepted s).regs.status = s.regs.status.accept.raise .illegalCommand 0#4 := rfl
@[simp] theorem illegalAccepted_minLo (s : State) : (illegalAccepted s).regs.minLo = s.regs.minLo := rfl
@[simp] theorem illegalAccepted_minHi (s : State) : (illegalAccepted s).regs.minHi = s.regs.minHi := rfl
@[simp] theorem illegalAccepted_maxLo (s : State) : (illegalAccepted s).regs.maxLo = s.regs.maxLo := rfl
@[simp] theorem illegalAccepted_maxHi (s : State) : (illegalAccepted s).regs.maxHi = s.regs.maxHi := rfl
@[simp] theorem illegalAccepted_deadline (s : State) : (illegalAccepted s).regs.deadline = s.regs.deadline := rfl
@[simp] theorem illegalAccepted_digest (s : State) : (illegalAccepted s).regs.digest = s.regs.digest := rfl
@[simp] theorem illegalAccepted_digestValid (s : State) : (illegalAccepted s).regs.digestValid = s.regs.digestValid := rfl
@[simp] theorem illegalAccepted_nonceLo (s : State) : (illegalAccepted s).regs.nonceLo = lowHalf 0 := rfl
@[simp] theorem illegalAccepted_nonceHi (s : State) : (illegalAccepted s).regs.nonceHi = highHalf 0 := rfl

@[simp] theorem writeDigestByte_coord (i : BitVec 5) (v : Byte) (s : State) : (writeDigestByte i v s).coord = s.coord := rfl
@[simp] theorem writeDigestByte_units (i : BitVec 5) (v : Byte) (s : State) : (writeDigestByte i v s).units = s.units := rfl
@[simp] theorem writeDigestByte_params (i : BitVec 5) (v : Byte) (s : State) : (writeDigestByte i v s).params = s.params := rfl
@[simp] theorem writeDigestByte_env (i : BitVec 5) (v : Byte) (s : State) : (writeDigestByte i v s).env = s.env := rfl
@[simp] theorem writeDigestByte_status (i : BitVec 5) (v : Byte) (s : State) : (writeDigestByte i v s).regs.status = s.regs.status := rfl
@[simp] theorem writeDigestByte_minLo (i : BitVec 5) (v : Byte) (s : State) : (writeDigestByte i v s).regs.minLo = s.regs.minLo := rfl
@[simp] theorem writeDigestByte_minHi (i : BitVec 5) (v : Byte) (s : State) : (writeDigestByte i v s).regs.minHi = s.regs.minHi := rfl
@[simp] theorem writeDigestByte_maxLo (i : BitVec 5) (v : Byte) (s : State) : (writeDigestByte i v s).regs.maxLo = s.regs.maxLo := rfl
@[simp] theorem writeDigestByte_maxHi (i : BitVec 5) (v : Byte) (s : State) : (writeDigestByte i v s).regs.maxHi = s.regs.maxHi := rfl
@[simp] theorem writeDigestByte_deadline (i : BitVec 5) (v : Byte) (s : State) : (writeDigestByte i v s).regs.deadline = s.regs.deadline := rfl
@[simp] theorem writeDigestByte_digest (i : BitVec 5) (v : Byte) (s : State) : (writeDigestByte i v s).regs.digest = s.regs.digest.set i.toNat v := rfl
@[simp] theorem writeDigestByte_digestValid (i : BitVec 5) (v : Byte) (s : State) : (writeDigestByte i v s).regs.digestValid = (s.regs.digestValid ||| (1#32 <<< i.toNat)) := rfl
@[simp] theorem writeDigestByte_nonceLo (i : BitVec 5) (v : Byte) (s : State) : (writeDigestByte i v s).regs.nonceLo = s.regs.nonceLo := rfl
@[simp] theorem writeDigestByte_nonceHi (i : BitVec 5) (v : Byte) (s : State) : (writeDigestByte i v s).regs.nonceHi = s.regs.nonceHi := rfl

@[simp] theorem returnData_regs (v : Word) (s : State) : (returnData v s).regs = s.regs := rfl
@[simp] theorem returnData_coord (v : Word) (s : State) : (returnData v s).coord = s.coord := rfl
@[simp] theorem returnData_units (v : Word) (s : State) : (returnData v s).units = s.units := rfl
@[simp] theorem returnData_params (v : Word) (s : State) : (returnData v s).params = s.params := rfl
@[simp] theorem returnData_agenda (v : Word) (s : State) : (returnData v s).env.agenda = s.env.agenda := rfl
@[simp] theorem returnData_rst (v : Word) (s : State) : (returnData v s).env.rst = s.env.rst := rfl
@[simp] theorem returnData_rdata (v : Word) (s : State) : (returnData v s).env.rdata = v := rfl
@[simp] theorem returnData_initFails (v : Word) (s : State) : (returnData v s).env.initFails = s.env.initFails := rfl
@[simp] theorem returnData_searches (v : Word) (s : State) : (returnData v s).env.searches = s.env.searches := rfl
@[simp] theorem returnData_picks (v : Word) (s : State) : (returnData v s).env.picks = s.env.picks := rfl

/-! ### The coordinator's operations -/

@[simp] theorem publishOutcome_coord (s : State) : (publishOutcome s).coord = { s.coord with cstate := .idle } := rfl
@[simp] theorem publishOutcome_units (s : State) : (publishOutcome s).units = releaseUnits s.coord.snap.units s.units := rfl
@[simp] theorem publishOutcome_params (s : State) : (publishOutcome s).params = s.params := rfl
@[simp] theorem publishOutcome_env (s : State) : (publishOutcome s).env = s.env := rfl
@[simp] theorem publishOutcome_status (s : State) : (publishOutcome s).regs.status = s.regs.status.publish s.coord.latch.code := rfl
@[simp] theorem publishOutcome_minLo (s : State) : (publishOutcome s).regs.minLo = s.regs.minLo := rfl
@[simp] theorem publishOutcome_minHi (s : State) : (publishOutcome s).regs.minHi = s.regs.minHi := rfl
@[simp] theorem publishOutcome_maxLo (s : State) : (publishOutcome s).regs.maxLo = s.regs.maxLo := rfl
@[simp] theorem publishOutcome_maxHi (s : State) : (publishOutcome s).regs.maxHi = s.regs.maxHi := rfl
@[simp] theorem publishOutcome_deadline (s : State) : (publishOutcome s).regs.deadline = s.regs.deadline := rfl
@[simp] theorem publishOutcome_digest (s : State) : (publishOutcome s).regs.digest = s.regs.digest := rfl
@[simp] theorem publishOutcome_digestValid (s : State) : (publishOutcome s).regs.digestValid = s.regs.digestValid := rfl
@[simp] theorem publishOutcome_nonceLo (s : State) : (publishOutcome s).regs.nonceLo = lowHalf (publishedNonce s.coord.latch) := rfl
@[simp] theorem publishOutcome_nonceHi (s : State) : (publishOutcome s).regs.nonceHi = highHalf (publishedNonce s.coord.latch) := rfl

@[simp] theorem latchCode_regs (code : StatusCode) (s : State) : (latchCode code s).regs = s.regs := rfl
@[simp] theorem latchCode_units (code : StatusCode) (s : State) : (latchCode code s).units = s.units := rfl
@[simp] theorem latchCode_params (code : StatusCode) (s : State) : (latchCode code s).params = s.params := rfl
@[simp] theorem latchCode_env (code : StatusCode) (s : State) : (latchCode code s).env = s.env := rfl
@[simp] theorem latchCode_cstate (code : StatusCode) (s : State) : (latchCode code s).coord.cstate = s.coord.cstate := rfl
@[simp] theorem latchCode_snap (code : StatusCode) (s : State) : (latchCode code s).coord.snap = s.coord.snap := rfl
@[simp] theorem latchCode_latch (code : StatusCode) (s : State) : (latchCode code s).coord.latch = { s.coord.latch with set := true, code := code } := rfl
@[simp] theorem latchCode_dlCnt (code : StatusCode) (s : State) : (latchCode code s).coord.dlCnt = s.coord.dlCnt := rfl

@[simp] theorem latchNonce_regs (n : Nonce) (s : State) : (latchNonce n s).regs = s.regs := rfl
@[simp] theorem latchNonce_units (n : Nonce) (s : State) : (latchNonce n s).units = s.units := rfl
@[simp] theorem latchNonce_params (n : Nonce) (s : State) : (latchNonce n s).params = s.params := rfl
@[simp] theorem latchNonce_env (n : Nonce) (s : State) : (latchNonce n s).env = s.env := rfl
@[simp] theorem latchNonce_cstate (n : Nonce) (s : State) : (latchNonce n s).coord.cstate = s.coord.cstate := rfl
@[simp] theorem latchNonce_snap (n : Nonce) (s : State) : (latchNonce n s).coord.snap = s.coord.snap := rfl
@[simp] theorem latchNonce_latch (n : Nonce) (s : State) : (latchNonce n s).coord.latch = { s.coord.latch with nonce := n } := rfl
@[simp] theorem latchNonce_dlCnt (n : Nonce) (s : State) : (latchNonce n s).coord.dlCnt = s.coord.dlCnt := rfl

@[simp] theorem decideOutcome_regs (code : StatusCode) (reason : Stop) (s : State) : (decideOutcome code reason s).regs = s.regs := rfl
@[simp] theorem decideOutcome_units (code : StatusCode) (reason : Stop) (s : State) : (decideOutcome code reason s).units = stopUnits s.coord.snap.units reason s.units := rfl
@[simp] theorem decideOutcome_params (code : StatusCode) (reason : Stop) (s : State) : (decideOutcome code reason s).params = s.params := rfl
@[simp] theorem decideOutcome_env (code : StatusCode) (reason : Stop) (s : State) : (decideOutcome code reason s).env = s.env := rfl
@[simp] theorem decideOutcome_cstate (code : StatusCode) (reason : Stop) (s : State) : (decideOutcome code reason s).coord.cstate = .drain := rfl
@[simp] theorem decideOutcome_snap (code : StatusCode) (reason : Stop) (s : State) : (decideOutcome code reason s).coord.snap = s.coord.snap := rfl
@[simp] theorem decideOutcome_latch (code : StatusCode) (reason : Stop) (s : State) : (decideOutcome code reason s).coord.latch = { s.coord.latch with set := true, code := code } := rfl
@[simp] theorem decideOutcome_dlCnt (code : StatusCode) (reason : Stop) (s : State) : (decideOutcome code reason s).coord.dlCnt = s.coord.dlCnt := rfl

@[simp] theorem takeSnapshot_regs (c : Snapshot) (s : State) : (takeSnapshot c s).regs = s.regs := rfl
@[simp] theorem takeSnapshot_units (c : Snapshot) (s : State) : (takeSnapshot c s).units = s.units := rfl
@[simp] theorem takeSnapshot_params (c : Snapshot) (s : State) : (takeSnapshot c s).params = s.params := rfl
@[simp] theorem takeSnapshot_env (c : Snapshot) (s : State) : (takeSnapshot c s).env = s.env := rfl
@[simp] theorem takeSnapshot_cstate (c : Snapshot) (s : State) : (takeSnapshot c s).coord.cstate = s.coord.cstate := rfl
@[simp] theorem takeSnapshot_snap (c : Snapshot) (s : State) : (takeSnapshot c s).coord.snap = c := rfl
@[simp] theorem takeSnapshot_latch (c : Snapshot) (s : State) : (takeSnapshot c s).coord.latch = { s.coord.latch with set := false } := rfl
@[simp] theorem takeSnapshot_dlCnt (c : Snapshot) (s : State) : (takeSnapshot c s).coord.dlCnt = 0#32 := rfl

/-! ### A unit's operations -/

@[simp] theorem terminate_inp (u : SearchUnit) (st : UState) : (terminate u st).inp = u.inp := rfl
@[simp] theorem terminate_bufA (u : SearchUnit) (st : UState) : (terminate u st).bufA = u.bufA := rfl
@[simp] theorem terminate_bufB (u : SearchUnit) (st : UState) : (terminate u st).bufB = u.bufB := rfl
@[simp] theorem terminate_micro (u : SearchUnit) (st : UState) : (terminate u st).micro = u.micro := rfl
@[simp] theorem terminate_vin (u : SearchUnit) (st : UState) : (terminate u st).vin = u.vin := rfl
@[simp] theorem terminate_va (u : SearchUnit) (st : UState) : (terminate u st).va = u.va := rfl
@[simp] theorem terminate_vb (u : SearchUnit) (st : UState) : (terminate u st).vb = u.vb := rfl
@[simp] theorem terminate_vmicro (u : SearchUnit) (st : UState) : (terminate u st).vmicro = u.vmicro := rfl
@[simp] theorem terminate_ustate (u : SearchUnit) (st : UState) : (terminate u st).ustate = st := rfl
@[simp] theorem terminate_rangeStart (u : SearchUnit) (st : UState) : (terminate u st).rangeStart = u.rangeStart := rfl
@[simp] theorem terminate_rangeEnd (u : SearchUnit) (st : UState) : (terminate u st).rangeEnd = u.rangeEnd := rfl
@[simp] theorem terminate_empty (u : SearchUnit) (st : UState) : (terminate u st).empty = u.empty := rfl
@[simp] theorem terminate_tz (u : SearchUnit) (st : UState) : (terminate u st).tz = u.tz := rfl
@[simp] theorem terminate_backend (u : SearchUnit) (st : UState) : (terminate u st).backend = u.backend := rfl
@[simp] theorem terminate_fb (u : SearchUnit) (st : UState) : (terminate u st).fb = u.fb := rfl
@[simp] theorem terminate_n (u : SearchUnit) (st : UState) : (terminate u st).n = u.n := rfl
@[simp] theorem terminate_enc (u : SearchUnit) (st : UState) : (terminate u st).enc = u.enc := rfl
@[simp] theorem terminate_stop (u : SearchUnit) (st : UState) : (terminate u st).stop = u.stop := rfl
@[simp] theorem terminate_result (u : SearchUnit) (st : UState) : (terminate u st).result = u.result := rfl
@[simp] theorem terminate_report (u : SearchUnit) (st : UState) : (terminate u st).report = reportFor st := rfl
@[simp] theorem terminate_exh (u : SearchUnit) (st : UState) : (terminate u st).exh = u.exh := rfl

@[simp] theorem scalarAdvance_inp (pr : Params) (u : SearchUnit) : (scalarAdvance pr u).inp = encodeNonce pr.signMode pr.byteOrder u.inp (u.n + 1) (advanceCount (u.n + 1)) := rfl
@[simp] theorem scalarAdvance_bufA (pr : Params) (u : SearchUnit) : (scalarAdvance pr u).bufA = u.bufA := rfl
@[simp] theorem scalarAdvance_bufB (pr : Params) (u : SearchUnit) : (scalarAdvance pr u).bufB = u.bufB := rfl
@[simp] theorem scalarAdvance_micro (pr : Params) (u : SearchUnit) : (scalarAdvance pr u).micro = u.micro := rfl
@[simp] theorem scalarAdvance_vin (pr : Params) (u : SearchUnit) : (scalarAdvance pr u).vin = u.vin := rfl
@[simp] theorem scalarAdvance_va (pr : Params) (u : SearchUnit) : (scalarAdvance pr u).va = u.va := rfl
@[simp] theorem scalarAdvance_vb (pr : Params) (u : SearchUnit) : (scalarAdvance pr u).vb = u.vb := rfl
@[simp] theorem scalarAdvance_vmicro (pr : Params) (u : SearchUnit) : (scalarAdvance pr u).vmicro = u.vmicro := rfl
@[simp] theorem scalarAdvance_ustate (pr : Params) (u : SearchUnit) : (scalarAdvance pr u).ustate = u.ustate := rfl
@[simp] theorem scalarAdvance_rangeStart (pr : Params) (u : SearchUnit) : (scalarAdvance pr u).rangeStart = u.rangeStart := rfl
@[simp] theorem scalarAdvance_rangeEnd (pr : Params) (u : SearchUnit) : (scalarAdvance pr u).rangeEnd = u.rangeEnd := rfl
@[simp] theorem scalarAdvance_empty (pr : Params) (u : SearchUnit) : (scalarAdvance pr u).empty = u.empty := rfl
@[simp] theorem scalarAdvance_tz (pr : Params) (u : SearchUnit) : (scalarAdvance pr u).tz = u.tz := rfl
@[simp] theorem scalarAdvance_backend (pr : Params) (u : SearchUnit) : (scalarAdvance pr u).backend = u.backend := rfl
@[simp] theorem scalarAdvance_fb (pr : Params) (u : SearchUnit) : (scalarAdvance pr u).fb = u.fb := rfl
@[simp] theorem scalarAdvance_n (pr : Params) (u : SearchUnit) : (scalarAdvance pr u).n = u.n + 1 := rfl
@[simp] theorem scalarAdvance_enc (pr : Params) (u : SearchUnit) : (scalarAdvance pr u).enc = u.n + 1 := rfl
@[simp] theorem scalarAdvance_stop (pr : Params) (u : SearchUnit) : (scalarAdvance pr u).stop = u.stop := rfl
@[simp] theorem scalarAdvance_result (pr : Params) (u : SearchUnit) : (scalarAdvance pr u).result = u.result := rfl
@[simp] theorem scalarAdvance_report (pr : Params) (u : SearchUnit) : (scalarAdvance pr u).report = u.report := rfl
@[simp] theorem scalarAdvance_exh (pr : Params) (u : SearchUnit) : (scalarAdvance pr u).exh = u.exh := rfl

@[simp] theorem vectorAdvance_inp (pr : Params) (u : SearchUnit) : (vectorAdvance pr u).inp = u.inp := rfl
@[simp] theorem vectorAdvance_bufA (pr : Params) (u : SearchUnit) : (vectorAdvance pr u).bufA = u.bufA := rfl
@[simp] theorem vectorAdvance_bufB (pr : Params) (u : SearchUnit) : (vectorAdvance pr u).bufB = u.bufB := rfl
@[simp] theorem vectorAdvance_micro (pr : Params) (u : SearchUnit) : (vectorAdvance pr u).micro = u.micro := rfl
@[simp] theorem vectorAdvance_vin (pr : Params) (u : SearchUnit) : (vectorAdvance pr u).vin = vEncodeNonce pr.signMode pr.byteOrder u.vin (u.n + 16) (advanceCount (u.n + 16)) := rfl
@[simp] theorem vectorAdvance_va (pr : Params) (u : SearchUnit) : (vectorAdvance pr u).va = u.va := rfl
@[simp] theorem vectorAdvance_vb (pr : Params) (u : SearchUnit) : (vectorAdvance pr u).vb = u.vb := rfl
@[simp] theorem vectorAdvance_vmicro (pr : Params) (u : SearchUnit) : (vectorAdvance pr u).vmicro = u.vmicro := rfl
@[simp] theorem vectorAdvance_ustate (pr : Params) (u : SearchUnit) : (vectorAdvance pr u).ustate = u.ustate := rfl
@[simp] theorem vectorAdvance_rangeStart (pr : Params) (u : SearchUnit) : (vectorAdvance pr u).rangeStart = u.rangeStart := rfl
@[simp] theorem vectorAdvance_rangeEnd (pr : Params) (u : SearchUnit) : (vectorAdvance pr u).rangeEnd = u.rangeEnd := rfl
@[simp] theorem vectorAdvance_empty (pr : Params) (u : SearchUnit) : (vectorAdvance pr u).empty = u.empty := rfl
@[simp] theorem vectorAdvance_tz (pr : Params) (u : SearchUnit) : (vectorAdvance pr u).tz = u.tz := rfl
@[simp] theorem vectorAdvance_backend (pr : Params) (u : SearchUnit) : (vectorAdvance pr u).backend = u.backend := rfl
@[simp] theorem vectorAdvance_fb (pr : Params) (u : SearchUnit) : (vectorAdvance pr u).fb = u.fb := rfl
@[simp] theorem vectorAdvance_n (pr : Params) (u : SearchUnit) : (vectorAdvance pr u).n = u.n + 16 := rfl
@[simp] theorem vectorAdvance_enc (pr : Params) (u : SearchUnit) : (vectorAdvance pr u).enc = u.n + 16 := rfl
@[simp] theorem vectorAdvance_stop (pr : Params) (u : SearchUnit) : (vectorAdvance pr u).stop = u.stop := rfl
@[simp] theorem vectorAdvance_result (pr : Params) (u : SearchUnit) : (vectorAdvance pr u).result = u.result := rfl
@[simp] theorem vectorAdvance_report (pr : Params) (u : SearchUnit) : (vectorAdvance pr u).report = u.report := rfl
@[simp] theorem vectorAdvance_exh (pr : Params) (u : SearchUnit) : (vectorAdvance pr u).exh = u.exh := rfl

@[simp] theorem withScalarKernel_inp (u : SearchUnit) (k : KernelOut TritState) : (withScalarKernel u k).inp = u.inp := rfl
@[simp] theorem withScalarKernel_bufA (u : SearchUnit) (k : KernelOut TritState) : (withScalarKernel u k).bufA = k.current := rfl
@[simp] theorem withScalarKernel_bufB (u : SearchUnit) (k : KernelOut TritState) : (withScalarKernel u k).bufB = k.other := rfl
@[simp] theorem withScalarKernel_micro (u : SearchUnit) (k : KernelOut TritState) : (withScalarKernel u k).micro = microAfter k.cursor := rfl
@[simp] theorem withScalarKernel_vin (u : SearchUnit) (k : KernelOut TritState) : (withScalarKernel u k).vin = u.vin := rfl
@[simp] theorem withScalarKernel_va (u : SearchUnit) (k : KernelOut TritState) : (withScalarKernel u k).va = u.va := rfl
@[simp] theorem withScalarKernel_vb (u : SearchUnit) (k : KernelOut TritState) : (withScalarKernel u k).vb = u.vb := rfl
@[simp] theorem withScalarKernel_vmicro (u : SearchUnit) (k : KernelOut TritState) : (withScalarKernel u k).vmicro = u.vmicro := rfl
@[simp] theorem withScalarKernel_ustate (u : SearchUnit) (k : KernelOut TritState) : (withScalarKernel u k).ustate = u.ustate := rfl
@[simp] theorem withScalarKernel_rangeStart (u : SearchUnit) (k : KernelOut TritState) : (withScalarKernel u k).rangeStart = u.rangeStart := rfl
@[simp] theorem withScalarKernel_rangeEnd (u : SearchUnit) (k : KernelOut TritState) : (withScalarKernel u k).rangeEnd = u.rangeEnd := rfl
@[simp] theorem withScalarKernel_empty (u : SearchUnit) (k : KernelOut TritState) : (withScalarKernel u k).empty = u.empty := rfl
@[simp] theorem withScalarKernel_tz (u : SearchUnit) (k : KernelOut TritState) : (withScalarKernel u k).tz = u.tz := rfl
@[simp] theorem withScalarKernel_backend (u : SearchUnit) (k : KernelOut TritState) : (withScalarKernel u k).backend = u.backend := rfl
@[simp] theorem withScalarKernel_fb (u : SearchUnit) (k : KernelOut TritState) : (withScalarKernel u k).fb = u.fb := rfl
@[simp] theorem withScalarKernel_n (u : SearchUnit) (k : KernelOut TritState) : (withScalarKernel u k).n = u.n := rfl
@[simp] theorem withScalarKernel_enc (u : SearchUnit) (k : KernelOut TritState) : (withScalarKernel u k).enc = u.enc := rfl
@[simp] theorem withScalarKernel_stop (u : SearchUnit) (k : KernelOut TritState) : (withScalarKernel u k).stop = u.stop := rfl
@[simp] theorem withScalarKernel_result (u : SearchUnit) (k : KernelOut TritState) : (withScalarKernel u k).result = u.result := rfl
@[simp] theorem withScalarKernel_report (u : SearchUnit) (k : KernelOut TritState) : (withScalarKernel u k).report = u.report := rfl
@[simp] theorem withScalarKernel_exh (u : SearchUnit) (k : KernelOut TritState) : (withScalarKernel u k).exh = u.exh := rfl

@[simp] theorem withVectorKernel_inp (u : SearchUnit) (k : KernelOut VectorState) : (withVectorKernel u k).inp = u.inp := rfl
@[simp] theorem withVectorKernel_bufA (u : SearchUnit) (k : KernelOut VectorState) : (withVectorKernel u k).bufA = u.bufA := rfl
@[simp] theorem withVectorKernel_bufB (u : SearchUnit) (k : KernelOut VectorState) : (withVectorKernel u k).bufB = u.bufB := rfl
@[simp] theorem withVectorKernel_micro (u : SearchUnit) (k : KernelOut VectorState) : (withVectorKernel u k).micro = u.micro := rfl
@[simp] theorem withVectorKernel_vin (u : SearchUnit) (k : KernelOut VectorState) : (withVectorKernel u k).vin = u.vin := rfl
@[simp] theorem withVectorKernel_va (u : SearchUnit) (k : KernelOut VectorState) : (withVectorKernel u k).va = k.current := rfl
@[simp] theorem withVectorKernel_vb (u : SearchUnit) (k : KernelOut VectorState) : (withVectorKernel u k).vb = k.other := rfl
@[simp] theorem withVectorKernel_vmicro (u : SearchUnit) (k : KernelOut VectorState) : (withVectorKernel u k).vmicro = microAfter k.cursor := rfl
@[simp] theorem withVectorKernel_ustate (u : SearchUnit) (k : KernelOut VectorState) : (withVectorKernel u k).ustate = u.ustate := rfl
@[simp] theorem withVectorKernel_rangeStart (u : SearchUnit) (k : KernelOut VectorState) : (withVectorKernel u k).rangeStart = u.rangeStart := rfl
@[simp] theorem withVectorKernel_rangeEnd (u : SearchUnit) (k : KernelOut VectorState) : (withVectorKernel u k).rangeEnd = u.rangeEnd := rfl
@[simp] theorem withVectorKernel_empty (u : SearchUnit) (k : KernelOut VectorState) : (withVectorKernel u k).empty = u.empty := rfl
@[simp] theorem withVectorKernel_tz (u : SearchUnit) (k : KernelOut VectorState) : (withVectorKernel u k).tz = u.tz := rfl
@[simp] theorem withVectorKernel_backend (u : SearchUnit) (k : KernelOut VectorState) : (withVectorKernel u k).backend = u.backend := rfl
@[simp] theorem withVectorKernel_fb (u : SearchUnit) (k : KernelOut VectorState) : (withVectorKernel u k).fb = u.fb := rfl
@[simp] theorem withVectorKernel_n (u : SearchUnit) (k : KernelOut VectorState) : (withVectorKernel u k).n = u.n := rfl
@[simp] theorem withVectorKernel_enc (u : SearchUnit) (k : KernelOut VectorState) : (withVectorKernel u k).enc = u.enc := rfl
@[simp] theorem withVectorKernel_stop (u : SearchUnit) (k : KernelOut VectorState) : (withVectorKernel u k).stop = u.stop := rfl
@[simp] theorem withVectorKernel_result (u : SearchUnit) (k : KernelOut VectorState) : (withVectorKernel u k).result = u.result := rfl
@[simp] theorem withVectorKernel_report (u : SearchUnit) (k : KernelOut VectorState) : (withVectorKernel u k).report = u.report := rfl
@[simp] theorem withVectorKernel_exh (u : SearchUnit) (k : KernelOut VectorState) : (withVectorKernel u k).exh = u.exh := rfl

@[simp] theorem unitRegisters_inp (search : Nat) (c : Snapshot) (k : Nat) (u : SearchUnit) : (unitRegisters search c k u).inp = u.inp := rfl
@[simp] theorem unitRegisters_bufA (search : Nat) (c : Snapshot) (k : Nat) (u : SearchUnit) : (unitRegisters search c k u).bufA = u.bufA := rfl
@[simp] theorem unitRegisters_bufB (search : Nat) (c : Snapshot) (k : Nat) (u : SearchUnit) : (unitRegisters search c k u).bufB = u.bufB := rfl
@[simp] theorem unitRegisters_micro (search : Nat) (c : Snapshot) (k : Nat) (u : SearchUnit) : (unitRegisters search c k u).micro = u.micro := rfl
@[simp] theorem unitRegisters_vin (search : Nat) (c : Snapshot) (k : Nat) (u : SearchUnit) : (unitRegisters search c k u).vin = u.vin := rfl
@[simp] theorem unitRegisters_va (search : Nat) (c : Snapshot) (k : Nat) (u : SearchUnit) : (unitRegisters search c k u).va = u.va := rfl
@[simp] theorem unitRegisters_vb (search : Nat) (c : Snapshot) (k : Nat) (u : SearchUnit) : (unitRegisters search c k u).vb = u.vb := rfl
@[simp] theorem unitRegisters_vmicro (search : Nat) (c : Snapshot) (k : Nat) (u : SearchUnit) : (unitRegisters search c k u).vmicro = u.vmicro := rfl
@[simp] theorem unitRegisters_ustate (search : Nat) (c : Snapshot) (k : Nat) (u : SearchUnit) : (unitRegisters search c k u).ustate = u.ustate := rfl
@[simp] theorem unitRegisters_rangeStart (search : Nat) (c : Snapshot) (k : Nat) (u : SearchUnit) : (unitRegisters search c k u).rangeStart = partStart c k := rfl
@[simp] theorem unitRegisters_rangeEnd (search : Nat) (c : Snapshot) (k : Nat) (u : SearchUnit) : (unitRegisters search c k u).rangeEnd = partEnd search c k := rfl
@[simp] theorem unitRegisters_empty (search : Nat) (c : Snapshot) (k : Nat) (u : SearchUnit) : (unitRegisters search c k u).empty = partEmpty c k := rfl
@[simp] theorem unitRegisters_tz (search : Nat) (c : Snapshot) (k : Nat) (u : SearchUnit) : (unitRegisters search c k u).tz = c.tz := rfl
@[simp] theorem unitRegisters_backend (search : Nat) (c : Snapshot) (k : Nat) (u : SearchUnit) : (unitRegisters search c k u).backend = u.backend := rfl
@[simp] theorem unitRegisters_fb (search : Nat) (c : Snapshot) (k : Nat) (u : SearchUnit) : (unitRegisters search c k u).fb = c.fb := rfl
@[simp] theorem unitRegisters_n (search : Nat) (c : Snapshot) (k : Nat) (u : SearchUnit) : (unitRegisters search c k u).n = u.n := rfl
@[simp] theorem unitRegisters_enc (search : Nat) (c : Snapshot) (k : Nat) (u : SearchUnit) : (unitRegisters search c k u).enc = u.enc := rfl
@[simp] theorem unitRegisters_stop (search : Nat) (c : Snapshot) (k : Nat) (u : SearchUnit) : (unitRegisters search c k u).stop = .none := rfl
@[simp] theorem unitRegisters_result (search : Nat) (c : Snapshot) (k : Nat) (u : SearchUnit) : (unitRegisters search c k u).result = u.result := rfl
@[simp] theorem unitRegisters_report (search : Nat) (c : Snapshot) (k : Nat) (u : SearchUnit) : (unitRegisters search c k u).report = .none := rfl
@[simp] theorem unitRegisters_exh (search : Nat) (c : Snapshot) (k : Nat) (u : SearchUnit) : (unitRegisters search c k u).exh = false := rfl

end Machine
end Sys2Proof
end

