-- ==== Sys2Proof/Laws/Effect.lean ====
section
/-! SUPPORT. Everything one step can do, said once: the inversion of `takeEvent` and of `step`, which every claim about
all steps cites instead of unfolding the machine. -/

namespace Sys2Proof
namespace Machine

/-- What `VALIDATE` established about an accepted search command's snapshot (R243–R245). -/
def ValidSearch (s : State) (c : Snapshot) : Prop :=
  c.tz ≤ 243 ∧ c.min = minNonce s.regs ∧ c.max = maxNonce s.regs ∧ c.min.toNat ≤ c.max.toNat ∧
    s.regs.digestValid = BitVec.allOnes 32 ∧ 1 ≤ c.units ∧ (c.units = 1 ∨ c.units ≤ s.units.length)

/-- The state in which an accepted search command runs `LAUNCH` (R243). -/
def started (s : State) : State := startSearch ((acceptCommand s).withNonce 0)

/-- The state LAUNCH leaves when it launches units (R214). -/
def launchedState (c : Snapshot) (s : State) : State :=
  (((takeSnapshot c (started s)).withUnits (launchUnits s.params s.env s.regs.digest c s.units)).withCoord
    { (takeSnapshot c (started s)).coord with cstate := .wait }).withEnv { s.env with searches := s.env.searches + 1 }

/-- Every effect an event can have on a state, with the condition under which it has it. -/
inductive Effect : Event → State → State → Prop where
  | none (e : Event) (s : State) : Effect e s s
  | rst (b : Bool) (s : State) : Effect (.rst b) s (rstMove b s)
  | returned (a : PortAccess) (v : Word) (s : State) : Effect (.host a) s (returnData v s)
  | rejected (a : PortAccess) (s : State) : isBusy s = true → Effect (.host a) s (rejectWrite s)
  | accepted (a : PortAccess) (s : State) : isBusy s = false → decode a = .ok .nop ∨ decode a = .ok .cancel →
      Effect (.host a) s (acceptCommand s)
  | illegal (w : Word) (s : State) : isBusy s = false → decodeCommand w = .error (.illegalCommand w) →
      Effect (.host (.write 32 0 w)) s (illegalAccepted s)
  | digest (a : PortAccess) (idx : BitVec 5) (val : Byte) (s : State) : isBusy s = false →
      decode a = .ok (.setDigestByte idx val) → Effect (.host a) s (writeDigestByte idx val (acceptCommand s))
  | stored (a : PortAccess) (off : BitVec 6) (v : Word) (s : State) : isBusy s = false →
      Effect (.host a) s (s.withRegs (storeReg off v s.regs))
  | invalid (a : PortAccess) (reason : BitVec 4) (s : State) : isBusy s = false → 1 ≤ reason.toNat → reason.toNat ≤ 4 →
      (∃ tz vec, decode a = .ok (.runSearch tz vec)) ∨ (∃ tz n dl vec fb, decode a = .ok (.search tz n dl vec fb)) →
      Effect (.host a) s (raiseStatus .invalidInput reason ((acceptCommand s).withNonce 0))
  | zeroDeadline (a : PortAccess) (c : Snapshot) (s : State) : isBusy s = false → ValidSearch s c → c.dl = true →
      (∃ tz n dl vec fb, decode a = .ok (.search tz n dl vec fb)) →
      Effect (.host a) s (publishOutcome (latchCode .timedOut (takeSnapshot c (started s))))
  | launched (a : PortAccess) (c : Snapshot) (s : State) : isBusy s = false → ValidSearch s c →
      (∃ tz vec, decode a = .ok (.runSearch tz vec)) ∨ (∃ tz n dl vec fb, decode a = .ok (.search tz n dl vec fb)) →
      Effect (.host a) s (launchedState c s)
  | cancelled (a : PortAccess) (s : State) : isBusy s = true → decode a = .ok .cancel → s.coord.cstate = .wait →
      Effect (.host a) s (decideOutcome .cancelled .cancel s)
  | ticked (n : Word) (s : State) : s.coord.cstate ≠ .idle → s.coord.snap.dl = true →
      Effect .tick s (s.withCoord { s.coord with dlCnt := n })
  | evaluated (k : Nat) (u u' : SearchUnit) (s : State) : s.units[k]? = some u → u.ustate = .searching →
      unitStep s.params (deadlineExpired s.coord) u = .ok u' → Effect (.unit k) s (s.withUnit k u')
  | found (k : Nat) (u : SearchUnit) (s : State) : s.units[k]? = some u → k < s.coord.snap.units →
      s.coord.cstate = .wait → u.report = .found →
      Effect (.report k) s
        (decideOutcome .found .cancel (latchNonce u.result (s.withUnit k { u with report := .none })))
  | timedOut (k : Nat) (u : SearchUnit) (s : State) : s.units[k]? = some u → k < s.coord.snap.units →
      s.coord.cstate = .wait → u.report = .timedOut →
      Effect (.report k) s (decideOutcome .timedOut .deadline (s.withUnit k { u with report := .none }))
  | failed (k : Nat) (u : SearchUnit) (s : State) : s.units[k]? = some u → k < s.coord.snap.units →
      s.coord.cstate = .wait → u.report = .failed →
      Effect (.report k) s (decideOutcome .backendUnavailable .cancel (s.withUnit k { u with report := .none }))
  | counted (k : Nat) (u : SearchUnit) (s : State) : s.units[k]? = some u → k < s.coord.snap.units →
      s.coord.cstate = .wait → u.report = .exhausted →
      allExhausted s.coord.snap.units (s.units.set k { u with report := .none, exh := true }) = false →
      Effect (.report k) s (recordExhausted k u s)
  | exhausted (k : Nat) (u : SearchUnit) (s : State) : s.units[k]? = some u → k < s.coord.snap.units →
      s.coord.cstate = .wait → u.report = .exhausted →
      allExhausted s.coord.snap.units (s.units.set k { u with report := .none, exh := true }) = true →
      Effect (.report k) s (publishOutcome (latchCode .exhausted (recordExhausted k u s)))
  | discarded (k : Nat) (u : SearchUnit) (s : State) : s.units[k]? = some u → k < s.coord.snap.units →
      s.coord.cstate = .drain → u.report ≠ .none → Effect (.report k) s (s.withUnit k { u with report := .none })
  | expired (s : State) : s.coord.cstate = .wait → deadlineExpired s.coord = true →
      Effect .deadline s (decideOutcome .timedOut .deadline s)
  | published (s : State) : s.coord.cstate = .drain → allDrained s.coord.snap.units s.units = true →
      Effect .publish s (publishOutcome s)

/-- The answer of a validation that fails is a REASON 1..4 (R243, R271). -/
theorem failedCheck_bounds {tz units : Nat} {s : State} {r : BitVec 4} (h : failedCheck tz units s = some r) :
    1 ≤ r.toNat ∧ r.toNat ≤ 4 := by
  unfold failedCheck at h
  split at h
  · cases h; decide
  split at h
  · cases h; decide
  split at h
  · cases h; decide
  split at h
  · cases h; decide
  · cases h

/-- What passes validation (R243). -/
theorem failedCheck_none {tz units : Nat} {s : State} (h : failedCheck tz units s = none) :
    tz ≤ 243 ∧ (minNonce s.regs).toNat ≤ (maxNonce s.regs).toNat ∧ s.regs.digestValid = BitVec.allOnes 32 ∧
      units ≤ s.units.length := by
  unfold failedCheck at h
  split at h
  · cases h
  split at h
  · cases h
  split at h
  · cases h
  split at h
  · cases h
  · rename_i h1 h2 h3 h4
    exact ⟨by omega, by omega, not_not.1 h3, Nat.not_lt.1 h4⟩

/-- What an accepted search command does (R243–R245, R214). -/
theorem runSearchCommand_effect (a : PortAccess) (units : Nat) (c : Snapshot) (s : State) (hb : isBusy s = false)
    (hu : c.units = max 1 units) (hmin : c.min = minNonce s.regs) (hmax : c.max = maxNonce s.regs)
    (hd : (c.dl = false ∧ ∃ tz vec, decode a = .ok (.runSearch tz vec)) ∨
      ∃ tz n dl vec fb, decode a = .ok (.search tz n dl vec fb)) :
    Effect (.host a) s (runSearchCommand units c (acceptCommand s)) := by
  unfold runSearchCommand
  simp only
  cases hf : failedCheck c.tz units ((acceptCommand s).withNonce 0) with
  | some r =>
    obtain ⟨r1, r2⟩ := failedCheck_bounds hf
    exact .invalid a r s hb r1 r2 (hd.imp (fun h => h.2) id)
  | none =>
    obtain ⟨f1, f2, f3, f4⟩ := failedCheck_none hf
    have f2' : (minNonce s.regs).toNat ≤ (maxNonce s.regs).toNat := f2
    have f4' : units ≤ s.units.length := f4
    have hv : ValidSearch s c := by
      refine ⟨f1, hmin, hmax, by rw [hmin, hmax]; exact f2', f3, by omega, ?_⟩
      rcases Nat.lt_or_ge 1 units with h | h
      · right; omega
      · left; omega
    unfold launch
    simp only
    by_cases hz : c.dl = true ∧ c.limit = 0#32
    · rw [if_pos hz]
      refine .zeroDeadline a c s hb hv hz.1 (hd.resolve_left fun h => ?_)
      rw [hz.1] at h
      cases h.1
    · rw [if_neg hz]
      exact .launched a c s hb hv (hd.imp (fun h => h.2) id)

/-- What each instruction can do to the state it runs in (R241–R251). -/
theorem exec_effect {a : PortAccess} {i : Instr} {s t : State} (hd : decode a = .ok i) (h : exec i s = .next t) :
    Effect (.host a) s t := by
  cases i with
  | nop =>
    unfold exec execNop at h
    cases h
    split
    · exact .none _ s
    · rename_i hb
      exact .accepted a s (by simpa using hb) (.inl hd)
  | setDigestByte idx val =>
    unfold exec execSetDigestByte at h
    cases h
    split
    · rename_i hb
      exact .rejected a s hb
    · rename_i hb
      exact .digest a idx val s (by simpa using hb) hd
  | runSearch tz vec =>
    unfold exec execRunSearch at h
    cases h
    split
    · rename_i hb
      exact .rejected a s hb
    · rename_i hb
      exact runSearchCommand_effect a 0 _ s (by simpa using hb) rfl rfl rfl (.inl ⟨rfl, _, _, hd⟩)
  | search tz units dl vec fb =>
    unfold exec execSearch at h
    cases h
    split
    · rename_i hb
      exact .rejected a s hb
    · rename_i hb
      exact runSearchCommand_effect a _ _ s (by simpa using hb) rfl rfl rfl (.inr ⟨_, _, _, _, _, hd⟩)
  | cancel =>
    unfold exec execCancel at h
    cases h
    split
    · rename_i hb
      unfold hostCancel
      split
      · exact .none _ s
      · rename_i hc
        exact .cancelled a s hb hd hc
      · exact .none _ s
    · rename_i hb
      exact .accepted a s (by simpa using hb) (.inr hd)
  | rd off =>
    cases h
    exact .returned a _ s
  | wr off v =>
    simp only [exec] at h
    unfold execWr at h
    split at h
    · cases h
    split at h
    · cases h
      split
      · rename_i hb
        exact .rejected a s hb
      · rename_i hb
        exact .stored a off v s (by simpa using hb)
    · cases h
      exact .none _ s
  | readNonceLo =>
    cases h
    exact .returned a _ s
  | readNonceHi =>
    cases h
    exact .returned a _ s

/-- Only a command word is reported as illegal. -/
theorem decode_illegal {a : PortAccess} {w : Word} (h : decode a = .error (.illegalCommand w)) :
    a = .write 32 0 w ∧ decodeCommand w = .error (.illegalCommand w) := by
  have hadm : ∀ {width off : Nat} {e : DecodeError}, portOffset width off = .error e → e ≠ .illegalCommand w := by
    intro width off e h he
    subst he
    unfold portOffset at h
    split at h
    · cases h
    split at h
    · cases h
    split at h
    · cases h
    · cases h
  cases a with
  | read width off =>
    simp only [decode] at h
    split at h
    · cases h
    · rename_i e he
      cases h
      exact absurd rfl (hadm he)
  | write width off v =>
    simp only [decode] at h
    split at h
    · rename_i o ho
      obtain ⟨rfl, rfl⟩ := admit_ok ho
      unfold decodeWrite at h
      split at h
      · subst o
        have := decodeCommand_error h
        cases this
        exact ⟨rfl, h⟩
      · cases h
    · rename_i e he
      cases h
      exact absurd rfl (hadm he)

theorem hostAccess_effect {a : PortAccess} {s t : State} (h : hostAccess a s = .next t) : Effect (.host a) s t := by
  unfold hostAccess at h
  split at h
  · rename_i i hd
    exact exec_effect hd h
  · rename_i e hd
    cases e with
    | widthNotAdmitted w => cases h
    | outsideWindow o => cases h
    | misaligned o => cases h
    | illegalCommand w =>
      obtain ⟨rfl, hw⟩ := decode_illegal hd
      simp only [refusalOf] at h
      cases h
      unfold illegalCommand
      split
      · rename_i hb
        exact .rejected _ s hb
      · rename_i hb
        exact .illegal w s (by simpa using hb) hw

theorem unitMove_effect {k : Nat} {s t : State} (h : unitMove k s = .next t) : Effect (.unit k) s t := by
  unfold unitMove at h
  split at h
  · cases h; exact .none _ s
  · rename_i u hu
    split at h
    · rename_i hs
      split at h
      · cases h
      · rename_i u' hu'
        cases h
        exact .evaluated k u u' s hu hs hu'
    · cases h; exact .none _ s

theorem reportMove_effect {k : Nat} {s t : State} (h : reportMove k s = .next t) : Effect (.report k) s t := by
  unfold reportMove at h
  split at h
  · cases h; exact .none _ s
  · rename_i u hu
    split at h
    · rename_i hk
      split at h
      · cases h; exact .none _ s
      · rename_i hc
        unfold waitReport at h
        simp only at h
        split at h
        · cases h; exact .none _ s
        · rename_i hr
          cases h; exact .found k u s hu hk.1 hc hr
        · rename_i hr
          cases h
          unfold consumeExhausted
          simp only
          by_cases ha : allExhausted s.coord.snap.units (s.units.set k { u with report := .none, exh := true }) = true
          · rw [if_pos (by exact ha)]
            exact .exhausted k u s hu hk.1 hc hr ha
          · rw [if_neg (by exact ha)]
            exact .counted k u s hu hk.1 hc hr (by simpa using ha)
        · rename_i hr
          cases h; exact .timedOut k u s hu hk.1 hc hr
        · cases h
        · rename_i hr
          cases h; exact .failed k u s hu hk.1 hc hr
      · rename_i hc
        cases h
        exact .discarded k u s hu hk.1 hc hk.2
    · cases h; exact .none _ s

/-- Everything an event can do (R225, R277, R278). -/
theorem takeEvent_effect {e : Event} {s t : State} (h : takeEvent e s = .next t) : Effect e s t := by
  unfold takeEvent at h
  cases e with
  | host a =>
    simp only [hostMove] at h
    split at h
    · cases h
    · exact hostAccess_effect h
  | tick =>
    simp only at h
    cases h
    split
    · exact .none _ s
    · unfold tickPulse
      split
      · rename_i hc
        exact .ticked _ s hc.1 hc.2
      · exact .none _ s
  | rst level =>
    cases h
    exact .rst level s
  | unit k =>
    simp only at h
    split at h
    · cases h; exact .none _ s
    · exact unitMove_effect h
  | report k =>
    simp only at h
    split at h
    · cases h; exact .none _ s
    · exact reportMove_effect h
  | deadline =>
    simp only at h
    cases h
    split
    · exact .none _ s
    · unfold deadlineMove
      split
      · rename_i hc
        exact .expired s hc.1 hc.2
      · exact .none _ s
  | publish =>
    simp only at h
    cases h
    split
    · exact .none _ s
    · unfold publishMove
      split
      · rename_i hc
        exact .published s hc.1 hc.2
      · exact .none _ s

/-- An enabled move is no host access and no level of `rst`. -/
theorem enabledMoves_inner {s : State} {e : Event} (h : e ∈ enabledMoves s) :
    e = .deadline ∨ e = .publish ∨ (∃ k, e = .unit k) ∨ ∃ k, e = .report k := by
  unfold enabledMoves at h
  split at h
  · cases h
  · rw [List.mem_append, List.mem_append] at h
    rcases h with (h | h) | h
    · obtain ⟨l, hl, he⟩ := List.mem_flatten.1 h
      obtain ⟨k, hk, rfl⟩ := List.mem_mapIdx.1 hl
      unfold unitEvents at he
      rw [List.mem_append] at he
      rcases he with he | he
      · split at he
        · rw [List.mem_singleton] at he; exact .inr (.inr (.inl ⟨k, he⟩))
        · cases he
      · split at he
        · rw [List.mem_singleton] at he; exact .inr (.inr (.inr ⟨k, he⟩))
        · cases he
    · split at h
      · rw [List.mem_singleton] at h; exact .inl h
      · cases h
    · split at h
      · rw [List.mem_singleton] at h; exact .inr (.inl h)
      · cases h

/-- The state an event of a step is taken in: the state itself, but for the agenda and the count of picks. -/
def atEvent (s : State) (agenda : List Event) (picks : Nat) : State :=
  s.withEnv { s.env with agenda := agenda, picks := picks }

/-- Everything a step can do: the next event of the agenda, or an enabled move of the block's own when the agenda is
empty, or nothing when none is enabled (R225, R277, R278, R287). -/
theorem step_effect {s t : State} (h : step s = .next t) :
    (∃ e rest, s.env.agenda = e :: rest ∧ Effect e (atEvent s rest s.env.picks) t) ∨
    (∃ e p, s.env.agenda = [] ∧ e ∈ enabledMoves s ∧ Effect e (atEvent s [] p) t) ∨
    (s.env.agenda = [] ∧ t = s) := by
  unfold step nextStep at h
  split at h
  · rename_i hn
    have hs : ∀ p, s.withEnv { s.env with picks := p } = atEvent s [] p := by
      intro p
      unfold atEvent
      rw [← hn]
    unfold freeMove at h
    split at h
    · cases h; exact .inr (.inr ⟨hn, rfl⟩)
    · rename_i e he
      refine .inr (.inl ⟨e, s.env.picks, hn, by rw [he]; exact List.mem_singleton_self e, ?_⟩)
      rw [← hs]
      exact takeEvent_effect h
    · rename_i e es hne he
      have hlt : Config.pickMove s.env.picks % (e :: es).length < (e :: es).length := Nat.mod_lt _ (Nat.succ_pos _)
      have hm : (e :: es).getD (Config.pickMove s.env.picks % (e :: es).length) e ∈ enabledMoves s := by
        rw [he, List.getD_eq_getElem?_getD, List.getElem?_eq_getElem hlt]
        exact List.getElem_mem hlt
      rw [hs] at h
      exact .inr (.inl ⟨_, _, hn, hm, takeEvent_effect h⟩)
  · rename_i e rest he
    refine .inl ⟨e, rest, he, takeEvent_effect ?_⟩
    exact h

/-! ### What no step changes -/

/-- No event changes the machine's parameters (R7). -/
theorem params_effect {e : Event} {s t : State} (he : Effect e s t) : t.params = s.params := by
  cases he with
  | rst b => cases b <;> rfl
  | _ => rfl

/-- No step changes the machine's parameters (R7). -/
theorem params_step {s t : State} (h : step s = .next t) : t.params = s.params := by
  obtain ⟨e, rest, -, he⟩ | ⟨e, p, -, -, he⟩ | ⟨-, rfl⟩ := step_effect h
  · exact (params_effect he).trans rfl
  · exact (params_effect he).trans rfl
  · rfl

end Machine
end Sys2Proof
end

