-- ==== Sys2Proof/Laws/Flags.lean ====
section
/-! SUPPORT. The STATUS word under each flag rule. -/

namespace Sys2Proof
namespace Machine

/-- Setting or clearing bit 5 of a STATUS word, and the STATUS word of an EXHAUSTED end. -/
theorem statusWord_bits (re : BitVec 4) (dn rj nv : BitVec 1) (co : BitVec 4) :
    (0#20 ++ re ++ 0#1 ++ dn ++ 1#1 ++ nv ++ co : BitVec 32) = (0#20 ++ re ++ 0#1 ++ dn ++ rj ++ nv ++ co : BitVec 32) ||| 0x20#32 ∧
    (0#20 ++ re ++ 0#1 ++ dn ++ 0#1 ++ nv ++ co : BitVec 32) = (0#20 ++ re ++ 0#1 ++ dn ++ rj ++ nv ++ co : BitVec 32) &&& 0xFFFFFFDF#32 ∧
    (0#20 ++ 0#4 ++ 0#1 ++ 1#1 ++ rj ++ 0#1 ++ 3#4 : BitVec 32) = ((0#20 ++ re ++ 0#1 ++ dn ++ rj ++ nv ++ co : BitVec 32) &&& 0x20#32) ||| 0x43#32 := by
  have e4 : ∀ x : BitVec 4, x &&& 0xF#4 = x := fun x => BitVec.and_allOnes
  have e1 : ∀ x : BitVec 1, x &&& 1#1 = x := fun x => BitVec.and_allOnes
  have o1 : ∀ x : BitVec 1, x ||| 1#1 = 1#1 := fun x => BitVec.or_allOnes
  refine ⟨?_, ?_, ?_⟩
  · refine Eq.trans (b := ((0#20 ++ re ++ 0#1 ++ dn ++ rj ++ nv ++ co) ||| (0#20 ++ 0#4 ++ 0#1 ++ 0#1 ++ 1#1 ++ 0#1 ++ 0#4))) ?_ rfl
    rw [BitVec.or_append, BitVec.or_append, BitVec.or_append, BitVec.or_append, BitVec.or_append, BitVec.or_append]
    simp only [o1, BitVec.or_zero]
  · refine Eq.trans (b := ((0#20 ++ re ++ 0#1 ++ dn ++ rj ++ nv ++ co) &&& (0xFFFFF#20 ++ 0xF#4 ++ 1#1 ++ 1#1 ++ 0#1 ++ 1#1 ++ 0xF#4))) ?_ rfl
    rw [BitVec.and_append, BitVec.and_append, BitVec.and_append, BitVec.and_append, BitVec.and_append, BitVec.and_append]
    simp only [e1, e4, BitVec.and_zero, BitVec.zero_and]
  · refine Eq.trans (b := (((0#20 ++ re ++ 0#1 ++ dn ++ rj ++ nv ++ co) &&& (0#20 ++ 0#4 ++ 0#1 ++ 0#1 ++ 1#1 ++ 0#1 ++ 0#4)) ||| (0#20 ++ 0#4 ++ 0#1 ++ 1#1 ++ 0#1 ++ 0#1 ++ 3#4))) ?_ rfl
    rw [BitVec.and_append, BitVec.and_append, BitVec.and_append, BitVec.and_append, BitVec.and_append, BitVec.and_append]
    rw [BitVec.or_append, BitVec.or_append, BitVec.or_append, BitVec.or_append, BitVec.or_append, BitVec.or_append]
    simp only [e1, o1, BitVec.and_zero, BitVec.or_zero, BitVec.zero_or]

/-- A dropped write sets bit 5 (R51). -/
theorem statusWord_reject (st : Status) : statusWord st.reject = statusWord st ||| 0x20#32 :=
  (statusWord_bits _ _ _ _ _).1

/-- An accepted command clears bit 5 (R240). -/
theorem statusWord_accept (st : Status) : statusWord st.accept = statusWord st &&& 0xFFFFFFDF#32 :=
  (statusWord_bits _ _ _ _ _).2.1

/-- `PUBLISH` of EXHAUSTED keeps bit 5 and sets CODE = 3, DONE = 1 (R223). -/
theorem statusWord_publish_exhausted (st : Status) : statusWord (st.publish .exhausted) = (statusWord st &&& 0x20#32) ||| 0x43#32 :=
  (statusWord_bits _ _ _ _ _).2.2

end Machine
end Sys2Proof
end

