-- ==== Sys2Proof/Laws/Operands.lean ====
section
/-! SUPPORT. The two halves of a 64-bit register pair, and what a register write leaves. -/

namespace Sys2Proof
namespace Machine

theorem lowHalf_joinHalves (hi lo : Word) : lowHalf (joinHalves hi lo) = lo := by
  apply BitVec.eq_of_toNat_eq
  have := lo.isLt; have := hi.isLt
  have h := toNat_append_add hi lo
  rw [lowHalf, BitVec.extractLsb'_toNat, joinHalves, h]
  simp; omega

theorem highHalf_joinHalves (hi lo : Word) : (joinHalves hi lo).extractLsb' 32 32 = hi := by
  apply BitVec.eq_of_toNat_eq
  have := lo.isLt; have := hi.isLt
  have h := toNat_append_add hi lo
  rw [BitVec.extractLsb'_toNat, joinHalves, h, Nat.shiftRight_eq_div_pow]
  omega

/-- A pair read back whole (R44, R45, R48). -/
theorem joinHalves_halves (n : Nonce) : joinHalves (highHalf n) (lowHalf n) = n := by
  apply BitVec.eq_of_toNat_eq
  have h := toNat_append_add (highHalf n) (lowHalf n)
  have := n.isLt
  rw [joinHalves, h, highHalf, lowHalf, BitVec.extractLsb'_toNat, BitVec.extractLsb'_toNat, Nat.shiftRight_eq_div_pow]
  simp; omega

/-- A register write touches neither STATUS, nor the digest, nor NONCE (R249). -/
theorem storeReg_fields (off : BitVec 6) (v : Word) (r : HostRegs) :
    (storeReg off v r).status = r.status ∧ (storeReg off v r).digest = r.digest ∧ (storeReg off v r).digestValid =
        r.digestValid ∧
    (storeReg off v r).nonceLo = r.nonceLo ∧ (storeReg off v r).nonceHi = r.nonceHi := by
  unfold storeReg
  split <;> exact ⟨rfl, rfl, rfl, rfl, rfl⟩

end Machine
end Sys2Proof
end

