-- ==== Sys2Proof/Laws/Units.lean ====
section
/-! SUPPORT. What one unit's operations do: starting, the stop check, an evaluation and its verdict; and the lists of
    units. -/

namespace Sys2Proof
namespace Machine

variable {pr : Params}

/-! ### Lists of units -/

theorem getElem?_set_cases {us : List SearchUnit} {k j : Nat} {u v w : SearchUnit} (hk : us[k]? = some u)
    (h : (us.set k w)[j]? = some v) : (j = k ∧ v = w) ∨ (j ≠ k ∧ us[j]? = some v) := by
  rw [List.getElem?_set] at h
  split at h
  · rename_i hj
    split at h
    · left; exact ⟨hj.symm, by simpa using h.symm⟩
    · cases h
  · right; exact ⟨Ne.symm (by assumption), h⟩

theorem getElem?_set_self {us : List SearchUnit} {k : Nat} {u w : SearchUnit} (hu : us[k]? = some u) :
    (us.set k w)[k]? =
    some w := by
  have : k < us.length := by
    by_contra h
    rw [List.getElem?_eq_none (by omega)] at hu; cases hu
  simp [this]

theorem getElem?_stopUnits (U : Nat) (r : Stop) (us : List SearchUnit) (k : Nat) :
  (stopUnits U r us)[k]? = us[k]?.map fun u => if k < U ∧ isTerminal u.ustate = false then { u with stop := r } else
      u := by
  rw [stopUnits, List.getElem?_mapIdx]

theorem getElem?_releaseUnits (U : Nat) (us : List SearchUnit) (k : Nat) :
  (releaseUnits U us)[k]? = us[k]?.map fun u => if k < U then { u with ustate := .idle, stop := .none } else u := by
  rw [releaseUnits, List.getElem?_mapIdx]

theorem getElem?_launchUnits (e : Env) (d : List Byte) (c : Snapshot) (us : List SearchUnit) (k : Nat) :
  (launchUnits pr e d c us)[k]? = us[k]?.map fun u => if k < c.units then unitLaunch pr e d k c.vec c.fb
      (unitRegisters e.searches c k u) else u := by
  rw [launchUnits, List.getElem?_mapIdx]

theorem isTerminal_eq_false_iff (x : UState) : isTerminal x = false ↔ x = .searching ∨ x = .idle := by
  cases x <;> simp [isTerminal]

theorem allExhausted_iff (U : Nat) (us : List SearchUnit) : allExhausted U us = true ↔ ∀ j v, j < U → us[j]? = some v
    → v.exh = true := by
  rw [allExhausted, List.all_eq_true]
  constructor
  · intro h j v hj hv
    exact h v (List.mem_of_getElem? (i := j) (by rw [List.getElem?_take, if_pos hj, hv]))
  · intro h v hv
    obtain ⟨j, hj, rfl⟩ := List.getElem_of_mem hv
    rw [List.length_take] at hj
    rw [List.getElem_take]
    exact h j us[j] (by omega) (List.getElem?_eq_getElem _)

theorem allDrained_iff (U : Nat) (us : List SearchUnit) : allDrained U us = true ↔ ∀ k u, k < U → us[k]? = some u →
    isTerminal u.ustate = true ∧ u.report = .none := by
  rw [allDrained, List.all_eq_true]
  constructor
  · intro h j v hj hv
    have := h v (List.mem_of_getElem? (i := j) (by rw [List.getElem?_take, if_pos hj, hv]))
    simpa using this
  · intro h v hv
    obtain ⟨j, hj, rfl⟩ := List.getElem_of_mem hv
    rw [List.length_take] at hj
    have := h j us[j] (by omega) (List.getElem?_eq_getElem _)
    rw [List.getElem_take]
    simpa using this

/-! ### Reports -/

theorem ustate_of_report_found {u : SearchUnit} (h : UnitConsistent u) (hr : u.report = .found) : u.ustate =
    .found := by
  have := h.1 (by rw [hr]; simp)
  rw [hr] at this
  cases hus : u.ustate <;> rw [hus] at this <;> first | rfl | cases this

theorem ustate_of_report_failed {u : SearchUnit} (h : UnitConsistent u) (hr : u.report = .failed) : u.ustate =
    .failed := by
  have := h.1 (by rw [hr]; simp)
  rw [hr] at this
  cases hus : u.ustate <;> rw [hus] at this <;> first | rfl | cases this

/-! ### Starting -/

/-- What a unit's backend choice answers (R189): the selected backend when it initialises. -/
theorem chooseBackend_selected {e : Env} {k : Nat} {vec : Bool} (fb : Bool)
    (h : ¬ InitFails e e.searches k (selectedBackend vec)) :
    chooseBackend e k vec fb = some (selectedBackend vec) := by
  have h : (e.searches, k, selectedBackend vec) ∉ e.initFails := h
  unfold chooseBackend initOk
  unfold selectedBackend at h ⊢
  simp [h]

/-- The other backend when the selected one fails, the fallback is configured and the other one initialises (R189). -/
theorem chooseBackend_fallback {e : Env} {k : Nat} {vec : Bool}
    (h1 : InitFails e e.searches k (selectedBackend vec)) (h2 : ¬ InitFails e e.searches k (fallbackBackend vec)) :
    chooseBackend e k vec true = some (fallbackBackend vec) := by
  have h1 : (e.searches, k, selectedBackend vec) ∈ e.initFails := h1
  have h2 : (e.searches, k, fallbackBackend vec) ∉ e.initFails := h2
  unfold chooseBackend initOk
  unfold selectedBackend at h1
  unfold fallbackBackend at h2 ⊢
  cases vec <;> simp_all [otherBackend]

/-- No backend exactly when none is usable (R189). -/
theorem chooseBackend_eq_none_iff (e : Env) (k : Nat) (vec fb : Bool) :
    chooseBackend e k vec fb = none ↔ NoUsableBackend e e.searches k vec fb := by
  by_cases h1 : InitFails e e.searches k (selectedBackend vec)
  · cases fb with
    | false =>
      refine ⟨fun _ => ⟨h1, fun h => (nomatch h)⟩, fun _ => ?_⟩
      have h1 : (e.searches, k, selectedBackend vec) ∈ e.initFails := h1
      unfold chooseBackend initOk
      unfold selectedBackend at h1
      simp [h1]
    | true =>
      by_cases h2 : InitFails e e.searches k (fallbackBackend vec)
      · refine ⟨fun _ => ⟨h1, fun _ => h2⟩, fun _ => ?_⟩
        have h1 : (e.searches, k, selectedBackend vec) ∈ e.initFails := h1
        have h2 : (e.searches, k, fallbackBackend vec) ∈ e.initFails := h2
        unfold chooseBackend initOk
        unfold selectedBackend at h1
        unfold fallbackBackend at h2
        cases vec <;> simp_all [otherBackend]
      · rw [chooseBackend_fallback h1 h2]
        exact ⟨fun h => (nomatch h), fun h => absurd (h.2 rfl) h2⟩
  · rw [chooseBackend_selected fb h1]
    exact ⟨fun h => (nomatch h), fun h => absurd h.1 h1⟩

/-- A scalar start (R181). -/
theorem unitStart_scalar (d : List Byte) {u : SearchUnit} (he : u.empty = false) (hb : u.backend = .scalar) :
    unitStart pr d u =
      { u with inp := candidate pr d u.rangeStart, n := u.rangeStart, enc := u.rangeStart, ustate := .searching } := by
  unfold unitStart candidate
  rw [if_neg (by simp [he]), hb]

/-- A vector start (R181). -/
theorem unitStart_vector (d : List Byte) {u : SearchUnit} (he : u.empty = false) (hb : u.backend = .vector) :
    unitStart pr d u =
      { u with
        vin := batchInput pr d (batchBase u.rangeStart), n := batchBase u.rangeStart,
        enc := batchBase u.rangeStart, ustate := .searching } := by
  unfold unitStart batchInput
  rw [if_neg (by simp [he]), hb]

theorem unitStart_exh (d : List Byte) (u : SearchUnit) : (unitStart pr d u).exh = u.exh := by
  unfold unitStart
  split
  · rfl
  split <;> rfl

theorem launch_exh (e : Env) (d : List Byte) (c : Snapshot) (k : Nat) (u : SearchUnit) :
    (unitLaunch pr e d k c.vec c.fb (unitRegisters e.searches c k u)).exh = false := by
  unfold unitLaunch
  split
  · rw [unitStart_exh]; rfl
  split
  · rfl
  · rw [unitStart_exh]; rfl

/-! ### The stop check -/

theorem deadlineExpired_iff (c : Coordinator) : deadlineExpired c = true ↔ c.snap.dl = true ∧ c.snap.limit.toNat ≤
    c.dlCnt.toNat := by
  simp [deadlineExpired]

/-- When a stop check ends the unit, and how (R188). -/
theorem stopCheck_cases {stop : Stop} {e : Bool} {st : UState} (h : stopCheck stop e = some st) :
   (st = .timedOut ∧ (stop = .deadline ∨ stop = .none ∧ e = true)) ∨ (st = .cancelled ∧ stop = .cancel) := by
  unfold stopCheck at h
  split at h
  · split at h
    · cases h; exact .inl ⟨rfl, .inr ⟨rfl, by assumption⟩⟩
    · cases h
  · cases h; exact .inr ⟨rfl, rfl⟩
  · cases h; exact .inl ⟨rfl, .inl rfl⟩

theorem stopCheck_none {stop : Stop} {e : Bool} (h : stopCheck stop e = none) : stop = .none ∧ e = false := by
  unfold stopCheck at h
  split at h
  · split at h
    · cases h
    · rename_i hne; exact ⟨rfl, by simpa using hne⟩
  · cases h
  · cases h

theorem unitStep_stopped {e : Bool} {u : SearchUnit} {st : UState} (h : stopCheck u.stop e = some st) : unitStep pr e
    u = .ok (terminate u st) := by
  unfold unitStep scalarStep vectorStep
  cases u.backend <;> simp only [h]

/-! ### Verdicts -/

theorem scalarVerdict_found {H : TritState} {u : SearchUnit} (h : hit H u.tz = true) : scalarVerdict pr H u = terminate
    { u with result := u.n } .found := by
  rw [scalarVerdict, if_pos h]

theorem scalarVerdict_end {H : TritState} {u : SearchUnit} (h : hit H u.tz = false) (h2 : u.n = u.rangeEnd) :
    scalarVerdict pr H u = terminate u .exhausted := by
  rw [scalarVerdict, if_neg (by simp [h]), if_pos h2]

theorem scalarVerdict_next {H : TritState} {u : SearchUnit} (h : hit H u.tz = false) (h2 : u.n ≠ u.rangeEnd) :
    scalarVerdict pr H u = scalarAdvance pr u := by
  rw [scalarVerdict, if_neg (by simp [h]), if_neg h2]

theorem vectorVerdict_some {V : VectorState} {u : SearchUnit} {w : Nonce}
    (h : vSelect u.n (vZmask V u.tz) (vRmask u.n u.rangeStart u.rangeEnd) = some w) :
    vectorVerdict pr V u = terminate { u with result := w } .found := by
  rw [vectorVerdict, h]

theorem vectorVerdict_end {V : VectorState} {u : SearchUnit} (h : vSelect u.n (vZmask V u.tz)
    (vRmask u.n u.rangeStart u.rangeEnd) = none)
    (he : u.rangeEnd.toNat ≤ u.n.toNat + 15) : vectorVerdict pr V u = terminate u .exhausted := by
  rw [vectorVerdict, h]; exact if_pos he

theorem vectorVerdict_next {V : VectorState} {u : SearchUnit}
    (h : vSelect u.n (vZmask V u.tz) (vRmask u.n u.rangeStart u.rangeEnd) = none)
    (he : ¬ u.rangeEnd.toNat ≤ u.n.toNat + 15) : vectorVerdict pr V u = vectorAdvance pr u := by
  rw [vectorVerdict, h]; exact if_neg he

/-- What no evaluation step changes. -/
def KeepsParameters (u u' : SearchUnit) : Prop :=
  u'.stop = u.stop ∧ u'.exh = u.exh ∧ u'.rangeStart = u.rangeStart ∧ u'.rangeEnd = u.rangeEnd ∧ u'.tz = u.tz ∧
    u'.empty = u.empty ∧ u'.fb = u.fb ∧ u'.backend = u.backend

theorem scalarVerdict_cases (H : TritState) (u : SearchUnit) : KeepsParameters u (scalarVerdict pr H u) ∧
   ((scalarVerdict pr H u).ustate = u.ustate ∧ (scalarVerdict pr H u).report = u.report ∨ (scalarVerdict pr H u).ustate =
       .found ∧ (scalarVerdict pr H u).report = .found ∨ (scalarVerdict pr H u).ustate = .exhausted ∧
       (scalarVerdict pr H u).report = .exhausted) := by
  unfold scalarVerdict
  split
  · exact ⟨⟨rfl, rfl, rfl, rfl, rfl, rfl, rfl, rfl⟩, .inr (.inl ⟨rfl, rfl⟩)⟩
  split
  · exact ⟨⟨rfl, rfl, rfl, rfl, rfl, rfl, rfl, rfl⟩, .inr (.inr ⟨rfl, rfl⟩)⟩
  · exact ⟨⟨rfl, rfl, rfl, rfl, rfl, rfl, rfl, rfl⟩, .inl ⟨rfl, rfl⟩⟩

theorem vectorVerdict_cases (V : VectorState) (u : SearchUnit) : KeepsParameters u (vectorVerdict pr V u) ∧
   ((vectorVerdict pr V u).ustate = u.ustate ∧ (vectorVerdict pr V u).report = u.report ∨ (vectorVerdict pr V u).ustate =
       .found ∧ (vectorVerdict pr V u).report = .found ∨ (vectorVerdict pr V u).ustate = .exhausted ∧
       (vectorVerdict pr V u).report = .exhausted) := by
  unfold vectorVerdict
  split
  · exact ⟨⟨rfl, rfl, rfl, rfl, rfl, rfl, rfl, rfl⟩, .inr (.inl ⟨rfl, rfl⟩)⟩
  split
  · exact ⟨⟨rfl, rfl, rfl, rfl, rfl, rfl, rfl, rfl⟩, .inr (.inr ⟨rfl, rfl⟩)⟩
  · exact ⟨⟨rfl, rfl, rfl, rfl, rfl, rfl, rfl, rfl⟩, .inl ⟨rfl, rfl⟩⟩

/-- Everything an evaluation step can do to a unit's state, report and parameters (R182, R185, R188). -/
theorem unitStep_summary {e : Bool} {u u' : SearchUnit} (h : unitStep pr e u = .ok u') : KeepsParameters u u' ∧
   ((∃ st, stopCheck u.stop e = some st ∧ u' = terminate u st) ∨
    (stopCheck u.stop e = none ∧ (u'.ustate = u.ustate ∧ u'.report = u.report ∨ u'.ustate = .found ∧ u'.report =
        .found ∨ u'.ustate = .exhausted ∧ u'.report = .exhausted))) := by
  unfold unitStep at h
  split at h
  · unfold scalarStep at h
    split at h
    · rename_i st hst
      cases h; exact ⟨⟨rfl, rfl, rfl, rfl, rfl, rfl, rfl, rfl⟩, .inl ⟨st, hst, rfl⟩⟩
    · rename_i hst
      split at h
      · cases h
      · rename_i k hk
        cases h
        obtain ⟨h1, h2⟩ := scalarVerdict_cases k.current (withScalarKernel u k)
        exact ⟨h1, .inr ⟨hst, h2⟩⟩
  · unfold vectorStep at h
    split at h
    · rename_i st hst
      cases h; exact ⟨⟨rfl, rfl, rfl, rfl, rfl, rfl, rfl, rfl⟩, .inl ⟨st, hst, rfl⟩⟩
    · rename_i hst
      split at h
      · cases h
      · rename_i k hk
        cases h
        obtain ⟨h1, h2⟩ := vectorVerdict_cases k.current (withVectorKernel u k)
        exact ⟨h1, .inr ⟨hst, h2⟩⟩

theorem toNat_add_16 {n : Nonce} (h : n.toNat + 16 < 2 ^ 64) : (n + 16).toNat = n.toNat + 16 := by
  rw [BitVec.toNat_add]; exact Nat.mod_eq_of_lt h

/-- An evaluation step that goes on advances the counter, without a wrap below the end (R182, R185, R187). -/
theorem unitStep_progress {e : Bool} {u u' : SearchUnit} (h : unitStep pr e u = .ok u') :
    isTerminal u'.ustate = true ∨ u'.ustate = u.ustate ∧ u'.n = u.n + (if u.backend = .scalar then 1 else 16) ∧
      (u.n.toNat ≤ u.rangeEnd.toNat → u'.n.toNat = u.n.toNat + (if u.backend = .scalar then 1 else 16)) := by
  unfold unitStep at h
  split at h
  · rename_i hb
    rw [hb]
    unfold scalarStep at h
    split at h
    · rename_i st hst
      cases h
      rcases stopCheck_cases hst with ⟨rfl, -⟩ | ⟨rfl, -⟩ <;> exact .inl rfl
    · split at h
      · cases h
      · rename_i k hk
        cases h
        unfold scalarVerdict
        split
        · exact .inl rfl
        split
        · exact .inl rfl
        · rename_i hne
          refine .inr ⟨rfl, rfl, fun hle => ?_⟩
          have hne : u.n ≠ u.rangeEnd := hne
          have : u.n.toNat ≠ u.rangeEnd.toNat := fun e => hne (BitVec.eq_of_toNat_eq e)
          have := u.rangeEnd.isLt
          change (u.n + 1).toNat = _
          rw [BitVec.toNat_add]; exact Nat.mod_eq_of_lt (by change u.n.toNat + 1 < _; omega)
  · rename_i hb
    rw [hb]
    unfold vectorStep at h
    split at h
    · rename_i st hst
      cases h
      rcases stopCheck_cases hst with ⟨rfl, -⟩ | ⟨rfl, -⟩ <;> exact .inl rfl
    · split at h
      · cases h
      · rename_i k hk
        cases h
        unfold vectorVerdict
        split
        · exact .inl rfl
        split
        · exact .inl rfl
        · rename_i hne
          refine .inr ⟨rfl, rfl, fun hle => ?_⟩
          have hne : ¬ u.rangeEnd.toNat ≤ u.n.toNat + 15 := hne
          have := u.rangeEnd.isLt
          exact toNat_add_16 (by omega)

/-! ### Evaluations -/

/-- A scalar evaluation of an input of trits (R182). -/
theorem scalarStep_eval {u : SearchUnit} (hst : u.stop = .none) (hv : ∀ c ∈ u.inp, validCell c = true) :
    ∃ k, transform u.inp u.bufB = .ok k ∧ k.current = transformCells u.inp ∧ scalarStep pr false u = .ok
        (scalarVerdict pr (transformCells u.inp) (withScalarKernel u k)) := by
  obtain ⟨k, e, e1, -⟩ := transform_valid hv u.bufB
  refine ⟨k, e, e1, ?_⟩
  rw [scalarStep, hst]
  simp only [stopCheck, Bool.false_eq_true, if_false, e, e1]

/-- A batch evaluation of an input of trits (R185). -/
theorem vectorStep_eval {u : SearchUnit} (hst : u.stop = .none) (hv : LanesValid u.vin) (hl : u.vin.length = 729) :
    ∃ k, vTransform u.vin u.vb = .ok k ∧ k.current = vRoundCells^[81] u.vin ∧ vectorStep pr false u = .ok
        (vectorVerdict pr (vRoundCells^[81] u.vin) (withVectorKernel u k)) := by
  obtain ⟨k, e, e1, -⟩ := vTransform_valid hv hl u.vb
  refine ⟨k, e, e1, ?_⟩
  rw [vectorStep, hst]
  simp only [stopCheck, Bool.false_eq_true, if_false, e, e1]

end Machine
end Sys2Proof
end

