-- ==== Sys2Proof/Laws/Memory.lean ====
section
/-! SUPPORT. The canonical form of the byte arrays: every operation, and so every step, keeps `Memory.wf`; what a step
can do to a property of the units' buffers, said once. -/

namespace Sys2Proof
namespace Machine

variable {pr : Params}

/-! ### Lists of units -/

theorem forall_units_set {Q : SearchUnit → Prop} {us : List SearchUnit} (h : ∀ u ∈ us, Q u) (k : Nat) {v : SearchUnit}
    (hv : Q v) : ∀ u ∈ us.set k v, Q u := by
  intro x hx
  rcases List.mem_or_eq_of_mem_set hx with hx | rfl
  · exact h x hx
  · exact hv

theorem forall_units_mapIdx {Q : SearchUnit → Prop} {us : List SearchUnit} (h : ∀ u ∈ us, Q u)
    {f : Nat → SearchUnit → SearchUnit} (hf : ∀ k u, Q u → Q (f k u)) : ∀ u ∈ us.mapIdx f, Q u := by
  intro x hx
  obtain ⟨k, hk, rfl⟩ := List.mem_mapIdx.1 hx
  exact hf _ _ (h _ (List.getElem_mem hk))

/-! ### What an event does to the units' buffers -/

/-- Two units hold the same buffers (R22, R23, R25, R26). -/
def SameBuffers (u v : SearchUnit) : Prop :=
  v.inp = u.inp ∧ v.bufA = u.bufA ∧ v.bufB = u.bufB ∧ v.vin = u.vin ∧ v.va = u.va ∧ v.vb = u.vb

/-- A property of the units' buffers that reset has, that launching keeps and that an evaluation keeps, is kept by every
event: nothing else writes a buffer (R22–R26, R72). -/
theorem forall_units_effect {Q : SearchUnit → Prop} (hreset : Q SearchUnit.reset)
    (hsame : ∀ u v, SameBuffers u v → Q u → Q v)
    (hlaunch : ∀ pr e d c k u, Q u → Q (unitLaunch pr e d k c.vec c.fb (unitRegisters e.searches c k u)))
    (hstep : ∀ pr x u u', Q u → unitStep pr x u = .ok u' → Q u') {e : Event} {s t : State} (he : Effect e s t)
    (hu : ∀ u ∈ s.units, Q u) : ∀ u ∈ t.units, Q u := by
  have hrel : ∀ {us : List SearchUnit} (U : Nat), (∀ u ∈ us, Q u) → ∀ u ∈ releaseUnits U us, Q u := fun U h =>
    forall_units_mapIdx h fun k u hq => by
      split
      · exact hsame u _ ⟨rfl, rfl, rfl, rfl, rfl, rfl⟩ hq
      · exact hq
  have hstop : ∀ {us : List SearchUnit} (U : Nat) (r : Stop), (∀ u ∈ us, Q u) → ∀ u ∈ stopUnits U r us, Q u :=
    fun U r h => forall_units_mapIdx h fun k u hq => by
      split
      · exact hsame u _ ⟨rfl, rfl, rfl, rfl, rfl, rfl⟩ hq
      · exact hq
  have hcons : ∀ {k : Nat} {u : SearchUnit}, s.units[k]? = some u →
      ∀ v ∈ s.units.set k { u with report := .none }, Q v := fun {k u} h =>
    forall_units_set hu k (hsame u _ ⟨rfl, rfl, rfl, rfl, rfl, rfl⟩ (hu u (List.mem_of_getElem? h)))
  have hrec : ∀ {k : Nat} {u : SearchUnit}, s.units[k]? = some u →
      ∀ v ∈ s.units.set k { u with report := .none, exh := true }, Q v := fun {k u} h =>
    forall_units_set hu k (hsame u _ ⟨rfl, rfl, rfl, rfl, rfl, rfl⟩ (hu u (List.mem_of_getElem? h)))
  cases he with
  | none => exact hu
  | rst b =>
    cases b
    · exact hu
    · intro u h
      have h : u ∈ List.replicate s.units.length SearchUnit.reset := h
      rw [List.eq_of_mem_replicate h]; exact hreset
  | returned => exact hu
  | rejected => exact hu
  | accepted => exact hu
  | illegal => exact hu
  | digest => exact hu
  | stored => exact hu
  | invalid => exact hu
  | zeroDeadline => exact hrel _ hu
  | launched a c =>
    exact forall_units_mapIdx hu fun k u hq => by
      split
      · exact hlaunch _ _ _ _ _ _ hq
      · exact hq
  | cancelled => exact hstop _ _ hu
  | ticked => exact hu
  | evaluated k u u' _ h1 h2 h3 => exact forall_units_set hu k (hstep _ _ u u' (hu u (List.mem_of_getElem? h1)) h3)
  | found k u _ h1 => exact hstop _ _ (hcons h1)
  | timedOut k u _ h1 => exact hstop _ _ (hcons h1)
  | failed k u _ h1 => exact hstop _ _ (hcons h1)
  | counted k u _ h1 => exact hrec h1
  | exhausted k u _ h1 => exact hrel _ (hrec h1)
  | discarded k u _ h1 => exact hcons h1
  | expired => exact hstop _ _ hu
  | published => exact hrel _ hu

/-- The digest register file keeps its 32 bytes (R39). -/
theorem length_digest_effect {e : Event} {s t : State} (he : Effect e s t) (h : s.regs.digest.length = 32) :
    t.regs.digest.length = 32 := by
  cases he with
  | rst b =>
    cases b
    · exact h
    · exact List.length_replicate
  | digest a idx val => exact List.length_set.trans h
  | stored a off v => rw [State.withRegs_regs, (storeReg_fields off v s.regs).2.1]; exact h
  | _ => exact h

/-- What every event keeps, whatever the agenda and the count of picks, every step keeps. -/
theorem step_preserves {I : State → Prop} (hI : ∀ s agenda picks, I s → I (atEvent s agenda picks))
    (hE : ∀ e s t, Effect e s t → I s → I t) {s t : State} (h : step s = .next t) (hs : I s) : I t := by
  rcases step_effect h with ⟨e, rest, -, he⟩ | ⟨e, p, -, -, he⟩ | ⟨-, rfl⟩
  · exact hE _ _ _ he (hI _ _ _ hs)
  · exact hE _ _ _ he (hI _ _ _ hs)
  · exact hs

/-! ### Sizes -/

/-- A full scalar buffer (R69). -/
theorem tritStateWf_iff (S : TritState) : tritStateWf S = true ↔ S.length = 729 := by simp [tritStateWf, Config.stateLength]

/-- A full vector buffer (R69). -/
theorem vectorStateWf_iff (V : VectorState) : vectorStateWf V = true ↔ V.length = 729 ∧ ∀ g ∈ V, g.length = 16 := by
  simp [vectorStateWf, Config.stateLength, Config.lanes]

/-- Every buffer of a unit has its size, as lengths (R69). -/
def UnitSizes (u : SearchUnit) : Prop :=
  u.inp.length = 729 ∧ u.bufA.length = 729 ∧ u.bufB.length = 729 ∧ (u.vin.length = 729 ∧ ∀ g ∈ u.vin, g.length = 16) ∧
    (u.va.length = 729 ∧ ∀ g ∈ u.va, g.length = 16) ∧ (u.vb.length = 729 ∧ ∀ g ∈ u.vb, g.length = 16)

theorem buffersWf_iff (u : SearchUnit) : u.buffersWf = true ↔ UnitSizes u := by
  simp only [SearchUnit.buffersWf, Bool.and_eq_true, tritStateWf_iff, vectorStateWf_iff, UnitSizes]
  tauto

theorem memoryWf_iff (s : State) : Memory.wf s = true ↔ s.regs.digest.length = 32 ∧ ∀ u ∈ s.units, UnitSizes u := by
  simp [Memory.wf, buffersWf_iff, Config.digestBytes]

theorem roundLoop_length {src : TritState} (count : Nat) : ∀ {idx last : Nat} {ts : TritState},
    roundLoop src count idx = .ok (ts, last) → ts.length = count := by
  induction count with
  | zero => intro idx last ts h; cases h; rfl
  | succ count ih =>
    intro idx last ts h
    rw [roundLoop] at h
    split at h
    · cases h
    split at h
    · cases h
    · rename_i ts' last' h'
      cases h
      rw [List.length_cons, ih h']

theorem round_length {src dst : TritState} {last : Nat} (h : round src = .ok (dst, last)) : dst.length = 729 := by
  unfold round at h
  exact roundLoop_length _ h

theorem pingPong_length (r : Nat) : ∀ {k o : KernelOut TritState}, k.current.length = 729 → k.other.length = 729 →
    pingPong r k = .ok o → o.current.length = 729 ∧ o.other.length = 729 := by
  induction r with
  | zero => intro k o h1 h2 h; cases h; exact ⟨h1, h2⟩
  | succ r ih =>
    intro k o h1 h2 h
    rw [pingPong] at h
    split at h
    · cases h
    · rename_i dst last hr
      exact ih (round_length hr) h1 h

theorem transform_length {inp b : TritState} {o : KernelOut TritState} (hb : b.length = 729)
    (h : transform inp b = .ok o) : o.current.length = 729 ∧ o.other.length = 729 := by
  unfold transform at h
  split at h
  · cases h
  · rename_i dst last hr
    exact pingPong_length _ (round_length hr) hb h

/-- The groups of a full vector buffer, at any position below 729. -/
theorem length_group {V : VectorState} (hl : V.length = 729) (hg : ∀ g ∈ V, g.length = 16) {i : Nat} (hi : i < 729) :
    (V.getD i []).length = 16 := by
  rw [List.getD_eq_getElem?_getD, List.getElem?_eq_getElem (by omega)]
  exact hg _ (List.getElem_mem _)

theorem vRoundLoop_length {src : VectorState} (hl : src.length = 729) (hg : ∀ g ∈ src, g.length = 16) (count : Nat) :
    ∀ {idx last : Nat} {gs : VectorState}, idx < 729 → vRoundLoop src count idx = .ok (gs, last) →
      gs.length = count ∧ ∀ g ∈ gs, g.length = 16 := by
  induction count with
  | zero => intro idx last gs _ h; cases h; exact ⟨rfl, fun _ h => absurd h List.not_mem_nil⟩
  | succ count ih =>
    intro idx last gs hi h
    have hi' := cursorAdvance_lt hi
    rw [vRoundLoop] at h
    split at h
    · cases h
    rename_i g hv
    have hg16 : g.length = 16 := by
      unfold vLookup at hv
      split at hv
      · cases hv
        rw [List.length_map, laneIndices, List.length_zipWith, length_group hl hg hi, length_group hl hg hi']
        rfl
      · cases hv
    split at h
    · cases h
    · rename_i gs' last' h'
      cases h
      obtain ⟨a, b⟩ := ih hi' h'
      exact ⟨by rw [List.length_cons, a], fun x hx => (List.mem_cons.1 hx).elim (fun e => e ▸ hg16) (b x)⟩

theorem vRound_length {src dst : VectorState} {last : Nat} (hs : src.length = 729 ∧ ∀ g ∈ src, g.length = 16)
    (h : vRound src = .ok (dst, last)) : dst.length = 729 ∧ ∀ g ∈ dst, g.length = 16 := by
  unfold vRound at h
  exact vRoundLoop_length hs.1 hs.2 _ (Nat.succ_pos _) h

theorem vPingPong_length (r : Nat) : ∀ {k o : KernelOut VectorState},
    (k.current.length = 729 ∧ ∀ g ∈ k.current, g.length = 16) → (k.other.length = 729 ∧ ∀ g ∈ k.other, g.length = 16) →
    vPingPong r k = .ok o →
      (o.current.length = 729 ∧ ∀ g ∈ o.current, g.length = 16) ∧ (o.other.length = 729 ∧ ∀ g ∈ o.other, g.length = 16) := by
  induction r with
  | zero => intro k o h1 h2 h; cases h; exact ⟨h1, h2⟩
  | succ r ih =>
    intro k o h1 h2 h
    rw [vPingPong] at h
    split at h
    · cases h
    · rename_i dst last hr
      exact ih (vRound_length h1 hr) h1 h

theorem vTransform_length {vin b : VectorState} {o : KernelOut VectorState}
    (hv : vin.length = 729 ∧ ∀ g ∈ vin, g.length = 16) (hb : b.length = 729 ∧ ∀ g ∈ b, g.length = 16)
    (h : vTransform vin b = .ok o) :
    (o.current.length = 729 ∧ ∀ g ∈ o.current, g.length = 16) ∧ (o.other.length = 729 ∧ ∀ g ∈ o.other, g.length = 16) := by
  unfold vTransform at h
  split at h
  · cases h
  · rename_i dst last hr
    exact vPingPong_length _ (vRound_length hv hr) hb h

theorem unitSizes_reset : UnitSizes SearchUnit.reset := by
  have hv : zeroVector.length = 729 ∧ ∀ g ∈ zeroVector, g.length = 16 :=
    ⟨List.length_replicate, fun g hg => by rw [List.eq_of_mem_replicate hg]; exact List.length_replicate⟩
  exact ⟨length_zeroState, length_zeroState, length_zeroState, hv, hv, hv⟩

theorem unitSizes_same {u v : SearchUnit} (h : SameBuffers u v) (hu : UnitSizes u) : UnitSizes v := by
  obtain ⟨h1, h2, h3, h4, h5, h6⟩ := h
  simpa only [UnitSizes, h1, h2, h3, h4, h5, h6] using hu

theorem unitSizes_withInp {u : SearchUnit} (h : UnitSizes u) {S : TritState} (hS : S.length = 729) (x y : Nonce)
    (st : UState) : UnitSizes { u with inp := S, n := x, enc := y, ustate := st } := ⟨hS, h.2⟩

theorem unitSizes_withVin {u : SearchUnit} (h : UnitSizes u) {V : VectorState}
    (hV : V.length = 729 ∧ ∀ g ∈ V, g.length = 16) (x y : Nonce) (st : UState) :
    UnitSizes { u with vin := V, n := x, enc := y, ustate := st } := ⟨h.1, h.2.1, h.2.2.1, hV, h.2.2.2.2⟩

theorem unitSizes_start (d : List Byte) {u : SearchUnit} (h : UnitSizes u) : UnitSizes (unitStart pr d u) := by
  unfold unitStart
  split
  · exact h
  split
  · exact unitSizes_withInp h (S := candidate pr d u.rangeStart) (length_candidate _ _) _ _ _
  · exact unitSizes_withVin h (V := batchInput pr d (batchBase u.rangeStart)) (groups_batch _ _) _ _ _

theorem unitSizes_launch (e : Env) (d : List Byte) (c : Snapshot) (k : Nat) {u : SearchUnit} (h : UnitSizes u) :
    UnitSizes (unitLaunch pr e d k c.vec c.fb (unitRegisters e.searches c k u)) := by
  unfold unitLaunch
  split
  · exact unitSizes_start d (u := unitRegisters e.searches c k u) h
  split
  · exact h
  · rename_i b _
    exact unitSizes_start d (u := { (unitRegisters e.searches c k u) with backend := b }) h

theorem unitSizes_scalarVerdict (H : TritState) {u : SearchUnit} (h : UnitSizes u) : UnitSizes (scalarVerdict pr H u) := by
  unfold scalarVerdict
  split
  · exact h
  split
  · exact h
  · exact ⟨by rw [scalarAdvance_inp, length_encodeNonce]; exact h.1, h.2⟩

theorem unitSizes_vectorVerdict (V : VectorState) {u : SearchUnit} (h : UnitSizes u) :
    UnitSizes (vectorVerdict pr V u) := by
  unfold vectorVerdict
  split
  · exact h
  split
  · exact h
  · exact ⟨h.1, h.2.1, h.2.2.1, ⟨by rw [vectorAdvance_vin, length_vEncodeNonce]; exact h.2.2.2.1.1,
      groups_vEncodeNonce _ _ _ _ _ h.2.2.2.1.2⟩, h.2.2.2.2⟩

theorem unitSizes_step (x : Bool) {u u' : SearchUnit} (h : UnitSizes u) (hs : unitStep pr x u = .ok u') : UnitSizes u' := by
  unfold unitStep at hs
  split at hs
  · unfold scalarStep at hs
    split at hs
    · cases hs; exact h
    split at hs
    · cases hs
    · rename_i k hk
      cases hs
      obtain ⟨a, b⟩ := transform_length h.2.2.1 hk
      exact unitSizes_scalarVerdict _ (u := withScalarKernel u k) ⟨h.1, a, b, h.2.2.2⟩
  · unfold vectorStep at hs
    split at hs
    · cases hs; exact h
    split at hs
    · cases hs
    · rename_i k hk
      cases hs
      obtain ⟨a, b⟩ := vTransform_length h.2.2.2.1 h.2.2.2.2.2 hk
      exact unitSizes_vectorVerdict _ (u := withVectorKernel u k) ⟨h.1, h.2.1, h.2.2.1, h.2.2.2.1, a, b⟩

/-! ### Every operation keeps the form, and reset has it -/

/-- Every event keeps the canonical form (R39, R69). -/
theorem memoryWf_effect {e : Event} {s t : State} (he : Effect e s t) (h : Memory.wf s = true) : Memory.wf t = true := by
  rw [memoryWf_iff] at h ⊢
  exact ⟨length_digest_effect he h.1, forall_units_effect unitSizes_reset (fun _ _ => unitSizes_same)
    (fun _ _ _ _ _ _ => unitSizes_launch _ _ _ _) (fun _ x _ _ => unitSizes_step x) he h.2⟩

/-- Every step keeps the canonical form (R39, R69). -/
theorem memoryWf_step {s t : State} (h : Memory.wf s = true) (hs : step s = .next t) : Memory.wf t = true :=
  step_preserves (I := fun s => Memory.wf s = true) (fun _ _ _ h => h) (fun _ _ _ => memoryWf_effect) hs h

/-- The reset state has the canonical form (R54). -/
theorem memoryWf_reset : Memory.wf State.reset = true := by
  rw [memoryWf_iff]
  refine ⟨List.length_replicate, fun u h => ?_⟩
  have h : u ∈ List.replicate Config.maxUnits SearchUnit.reset := h
  rw [List.eq_of_mem_replicate h]; exact unitSizes_reset

end Machine
end Sys2Proof
end

