-- ==== Sys2Proof/Laws/Partition.lean ====
section
/-! SUPPORT. The bounds of the parts of a range (spec/44_coordinator.md R212) and of a batch's base
    (spec/42_vector_kernel.md R160). -/

namespace Sys2Proof
namespace Machine

/-- The end of a non-empty part is no free value (R212). -/
theorem partEnd_of_nonempty {c : Snapshot} {k : Nat} (h : partEmpty c k = false) (q q' : Nat) : partEnd q c k =
    partEnd
    q' c k := by
  unfold partEnd
  split
  · rename_i hk
    rw [if_neg, if_neg]
    all_goals
      simp [partEmpty, hk] at h
      have : 0 < (k + 1) * partSize c := Nat.mul_pos (by omega) (by omega)
      omega
  · rfl

/-- Start, end and size of a non-empty part, as exact numbers (R212). -/
theorem part_bounds (c : Snapshot) (q : Nat) (h2 : c.min.toNat ≤ c.max.toNat) (k : Nat)
    (hk : k < c.units) (he : partEmpty c k = false) :
   (partStart c k).toNat = c.min.toNat + k * partSize c ∧
   (partEnd q c k).toNat + 1 = (if k + 1 < c.units then c.min.toNat + (k + 1) * partSize c else c.max.toNat + 1) ∧
   (k + 1 < c.units → 0 < partSize c) ∧ c.units * partSize c ≤ c.max.toNat + 1 - c.min.toNat := by
  have hL : c.units * partSize c ≤ c.max.toNat + 1 - c.min.toNat := by
    unfold partSize rangeLength; exact Nat.mul_div_le _ _
  have hmax := c.max.isLt
  have hkU : k * partSize c ≤ c.units * partSize c := Nat.mul_le_mul_right _ (by omega)
  have hk1U : (k + 1) * partSize c ≤ c.units * partSize c := Nat.mul_le_mul_right _ (by omega)
  have hpos : k + 1 < c.units → 0 < partSize c := by
    intro h
    simp [partEmpty, h] at he; omega
  have hst : (partStart c k).toNat = c.min.toNat + k * partSize c := by
    rw [partStart, BitVec.toNat_ofNat]
    apply Nat.mod_eq_of_lt
    by_cases hl : k + 1 < c.units
    · have := hpos hl
      have : (k + 1) * partSize c = k * partSize c + partSize c := Nat.succ_mul _ _
      omega
    · -- last unit: k * size ≤ L - ... need start ≤ max
      have hk' : k = c.units - 1 := by omega
      by_cases hs0 : partSize c = 0
      · rw [hs0]; omega
      · have : (k + 1) * partSize c = k * partSize c + partSize c := Nat.succ_mul _ _
        omega
  refine ⟨hst, ?_, hpos, hL⟩
  unfold partEnd
  split
  · rename_i hl
    have hp := hpos hl
    have : (k + 1) * partSize c = k * partSize c + partSize c := Nat.succ_mul _ _
    have h2U : (k + 2) * partSize c ≤ c.units * partSize c := Nat.mul_le_mul_right _ (by omega)
    have : (k + 2) * partSize c = (k + 1) * partSize c + partSize c := Nat.succ_mul _ _
    rw [if_neg (by omega), BitVec.toNat_ofNat, Nat.mod_eq_of_lt (by omega)]; omega
  · rfl

/-- The base of the batch that holds a nonce (R160). -/
theorem batchBase_bounds (n : Nonce) : (batchBase n).toNat % 16 = 0 ∧ (batchBase n).toNat ≤ n.toNat ∧ n.toNat ≤
    (batchBase n).toNat + 15 := by
  have e : (batchBase n).toNat = n.toNat / 16 * 16 := by
    have : batchBase n = (n >>> 4) <<< 4 := by
      apply BitVec.eq_of_getLsbD_eq
      intro i hi
      simp only [batchBase, BitVec.getLsbD_and, BitVec.getLsbD_not, BitVec.getLsbD_shiftLeft,
          BitVec.getLsbD_ushiftRight]
      by_cases h : i < 4
      · interval_cases i <;> simp
      · have h15 : (0xF#64).getLsbD i = false := by
          rw [BitVec.getLsbD_ofNat]
          have : Nat.testBit 15 i = false := Nat.testBit_lt_two_pow
              (Nat.lt_of_lt_of_le (by decide : 15 < 2 ^ 4) (Nat.pow_le_pow_right (by omega) (by omega)))
          simp [this]
        rw [h15]
        have : 4 + (i - 4) = i := by omega
        simp [h, hi, this]
    rw [this, BitVec.toNat_shiftLeft, BitVec.toNat_ushiftRight, Nat.shiftRight_eq_div_pow, Nat.shiftLeft_eq]
    have := n.isLt
    omega
  rw [e]; omega

end Machine
end Sys2Proof
end

