-- ==== Sys2Proof/Laws/PerInstr.lean ====
section
/-! SUPPORT. One law for each instruction as syntax: the access its encoding makes is one the port admits (spec/20_memory.md
R60): 32 bits wide, inside the window, at a multiple of 4. -/

namespace Sys2Proof
namespace Laws
namespace EncodeAdmitted

/-- The access that encodes an instruction is admitted by the port (R60). -/
def Statement (i : Instr) : Prop :=
  match encode i with
  | .read width off => width = 32 ∧ off < 0x100 ∧ off % 4 = 0
  | .write width off _ => width = 32 ∧ off < 0x100 ∧ off % 4 = 0

theorem nop : Statement .nop := ⟨rfl, by decide, rfl⟩

theorem setDigestByte (idx : BitVec 5) (val : Byte) : Statement (.setDigestByte idx val) := ⟨rfl, by decide, rfl⟩

theorem runSearch (tz : BitVec 8) (vec : Bool) : Statement (.runSearch tz vec) := ⟨rfl, by decide, rfl⟩

theorem search (tz units : BitVec 8) (dl vec fb : Bool) : Statement (.search tz units dl vec fb) := ⟨rfl, by decide, rfl⟩

theorem cancel : Statement .cancel := ⟨rfl, by decide, rfl⟩

theorem rd (off : BitVec 6) : Statement (.rd off) := ⟨rfl, byteOffset_lt off, Nat.mul_mod_right 4 _⟩

theorem wr (off : BitVec 6) (v : Word) : Statement (.wr off v) := ⟨rfl, byteOffset_lt off, Nat.mul_mod_right 4 _⟩

theorem readNonceLo : Statement .readNonceLo := ⟨rfl, by decide, rfl⟩

theorem readNonceHi : Statement .readNonceHi := ⟨rfl, by decide, rfl⟩

end EncodeAdmitted
end Laws
end Sys2Proof
end

