-- ==== Sys2Proof/Laws/Run.lean ====
section
/-! SUPPORT. Runs of the machine, one step at a time. -/

namespace Sys2Proof
namespace Machine

/-- A run that ends in a fault faults in its first step, or after it. -/
theorem run_fault_cases {M : Host.Core} {n : Nat} {s : M.State} {f : M.Fault} (h : M.run (n + 1) s = .fault f) :
    M.step s = .fault f ∨ ∃ t, M.step s = .next t ∧ M.run n t = .fault f := by
  unfold Host.Core.run at h
  split at h
  · rename_i t hs
    exact .inr ⟨t, hs, h⟩
  · rename_i g hs
    cases h
    exact .inl hs
  · cases h

/-- The same of this machine, in its own names. -/
theorem core_run_fault {n : Nat} {s : State} {f : Fault} (h : core.run (n + 1) s = .fault f) :
    step s = .fault f ∨ ∃ t : State, step s = .next t ∧ core.run n t = .fault f :=
  run_fault_cases (M := core) h

/-- A run of no step does not fault. -/
theorem core_run_zero {s : State} {f : Fault} : core.run 0 s ≠ .fault f := by
  intro h
  have h' : Host.Outcome.next (ρ := Refusal) s = .fault f := h
  cases h'

end Machine
end Sys2Proof
end

