-- ==== Sys2Proof/Laws/Steps.lean ====
section
/-! SUPPORT. Where a step goes, by the next event: the equations that claims about one given event cite instead of
unfolding `step`. -/

namespace Sys2Proof
namespace Machine

/-- The next event of the agenda is the one taken (R278). -/
theorem step_event {s : State} {e : Event} {rest : List Event} (h : s.env.agenda = e :: rest) :
    step s = takeEvent e (s.withEnv { s.env with agenda := rest }) := by
  simp only [step, nextStep, h]

/-- A host access, while `rst` is low (R60). -/
theorem step_host {s : State} {a : PortAccess} {rest : List Event} (h : s.env.agenda = .host a :: rest)
    (hr : s.env.rst = false) :
    step s = hostAccess a (s.withEnv { s.env with agenda := rest }) := by
  simp only [step, nextStep, h, takeEvent, hostMove, State.withEnv_env, hr]
  rfl

theorem unitMove_searching {s : State} {k : Nat} {u : SearchUnit} (hu : s.units[k]? = some u)
    (hs : u.ustate = .searching) :
    unitMove k s =
      (match unitStep s.params (deadlineExpired s.coord) u with
        | .error f => .fault f
        | .ok u' => .next (s.withUnit k u')) := by
  rw [unitMove, hu]; simp only [hs, if_true] <;> rfl

theorem unitMove_next {s : State} {k : Nat} {u u' : SearchUnit} (hu : s.units[k]? = some u)
    (hs : u.ustate = .searching) (h : unitStep s.params (deadlineExpired s.coord) u = .ok u') :
    unitMove k s = .next (s.withUnit k u') := by
  rw [unitMove_searching hu hs, h]

theorem step_unit {s : State} {k : Nat} {rest : List Event} (h : s.env.agenda = .unit k :: rest)
    (hr : s.env.rst = false) :
    step s = unitMove k (s.withEnv { s.env with agenda := rest }) := by
  rw [step_event h]; simp only [takeEvent, State.withEnv_env, hr]; rfl

/-- A unit's step whose evaluation succeeds (R182, R185). -/
theorem step_unit_ok {s : State} {k : Nat} {rest : List Event} {u u' : SearchUnit}
    (h : s.env.agenda = .unit k :: rest) (hr : s.env.rst = false)
    (hu : s.units[k]? = some u) (hs : u.ustate = .searching) (h' : unitStep s.params (deadlineExpired s.coord) u = .ok u') :
    step s = .next ((s.withEnv { s.env with agenda := rest }).withUnit k u') :=
  (step_unit h hr).trans (unitMove_next hu hs h')

/-- A pending report in C_WAIT (R215). -/
theorem reportMove_wait {s : State} {k : Nat} {u : SearchUnit} (hu : s.units[k]? = some u)
    (hk : k < s.coord.snap.units) (hr : u.report ≠ .none) (hc : s.coord.cstate = .wait) : reportMove k s = waitReport k u s := by
  rw [reportMove, hu]; simp only []; rw [if_pos ⟨hk, hr⟩, hc]

/-- A pending report in C_DRAIN (R222). -/
theorem reportMove_drain {s : State} {k : Nat} {u : SearchUnit} (hu : s.units[k]? = some u)
    (hk : k < s.coord.snap.units) (hr : u.report ≠ .none) (hc : s.coord.cstate = .drain) :
    reportMove k s = .next (s.withUnit k { u with report := .none }) := by
  rw [reportMove, hu]; simp only []; rw [if_pos ⟨hk, hr⟩, hc]

/-- A search that ends without FOUND clears NONCE (R223). -/
theorem publishOutcome_other (s : State) (h : s.coord.latch.code ≠ .found) : publishOutcome s =
   (((s.withStatus (s.regs.status.publish s.coord.latch.code)).withNonce 0).withUnits
      (releaseUnits s.coord.snap.units s.units)).withCoord { s.coord with cstate := .idle } := by
  rw [publishOutcome, publishedNonce, if_neg h]

/-- What passes validation (R243). -/
theorem failedCheck_eq_none {tz units : Nat} {s : State} (h1 : tz ≤ 243)
    (h2 : (minNonce s.regs).toNat ≤ (maxNonce s.regs).toNat)
   (h3 : s.regs.digestValid = 0xFFFFFFFF#32) (h4 : units ≤ s.units.length) : failedCheck tz units s = none := by
  rw [failedCheck, if_neg (by omega), if_neg (by omega), if_neg (by rw [h3]; decide),
    if_neg (by unfold maxUnits; omega)]

end Machine
end Sys2Proof
end

