-- ==== Sys2Proof/Tests/Slice0.lean ====
section
/-! SUPPORT. The model's own tests, each expected value taken from the spec (mostly spec/95_test_vectors.md), and for every
obligation with hypotheses a concrete state and operands that meet them together. -/

namespace Sys2Proof
namespace Tests

open Sys2Proof.Machine

/-! ### Small states to test on -/

/-- `DJ` of spec/95_test_vectors.md: byte j is j. -/
def digestDJ : List Byte := (List.range 32).map (BitVec.ofNat 8)

/-- `DZ`: 32 zero bytes. -/
def digestDZ : List Byte := List.replicate 32 0x00#8

/-- The registers after every digest byte has been written. -/
def readyRegs (d : List Byte) : HostRegs := { HostRegs.reset with digest := d, digestValid := 0xFFFFFFFF#32 }

/-- An idle machine with two unit contexts and a complete digest. -/
def idleState : State :=
  { params := Config.params, regs := readyRegs digestDZ, coord := Coordinator.reset,
    units := [SearchUnit.reset, SearchUnit.reset], env := Env.reset }

/-- The STATUS of a running search. -/
def busyStatus : Status := { Status.reset with code := .busy }

/-- A scalar unit that searches `[lo, hi]` and stands at `n`. -/
def scalarUnit (d : List Byte) (tz : Nat) (lo hi n : Nonce) : SearchUnit :=
  { SearchUnit.reset with
    ustate := .searching, rangeStart := lo, rangeEnd := hi, tz := tz, n := n, enc := n, inp := candidate Config.params d n }

/-- A vector unit that searches `[lo, hi]` and stands at the batch base `n`. -/
def vectorUnit (d : List Byte) (tz : Nat) (lo hi n : Nonce) : SearchUnit :=
  { SearchUnit.reset with
    ustate := .searching, rangeStart := lo, rangeEnd := hi, tz := tz, backend := .vector, n := n, enc := n,
    vin := batchInput Config.params d n }

/-- The snapshot of a search of `[0, hi]` by one unit. -/
def oneUnit (tz : Nat) (hi : Nonce) (dl : Bool) (limit : Word) : Snapshot :=
  { units := 1, tz := tz, min := 0, max := hi, vec := false, fb := false, dl := dl, limit := limit }

/-- A machine whose search runs, in C_WAIT, with one unit context. -/
def waiting (d : List Byte) (c : Snapshot) (ticks : Word) (u : SearchUnit) (agenda : List Event) : State where
  params := Config.params
  regs := { readyRegs d with status := busyStatus }
  coord := { cstate := .wait, snap := c, latch := Latch.reset, dlCnt := ticks }
  units := [u]
  env := { Env.reset with agenda := agenda }

/-- The same in C_DRAIN, with an outcome latched. -/
def draining (d : List Byte) (c : Snapshot) (l : Latch) (u : SearchUnit) (agenda : List Event) : State where
  params := Config.params
  regs := { readyRegs d with status := busyStatus }
  coord := { cstate := .drain, snap := c, latch := l, dlCnt := 0 }
  units := [u]
  env := { Env.reset with agenda := agenda }

/-- The state with the given events to come. -/
def withAgenda (agenda : List Event) (s : State) : State := { s with env := { s.env with agenda := agenda } }

/-- One reading of the next state, when there is one. -/
def after {α : Type} (f : State → α) : Result → Option α
  | .next s => some (f s)
  | .fault _ => none
  | .refused _ => none

/-- STATUS as the host reads it. -/
def statusOf (s : State) : Word := readReg s 0x01#6

/-! ### Well-formedness: each check has an ill-formed term it refuses -/

theorem test_wellFormed_refuses_rd_nonceLo : wellFormed (.rd 0x08#6) = false := by decide

theorem test_wellFormed_refuses_rd_nonceHi : wellFormed (.rd 0x09#6) = false := by decide

theorem test_wellFormed_refuses_wr_cmd : wellFormed (.wr 0#6 5#32) = false := by decide

theorem test_wellFormed_accepts : wellFormed (.rd 0x0A#6) = true ∧ wellFormed (.wr 0x3F#6 5#32) = true := by decide

/-! ### Decoding: words written out from the formats of R81–R83 and the table of V7.1, offsets from R68 -/

theorem test_decode_nop : decodeTableWord 32 0b00000000000000000000000000000000 = some .nop := by decide

theorem test_decode_setdb :
    decodeTableWord 32 0b00000001000000000000010110101011 = some (.setDigestByte 5#5 0xAB#8) ∧
    decodeTableWord 32 0b00000001000000000001111111111111 = some (.setDigestByte 31#5 0xFF#8) := by decide

theorem test_decode_runs :
    decodeTableWord 32 0b00000010000000100000000000000011 = some (.runSearch 3#8 true) ∧
    decodeTableWord 32 0b00000010000000000000000011110100 = some (.runSearch 244#8 false) := by decide

theorem test_decode_search :
    decodeTableWord 32 0b00000011000000010000010000000101 = some (.search 5#8 4#8 true false false) ∧
    decodeTableWord 32 0b00000011000001100000000011110011 = some (.search 243#8 0#8 false true true) := by decide

theorem test_decode_cancel : decodeTableWord 32 0b00000100000000000000000000000000 = some .cancel := by decide

theorem test_decode_rd : decodeTableWord 8 0b00000100 = some (.rd 0x01#6) ∧
    decodeTableWord 8 0b00101000 = some (.rd 0x0A#6) := by decide

theorem test_decode_wr : decode (.write 32 0b00010000 1000#32) = .ok (.wr 0x04#6 1000#32) := rfl

theorem test_decode_nonce : decodeTableWord 8 0b00100000 = some .readNonceLo ∧
    decodeTableWord 8 0b00100100 = some .readNonceHi := by decide

/-- The illegal words of V7.1. -/
theorem test_decode_illegal :
    [0x00000001, 0x01002000, 0x02000103, 0x02010003, 0x02040003, 0x03080000, 0x05000000, 0xFF000000].map
      (decodeTableWord 32) = List.replicate 8 none := by decide

/-- A reserved bit in a NOP or CANCEL word, and an offset that is no multiple of 4 (R88, R60). -/
theorem test_decode_reserved : decodeTableWord 32 0x04000001 = none ∧ decodeTableWord 8 0x05 = none := by decide

/-! ### A placed word is the next step, and every row runs as the first instruction after reset -/

theorem test_rows_run_from_reset :
    after statusOf (step (State.reset.withFetchWord 32 0x00000000)) = some 0x00000000#32 ∧
    after statusOf (step (State.reset.withFetchWord 32 0x01000055)) = some 0x00000000#32 ∧
    after statusOf (step (State.reset.withFetchWord 32 0x02000003)) = some 0x00000345#32 ∧
    after statusOf (step (State.reset.withFetchWord 32 0x030101F3)) = some 0x00000345#32 ∧
    after statusOf (step (State.reset.withFetchWord 32 0x04000000)) = some 0x00000000#32 := by decide

theorem test_port_rows_run_from_reset :
    after (fun s => s.env.rdata) (step (State.reset.withFetchWord 8 0x14)) = some 0xFFFFFFFF#32 ∧
    after (fun s => s.env.rdata) (step (State.reset.withFetchWord 8 0x20)) = some 0#32 ∧
    after (fun s => s.env.rdata) (step (State.reset.withFetchWord 8 0x24)) = some 0#32 := by decide

/-! ### The commands, one step each -/

/-- R241's worked example. -/
theorem test_nop_clears_rejected :
    after statusOf (execNop (idleState.withStatus { code := .found, nonceValid := true, rejected := true, done := true, reason := 0 })) =
      some 0x00000052#32 := by decide

/-- R242's worked example. -/
theorem test_setdb : after (fun s => (s.regs.digest.getD 5 0, s.regs.digestValid))
    (execSetDigestByte 5 0xAB (idleState.withRegs HostRegs.reset)) = some (0xAB#8, 0x00000020#32) := by decide

/-- Program 7: while BUSY the byte stays and REJECTED is set. -/
theorem test_setdb_busy : after (fun s => (s.regs.digest.getD 0 0, statusOf s))
    (execSetDigestByte 0 0x55 (idleState.withStatus busyStatus)) = some (0x00#8, 0x00000021#32) := by decide

/-- V7.3: with MIN = 10, MAX = 5 and no digest, reason 1 wins, then reason 2. -/
theorem test_runs_first_reason :
    after statusOf (execRunSearch 244 false
      (idleState.withRegs { HostRegs.reset with minLo := 10, maxLo := 5, maxHi := 0 })) = some 0x00000145#32 ∧
    after statusOf (execRunSearch 3 false
      (idleState.withRegs { HostRegs.reset with minLo := 10, maxLo := 5, maxHi := 0 })) = some 0x00000245#32 := by decide

/-- R244: a valid search is BUSY, waits, and unit 0 alone searches, from MIN. -/
theorem test_runs_starts : after (fun s => (statusOf s, s.coord.cstate, s.units.map fun u => (u.ustate, u.n)))
    (execRunSearch 3 true (idleState.withRegs { readyRegs digestDZ with minLo := 0x1F })) =
      some (0x00000001#32, .wait, [(.searching, 0x10#64), (.idle, 0#64)]) := by decide

/-- R243's fourth check: two unit contexts, UNITS = 3. -/
theorem test_search_too_many_units : after statusOf (execSearch 3 3 false false false idleState) = some 0x00000445#32 := by
  decide

/-- Program 6: DEADLINE = 0 ends TIMED_OUT in the launch step. -/
theorem test_search_zero_deadline : after (fun s => (statusOf s, s.coord.cstate, s.units.map fun u => u.ustate))
    (execSearch 243 1 true false false idleState) = some (0x00000044#32, .idle, [.idle, .idle]) := by decide

/-- R221: CANCEL in C_WAIT. -/
theorem test_cancel : after (fun s => (s.coord.cstate, s.coord.latch.code, s.units.map fun u => u.stop))
    (execCancel (waiting digestDZ (oneUnit 243 7 false 0) 0 (scalarUnit digestDZ 243 0 7 0) [])) =
      some (.drain, .cancelled, [.cancel]) := by decide

/-- V7.4 and R49 with two unit contexts. -/
theorem test_rd : after (fun s => s.env.rdata) (execRd 0x05 idleState) = some 0xFFFFFFFF#32 ∧
    after (fun s => s.env.rdata) (execRd 0x0A idleState) = some 0x00000302#32 := by decide

/-- R249's worked example, and program 7's rejected write. -/
theorem test_wr : after (fun s => s.regs.maxLo) (execWr 0x04 1000 idleState) = some 1000#32 ∧
    after (fun s => (s.regs.minLo, statusOf s)) (execWr 0x02 5 (idleState.withStatus busyStatus)) =
      some (0#32, 0x00000021#32) := by decide

/-- The worked examples of R250 and R251. -/
theorem test_read_nonce : after (fun s => s.env.rdata) (execReadNonceLo (idleState.withNonce 0x0000000100000002#64)) = some 2#32 ∧
    after (fun s => s.env.rdata) (execReadNonceHi (idleState.withNonce 0x0000000100000002#64)) = some 1#32 := by decide

/-- R247's worked example. -/
theorem test_illegal : after statusOf (hostAccess (.write 32 0 0x05000000#32) idleState) = some 0x00000047#32 := by decide

/-- Program 9: with the scalar backend failing, unit 0 ends FAILED; with a fallback it searches on the vector backend. -/
theorem test_fallback :
    chooseBackend { Env.reset with initFails := [(0, 0, .scalar)] } 0 false false = none ∧
    chooseBackend { Env.reset with initFails := [(0, 0, .scalar)] } 0 false true = some .vector := by decide

/-! ### Vectors of the codec, the kernels, the search and the partition -/

/-- V2.3, and two cells of V2.2 (OFFSET128). -/
theorem test_windows :
    byteWindow .twos 0x05 = [0xFF, 0xFF, 1, 0, 0, 0] ∧ byteWindow .twos 0x7F = [1, 0, 0xFF, 0xFF, 0xFF, 1] ∧
    byteWindow .twos 0x80 = [1, 0xFF, 1, 1, 1, 0xFF] ∧ byteWindow .twos 0xFF = [0xFF, 0, 0, 0, 0, 0] ∧
    byteWindow .offset128 0x00 = [1, 0xFF, 1, 1, 1, 0xFF] ∧ byteWindow .offset128 0x80 = [0, 0, 0, 0, 0, 0] := by decide

/-- V2.6: nonce 834 under LE, nonce 31 under BE. -/
theorem test_nonce_windows :
    ((encodeNonce .twos .le (List.replicate 240 0) 834 8).drop 192).take 12 = [0, 1, 1, 0xFF, 1, 0, 0, 1, 0, 0, 0, 0] ∧
    (encodeNonce .twos .be (List.replicate 240 0) 31 8).drop 234 = [1, 1, 0, 1, 0, 0] := by decide +kernel

/-- R109's worked example: lanes 0, 1 and 15 at base 0. -/
theorem test_lane_byte0 :
    (((vLaneByte0 .twos .le (List.replicate 200 []) 0).drop 192).take 6).map (fun g => (g.getD 0 9, g.getD 1 9, g.getD 15 9)) =
      [(0, 1, 0), (0, 0, 0xFF), (0, 0, 0xFF), (0, 0, 1), (0, 0, 0), (0, 0, 0)] := by decide +kernel

/-- V3.1. -/
theorem test_cursor : (List.range 8).map (fun k => cursorAdvance^[k] 0) = [0, 364, 728, 363, 727, 362, 726, 361] := by decide

/-- V3.4: the first twelve cells of a round on `src[p] = (p mod 3) − 1`. -/
theorem test_round : ((List.range 12).map fun i =>
      truth (cell ((364 * i % 729 : Nat) % 3 - 1)) (cell ((364 * (i + 1) % 729 : Nat) % 3 - 1))) =
    [1, 1, 0xFF, 1, 1, 0xFF, 1, 1, 0xFF, 1, 1, 0xFF] := by decide

/-- R152's worked example. -/
theorem test_vLookup : vLookup [0, 1, 2, 4, 5, 6, 8, 9, 10, 5, 5, 5, 5, 5, 5, 5] =
    .ok [1, 0, 0xFF, 1, 0xFF, 0, 0xFF, 1, 0, 0xFF, 0xFF, 0xFF, 0xFF, 0xFF, 0xFF, 0xFF] := rfl

/-- V4.6. -/
theorem test_advanceCount : [1#64, 0x30, 0x80, 0xFF, 0x100, 0x10000, 0x1000000, 0x100000000000000, 0x8000000000000000].map
    advanceCount = [1, 1, 1, 1, 2, 3, 4, 8, 8] := by decide

/-- V5.3 and V5.4. -/
theorem test_rmask_select :
    vRmask 0 5 100 = 0xFFE0#16 ∧ vRmask 96 5 100 = 0x001F#16 ∧ vRmask 0 3 9 = 0x03F8#16 ∧
    vRmask 0xFFFFFFFFFFFFFFF0 0xFFFFFFFFFFFFFFFD 0xFFFFFFFFFFFFFFFF = 0xE000#16 ∧
    vSelect 0 0x224C#16 0xFFE0#16 = some 6 ∧ vSelect 0 0x224C#16 0x0003#16 = none ∧
    vSelect 0xFFFFFFFFFFFFFFF0 0x4240#16 0xE000#16 = some 0xFFFFFFFFFFFFFFFE := by decide

/-- V6.1–V6.3. -/
theorem test_partition :
    (List.range 3).map (fun k => (partStart { oneUnit 0 999 false 0 with units := 3 } k,
      partEnd 0 { oneUnit 0 999 false 0 with units := 3 } k)) = [(0, 332), (333, 665), (666, 999)] ∧
    (List.range 4).map (fun k => (partStart { oneUnit 0 (BitVec.allOnes 64) false 0 with units := 4 } k)) =
      [0, 0x4000000000000000, 0x8000000000000000, 0xC000000000000000] ∧
    (List.range 5).map (fun k => partEmpty { oneUnit 0 12 false 0 with units := 5, min := 10 } k) =
      [true, true, true, true, false] := by decide

/-- V4.1, and with it the zmask 0x224C of V5.1: which of the nonces 0..15 pass targetZeros 1 with digest `DJ`. -/
theorem test_passes : (List.range 16).map (fun n => passes Config.params digestDJ 1 (BitVec.ofNat 64 n)) =
    [false, false, true, true, false, false, true, false, false, true, false, false, false, true, false, false] := by
  simp only [BitKernel.passes_eq_hits _ _ (show 1 ≤ 243 by omega)]
  decide +kernel

/-- V4.2, V4.4: nonce 834 has exactly 8 trailing zeros, and `2^64 − 2` exactly 3. -/
theorem test_passes_far : passes Config.params digestDJ 8 834 = true ∧ passes Config.params digestDJ 9 834 = false ∧
    passes Config.params digestDJ 3 0xFFFFFFFFFFFFFFFE = true ∧ passes Config.params digestDJ 4 0xFFFFFFFFFFFFFFFE = false := by
  simp only [BitKernel.passes_eq_hits _ _ (show 8 ≤ 243 by omega), BitKernel.passes_eq_hits _ _ (show 9 ≤ 243 by omega),
    BitKernel.passes_eq_hits _ _ (show 3 ≤ 243 by omega), BitKernel.passes_eq_hits _ _ (show 4 ≤ 243 by omega)]
  decide +kernel

/-- V4.3: which of the nonces 0..15 pass targetZeros 1 with `DZ` under OFFSET128, and with `DJ` under BE. -/
theorem test_passes_params :
    (List.range 16).map (fun n => passes { signMode := .offset128, byteOrder := .le } digestDZ 1 (BitVec.ofNat 64 n)) =
      [false, false, true, false, false, false, true, true, false, true, true, false, true, true, false, false] ∧
    (List.range 16).map (fun n => passes { signMode := .twos, byteOrder := .be } digestDJ 1 (BitVec.ofNat 64 n)) =
      [false, false, true, false, false, false, false, false, false, true, false, false, false, false, false, true] := by
  simp only [BitKernel.passes_eq_hits _ _ (show 1 ≤ 243 by omega)]
  decide +kernel

/-- A scalar unit that evaluates nonce 2 of `[0, 1000]` under parameters `pr`. -/
def unitAtTwo (pr : Params) (d : List Byte) (tz : Nat) : SearchUnit :=
  { scalarUnit d tz 0 1000 2 with inp := candidate pr d 2 }

theorem unitAtTwo_inp (pr : Params) (d : List Byte) (tz : Nat) : (unitAtTwo pr d tz).inp = candidate pr d 2 := by
  simp only [unitAtTwo]

/-- The machine with parameters `pr` whose unit that is. -/
def atNonceTwo (pr : Params) (d : List Byte) (tz : Nat) : State :=
  { waiting d (oneUnit tz 1000 false 0) 0 (unitAtTwo pr d tz) [.unit 0] with params := pr }

/-- A passing nonce ends its unit FOUND, whatever the machine's parameters (R182). -/
theorem found_nonce_two {pr : Params} {d : List Byte} {tz : Nat} (h : passes pr d tz 2 = true) :
    after (fun t => t.units.map fun u => (u.ustate, u.result)) (step (atNonceTwo pr d tz)) = some [(.found, 2)] := by
  obtain ⟨k, -, -, e⟩ := scalarStep_eval (pr := pr) (u := unitAtTwo pr d tz) rfl
    (by rw [unitAtTwo_inp]; exact valid_candidate d 2)
  have hh : hit (transformCells (unitAtTwo pr d tz).inp) (withScalarKernel (unitAtTwo pr d tz) k).tz = true := by
    rw [unitAtTwo_inp, ← passes_eq]; exact h
  rw [scalarVerdict_found hh] at e
  rw [step_unit_ok (s := atNonceTwo pr d tz) rfl rfl rfl rfl e]
  rfl

/-- Row S1 and V4.3: under OFFSET128 the search of `DZ` from 0 with targetZeros 1 ends FOUND 2; under BE nonce 2 of `DJ` has
exactly two trailing zeros. The machine's `step` runs both. -/
theorem test_step_params :
    after (fun t => t.units.map fun u => (u.ustate, u.result))
      (step (atNonceTwo { signMode := .offset128, byteOrder := .le } digestDZ 1)) = some [(.found, 2)] ∧
    after (fun t => t.units.map fun u => (u.ustate, u.result))
      (step (atNonceTwo { signMode := .twos, byteOrder := .be } digestDJ 2)) = some [(.found, 2)] := by
  refine ⟨found_nonce_two ?_, found_nonce_two ?_⟩
  · rw [BitKernel.passes_eq_hits _ _ (show 1 ≤ 243 by omega)]; decide +kernel
  · rw [BitKernel.passes_eq_hits _ _ (show 2 ≤ 243 by omega)]; decide +kernel

/-- V2.6 and V2.2 through a command: a search from nonce 31 under BE has byte 0 at `[234, 240)`, and under OFFSET128 its zero
byte 1 is `+-+++-`. -/
theorem test_launch_params :
    (after (fun s => s.units.map fun u => (u.inp.drop 234).take 6) (execRunSearch 3 false
      { idleState.withRegs { readyRegs digestDZ with minLo := 31 } with params := { signMode := .twos, byteOrder := .be } })).map
        (fun l => l.head?) = some (some [1, 1, 0, 1, 0, 0]) ∧
    (after (fun s => s.units.map fun u => (u.inp.drop 198).take 6) (execRunSearch 3 false
      { idleState.withRegs { readyRegs digestDZ with minLo := 31 } with
        params := { signMode := .offset128, byteOrder := .le } })).map
        (fun l => l.head?) = some (some [1, 0xFF, 1, 1, 1, 0xFF]) := by decide +kernel

/-- The state of V3.3, a single 1 at position 0. -/
def singleOne : TritState := 0x01#8 :: List.replicate 728 0x00#8

/-- V3.5: the 243 trits of its transform, four bits each from the first (0 is −1, 1 is 0, 2 is 1). -/
def singleOneHash : Nat := 0x200200110101010121111100220201011001121210120111012020111001002121210110222220010002111000112211010220012102020002102210011102010122200001121111120012111022220200001011002222200220020002021010022211210022120022110211222112020222002220022212020

theorem test_transform_single_one (b : TritState) : ∃ o, transform singleOne b = .ok o ∧
    ∀ t, t < 243 → o.current.getD t 0 = cell ((singleOneHash / 16 ^ t % 16 : Nat) - 1) := by
  have hv : ∀ c ∈ singleOne, validCell c = true := by
    intro c hc
    rcases List.mem_cons.1 hc with rfl | hc
    · rfl
    · rw [List.eq_of_mem_replicate hc]; rfl
  obtain ⟨o, e, e1, -⟩ := transform_valid hv b
  refine ⟨o, e, fun t ht => ?_⟩
  rw [e1, BitKernel.transformMasks_spec (by rw [singleOne, List.length_cons, List.length_replicate]) hv (by omega)]
  revert t
  decide +kernel


/-! ### Witnesses: for each obligation with hypotheses, a concrete input that meets them together -/

/-! #### Encoding and the port -/

theorem test_witness_DecodeOfEncodeIsIdentity : wellFormed (.rd 0x3F#6) = true ∧ wellFormed (.wr 0x01#6 0#32) = true ∧
    wellFormed (.search 255#8 255#8 true true true) = true := by decide

theorem test_witness_EncodeOfDecodeIsIdentity : decode (.write 32 0xFC 7#32) = .ok (.wr 0x3F#6 7#32) ∧
    decode (.read 32 0x00) = .ok (.rd 0#6) ∧ decode (.write 32 0 0x03FFFFFF#32) = .error (.illegalCommand 0x03FFFFFF#32) :=
  ⟨rfl, rfl, rfl⟩

theorem illegal_ne_ok {w : Word} {e : DecodeError} (h : decodeCommand w = .error e) (i : Instr) : decodeCommand w ≠ .ok i := by
  rw [h]; simp

/-- Words on both sides of the table's edges. -/
theorem test_witness_LegalWordsMatchOpcodeTable :
    decodeCommand 0x01001FFF#32 = .ok (.setDigestByte 31#5 0xFF#8) ∧
    decodeCommand 0x020200FF#32 = .ok (.runSearch 0xFF#8 true) ∧
    decodeCommand 0x0307FFFF#32 = .ok (.search 0xFF#8 0xFF#8 true true true) ∧ ∀ i, decodeCommand 0x03080000#32 ≠ .ok i :=
  ⟨rfl, rfl, rfl, illegal_ne_ok rfl⟩

theorem test_witness_StepRunsDecodedInstruction : ∃ s : State,
    s.env.agenda = .host (.write 32 0 0x04000000#32) :: [.tick] ∧ s.env.rst = false ∧
    decode (.write 32 0 0x04000000#32) = .ok .cancel :=
  ⟨withAgenda [.host (.write 32 0 0x04000000#32), .tick] idleState, rfl, rfl, rfl⟩

/-- One access for each clause, at its edge: 16 bits wide, offset 0x100, offset 0xFE; and one while `rst` is high. -/
theorem test_witness_AccessOutsideContractHasNoStep :
    (∀ width off, (width, off) ∈ [(16, 0x100), (32, 0x100), (32, 0xFE)] → ∃ (s : State) (a : PortAccess) (rest : List Event),
      (a = .read width off ∨ a = .write width off 0#32) ∧ s.env.agenda = .host a :: rest ∧ s.env.rst = false) ∧
    ∃ (s : State) (a : PortAccess) (rest : List Event), s.env.agenda = .host a :: rest ∧ s.env.rst = true :=
  ⟨fun width off _ => ⟨withAgenda [.host (.read width off)] idleState, _, [], .inl rfl, rfl, rfl⟩,
    ⟨idleState.withEnv { Env.reset with agenda := [.host (.read 32 4)], rst := true }, _, _, rfl, rfl⟩⟩

theorem test_witness_IllegalWordEndsIllegalCommand : ∃ (s : State) (rest : List Event),
    s.env.agenda = .host (.write 32 0 0x00000001#32) :: rest ∧ s.env.rst = false ∧ isBusy s = false ∧
    ∀ i, decodeCommand 0x00000001#32 ≠ .ok i :=
  ⟨withAgenda [.host (.write 32 0 1#32)] idleState, [], rfl, rfl, rfl, illegal_ne_ok rfl⟩

/-- Each offset of the statement, and for `CMD` a legal and an illegal word. -/
theorem test_witness_BusyDropsEveryOtherWrite : ∀ p ∈ [(0x00, 0x03000101#32), (0x00, 0x05000000#32), (0x08, 0#32), (0x0C, 0#32),
    (0x10, 0#32), (0x14, 0#32), (0x18, 0#32)], ∃ (s : State) (rest : List Event),
    s.env.agenda = .host (.write 32 p.1 p.2) :: rest ∧ s.env.rst = false ∧ isBusy s = true ∧
    ((p.1 = 0x00 ∧ p.2 ≠ 0x00000000#32 ∧ p.2 ≠ 0x04000000#32) ∨ p.1 = 0x08 ∨ p.1 = 0x0C ∨ p.1 = 0x10 ∨ p.1 = 0x14 ∨
      p.1 = 0x18) := fun p hp =>
  ⟨withAgenda [.host (.write 32 p.1 p.2)] (idleState.withStatus busyStatus), [], rfl, rfl, rfl, by fin_cases hp <;> decide⟩

/-! #### Commands -/

theorem test_witness_NopClearsRejectedOnly : isBusy idleState = false ∧ isBusy (idleState.withStatus busyStatus) = true := by
  decide

theorem test_witness_SetDigestByteWritesItsByte : idleState.regs.digest.length = 32 ∧ isBusy idleState = false ∧
    isBusy (idleState.withStatus busyStatus) = true := by decide

/-- A valid search over one nonce at the top of the range, with every target zero. -/
theorem test_witness_RunSearchStartsUnitZero : ∃ s : State, isBusy s = false ∧ 1 ≤ s.units.length ∧ (243#8).toNat ≤ 243 ∧
    s.regs.minHi ++ s.regs.minLo = s.regs.maxHi ++ s.regs.maxLo ∧
    (s.regs.minHi ++ s.regs.minLo).toNat ≤ (s.regs.maxHi ++ s.regs.maxLo).toNat ∧ s.regs.digestValid = 0xFFFFFFFF#32 :=
  ⟨idleState.withRegs { readyRegs digestDZ with minLo := 0xFFFFFFFF, minHi := 0xFFFFFFFF }, by decide⟩

/-- UNITS at 0 and at the number of contexts, with and without a deadline; and for a scalar search with fallback each of
the draws of `initOk`: the selected backend initialises, only the other one does, none does. -/
theorem test_witness_SearchStartsItsUnits : ∀ p ∈ [(0#8, false), (2#8, true)],
    ∀ fails ∈ [[], [(0, 0, Backend.scalar)], [(0, 0, .scalar), (0, 0, .vector)]], ∃ s : State,
    isBusy s = false ∧ 1 ≤ s.units.length ∧ (0#8).toNat ≤ 243 ∧
    (s.regs.minHi ++ s.regs.minLo).toNat ≤ (s.regs.maxHi ++ s.regs.maxLo).toNat ∧
    s.regs.digestValid = 0xFFFFFFFF#32 ∧ p.1.toNat ≤ s.units.length ∧ (p.2 = true → s.regs.deadline ≠ 0#32) ∧
    s.env.initFails = fails ∧ s.env.searches = 0 := fun p hp fails hf =>
  ⟨(idleState.withRegs { readyRegs digestDZ with deadline := 1 }).withEnv { Env.reset with initFails := fails }, by
    fin_cases hp <;> fin_cases hf <;> decide⟩

theorem test_idle_consistent (s : State) (hc : s.coord = Coordinator.reset) (hb : s.regs.status.code ≠ .busy)
    (hu : s.units = [SearchUnit.reset, SearchUnit.reset]) : ControlConsistent s := by
  refine ⟨by simp [hc, Coordinator.reset, hb], by simp [hc, Coordinator.reset, Snapshot.reset],
    by simp [hc, hu, Coordinator.reset, Snapshot.reset], by simp [hc, Coordinator.reset, Snapshot.reset],
    by simp [hc, Coordinator.reset, Snapshot.reset], by simp [hc, Coordinator.reset], by simp [hc, Coordinator.reset],
    fun k u h => ?_⟩
  have hr : u = SearchUnit.reset := by
    rw [hu] at h
    rcases k with _ | _ | k
    · exact (Option.some.inj h).symm
    · exact (Option.some.inj h).symm
    · cases h
  subst hr
  exact ⟨⟨fun h => absurd rfl h, fun _ => rfl⟩, fun _ => rfl, fun _ => by simp [hc, Coordinator.reset]⟩

theorem test_witness_ZeroDeadlineTimesOutAtOnce : ControlConsistent idleState ∧ isBusy idleState = false ∧
    (243#8).toNat ≤ 243 ∧ (minNonce idleState.regs).toNat ≤ (maxNonce idleState.regs).toNat ∧
    idleState.regs.digestValid = 0xFFFFFFFF#32 ∧ (2#8).toNat ≤ idleState.units.length ∧ idleState.regs.deadline = 0#32 :=
  ⟨test_idle_consistent _ rfl (by decide) rfl, by decide⟩

/-- One state for each REASON, every check before it just passing and the named one just failing. -/
theorem test_witness_InvalidSearchFailsWithFirstReason :
    isBusy idleState = false ∧
    (243 < (244#8).toNat) ∧
    ((243#8).toNat ≤ 243 ∧ ∃ r : HostRegs, (maxNonce r).toNat + 1 = (minNonce r).toNat) ∧
    ((minNonce HostRegs.reset).toNat ≤ (maxNonce HostRegs.reset).toNat ∧ HostRegs.reset.digestValid ≠ 0xFFFFFFFF#32) ∧
    (idleState.regs.digestValid = 0xFFFFFFFF#32 ∧ idleState.units.length < (3#8).toNat) :=
  ⟨by decide, by decide, ⟨by decide, { HostRegs.reset with maxHi := 0, maxLo := 4, minLo := 5 }, by decide⟩, by decide,
    by decide⟩

theorem test_witness_CancelStopsRunningSearch :
    isBusy idleState = false ∧
    (∃ s : State, isBusy s = true ∧ s.coord.cstate = .wait ∧ s.units ≠ []) ∧
    ∃ s : State, isBusy s = true ∧ s.coord.cstate = .drain :=
  ⟨by decide, ⟨waiting digestDZ (oneUnit 243 7 false 0) 0 (scalarUnit digestDZ 243 0 7 0) [], rfl, rfl, by simp [waiting]⟩,
    ⟨draining digestDZ (oneUnit 243 7 false 0) Latch.reset (scalarUnit digestDZ 243 0 7 0) [], rfl, rfl⟩⟩

theorem test_witness_WriteStoresItsRegister : isBusy idleState = false ∧ isBusy (idleState.withStatus busyStatus) = true ∧
    4 * (0x02#6).toNat = 0x08 ∧ 4 * (0x06#6).toNat = 0x18 ∧ 4 * (0x01#6).toNat = 0x04 ∧ 0x1C ≤ 4 * (0x07#6).toNat := by
  decide

theorem test_witness_NonceAccessorsReturnHalves : StatusConsistent idleState.regs ∧
    StatusConsistent { readyRegs digestDZ with
      status := { code := .found, nonceValid := true, rejected := false, done := true, reason := 0 }, nonceLo := 2, nonceHi := 1 } := by
  unfold StatusConsistent
  decide

/-! #### Codec and kernels -/

/-- A window whose value is −128, the least. -/
theorem test_witness_ByteCodecIsInjective : ([1, 0xFF, 1, 1, 1, 0xFF] : List Byte).length = 6 ∧
    (∀ c ∈ ([1, 0xFF, 1, 1, 1, 0xFF] : List Byte), validCell c = true) ∧
    ((List.range 6).map fun k => 3 ^ k * (([1, 0xFF, 1, 1, 1, 0xFF] : List Byte).getD k 0).toInt).sum = -128 := by decide

theorem test_witness_EncodeByteWritesItsWindowOnly : 723 + 6 ≤ zeroState.length := by
  rw [length_zeroState]

/-- Each clause at the top of its range, in either byte order. -/
theorem test_witness_CandidateStateLayout : ∀ o ∈ [NonceByteOrder.le, .be],
    ∃ pr : Params, pr.byteOrder = o ∧ 31 < 32 ∧ 7 < 8 ∧ 5 < 6 ∧ 240 ≤ 728 ∧ 728 < 729 :=
  fun o _ => ⟨⟨.offset128, o⟩, rfl, by decide⟩

theorem test_witness_BatchLanesAreCandidates : (0xFFFFFFFFFFFFFFF0#64).toNat % 16 = 0 ∧ 15 < 16 := by decide

theorem test_witness_PartialReencodeEqualsFull : (0xFFFFFFFFFFFFFFFE#64).toNat + 1 < 2 ^ 64 ∧ (0xF0#64).toNat % 16 = 0 ∧
    (0xF0#64).toNat + 16 < 2 ^ 64 := by decide

/-- Each byte order under TWOS, at the greatest target. -/
theorem test_witness_ZeroStateIsFixedPoint : ∀ o ∈ [NonceByteOrder.le, .be],
    ∃ pr : Params, pr.signMode = .twos ∧ pr.byteOrder = o ∧ 243 ≤ 243 := fun o _ => ⟨⟨.twos, o⟩, rfl, rfl, Nat.le_refl _⟩

theorem test_witness_RoundComputesTruthFunction : tritStateSound singleOne = true := by
  rw [tritStateSound_iff]
  refine ⟨by rw [singleOne, List.length_cons, List.length_replicate], fun c hc => ?_⟩
  rcases List.mem_cons.1 hc with rfl | hc
  · rfl
  · rw [List.eq_of_mem_replicate hc]; rfl

theorem test_witness_TransformIsPure : tritStateSound (candidate Config.params digestDJ 31) = true :=
  (tritStateSound_iff _).2 ⟨length_candidate _ _, valid_candidate _ _⟩

theorem test_witness_VectorTransformIsLaneWise : vectorStateSound (batchInput Config.params digestDJ 16) = true :=
  (vectorStateSound_iff _).2 ⟨(groups_batch _ _).1, lanesValid_batchInput _ _⟩

theorem test_witness_ZmaskIsLaneWiseHit : tritStateSound (candidate Config.params digestDJ 0) = true ∧
    vectorStateSound (batchInput Config.params digestDJ 0) = true ∧ 243 ≤ 243 ∧ 15 < 16 :=
  ⟨(tritStateSound_iff _).2 ⟨length_candidate _ _, valid_candidate _ _⟩,
    (vectorStateSound_iff _).2 ⟨(groups_batch _ _).1, lanesValid_batchInput _ _⟩, by omega, by omega⟩

/-- A mask with a lane in range, and one without. -/
theorem test_witness_SelectionTakesLowestInRangeLane : (0#64).toNat % 16 = 0 ∧
    vSelect 0 0x224C#16 (vRmask 0 5 100) = some 6 ∧ vSelect 0 0x224C#16 (vRmask 0 0 1) = none := by decide

/-! #### One unit's step -/

/-- A stop request of each kind, and an expired deadline at its first expired tick. -/
theorem test_witness_StopCheckPrecedesEvaluation : ∀ stop ∈ [Stop.none, .cancel, .deadline],
    ∃ (s : State) (u : SearchUnit) (rest : List Event), s.env.agenda = .unit 0 :: rest ∧ s.env.rst = false ∧
    s.units[0]? = some u ∧ u.ustate = .searching ∧ u.stop = stop ∧ s.coord.snap.dl = true ∧
    s.coord.snap.limit.toNat ≤ s.coord.dlCnt.toNat := fun stop _ =>
  ⟨waiting digestDZ (oneUnit 243 7 true 5) 5 { scalarUnit digestDZ 243 0 7 0 with stop := stop } [.unit 0], _, [], rfl, rfl,
    rfl, rfl, rfl, rfl, Nat.le_refl (5#32).toNat⟩

theorem scalarUnit_inp (d : List Byte) (tz : Nat) (lo hi n : Nonce) :
    (scalarUnit d tz lo hi n).inp = candidate Config.params d n := by
  simp only [scalarUnit]

theorem vectorUnit_vin (d : List Byte) (tz : Nat) (lo hi n : Nonce) :
    (vectorUnit d tz lo hi n).vin = batchInput Config.params d n := by
  simp only [vectorUnit]

/-- The hypotheses on a scalar unit at its evaluation boundary. -/
theorem test_scalar_boundary (d : List Byte) (tz : Nat) (hi n : Nonce) (h : n.toNat ≤ hi.toNat) :
    ∃ (s : State) (u : SearchUnit) (rest : List Event), s.env.agenda = .unit 0 :: rest ∧ s.env.rst = false ∧
    s.units[0]? = some u ∧ u.ustate = .searching ∧ u.backend = .scalar ∧ u.stop = .none ∧
    (s.coord.snap.dl = true → s.coord.dlCnt.toNat < s.coord.snap.limit.toNat) ∧ u.report = .none ∧
    u.inp = candidate s.params s.regs.digest u.n ∧ u.n.toNat ≤ u.rangeEnd.toNat ∧ s.regs.digest = d ∧ u.tz = tz ∧ u.n = n ∧ u.rangeEnd = hi :=
  ⟨waiting d (oneUnit tz hi false 0) 0 (scalarUnit d tz 0 hi n) [.unit 0], scalarUnit d tz 0 hi n, [], rfl, rfl, rfl, rfl,
    rfl, rfl, fun h => (nomatch h), rfl, scalarUnit_inp d tz 0 hi n, h, rfl, rfl, rfl, rfl⟩

/-- Each clause: nonce 6 passes, nonce 5 does not at the end of its range, and not before it (V4.1, V4.5). -/
theorem test_witness_ScalarEvaluationOutcome :
    passes Config.params digestDJ 1 6 = true ∧ passes Config.params digestDJ 1 5 = false ∧ (5#64 ≠ 100#64) ∧
    ∀ p ∈ [(6#64, 100#64), (5#64, 5#64), (5#64, 100#64)], ∃ (s : State) (u : SearchUnit) (rest : List Event),
      s.env.agenda = .unit 0 :: rest ∧ s.env.rst = false ∧ s.units[0]? = some u ∧ u.ustate = .searching ∧
      u.backend = .scalar ∧ u.stop = .none ∧ (s.coord.snap.dl = true → s.coord.dlCnt.toNat < s.coord.snap.limit.toNat) ∧ u.report = .none ∧
      u.inp = candidate s.params s.regs.digest u.n ∧ u.n.toNat ≤ u.rangeEnd.toNat ∧ s.regs.digest = digestDJ ∧ u.tz = 1 ∧
      u.n = p.1 ∧ u.rangeEnd = p.2 := by
  refine ⟨?_, ?_, by decide, fun p hp => test_scalar_boundary _ _ _ _ (by fin_cases hp <;> decide)⟩
  · rw [BitKernel.passes_eq_hits _ _ (show 1 ≤ 243 by omega)]; decide +kernel
  · rw [BitKernel.passes_eq_hits _ _ (show 1 ≤ 243 by omega)]; decide +kernel

theorem nonePass_of_forall {d : List Byte} {tz lo hi : Nat}
    (h : ∀ k, k < hi - lo → passes Config.params d tz (BitVec.ofNat 64 (lo + k)) = false) :
    NonePass Config.params d tz lo hi := by
  intro m h1 h2
  have := h (m.toNat - lo) (by omega)
  rwa [show lo + (m.toNat - lo) = m.toNat by omega, BitVec.ofNat_toNat, BitVec.setWidth_eq] at this

/-- Each clause (V4.5, V5.5): a batch whose smallest in-range passing nonce is 6 for `[5, 100]`, one without a hit that holds
the end of `[7, 8]`, and one without a hit before the end of `[32, 100]` at targetZeros 3. -/
theorem test_witness_VectorBatchOutcome :
    (passes Config.params digestDJ 1 6 = true ∧ NonePass Config.params digestDJ 1 (max 0 5) 6) ∧
    NonePass Config.params digestDJ 1 (max 0 7) (min 16 9) ∧ NonePass Config.params digestDJ 3 (max 32 32) (min 48 101) ∧
    ∀ p ∈ [(1, 5#64, 100#64, 0#64), (1, 7#64, 8#64, 0#64), (3, 32#64, 100#64, 32#64)],
      ∃ (s : State) (u : SearchUnit) (rest : List Event), s.env.agenda = .unit 0 :: rest ∧ s.env.rst = false ∧
      s.units[0]? = some u ∧ u.ustate = .searching ∧ u.backend = .vector ∧ u.stop = .none ∧
      (s.coord.snap.dl = true → s.coord.dlCnt.toNat < s.coord.snap.limit.toNat) ∧ u.report = .none ∧
      u.tz ≤ 243 ∧ u.vin = batchInput s.params s.regs.digest u.n ∧ u.n.toNat % 16 = 0 ∧ u.n.toNat ≤ u.rangeEnd.toNat ∧ s.regs.digest = digestDJ ∧ u.tz = p.1 ∧ u.rangeStart = p.2.1 ∧
      u.rangeEnd = p.2.2.1 ∧ u.n = p.2.2.2 := by
  refine ⟨⟨?_, nonePass_of_forall ?_⟩, nonePass_of_forall ?_, nonePass_of_forall ?_,
    fun p hp => ?_⟩
  · rw [BitKernel.passes_eq_hits _ _ (show 1 ≤ 243 by omega)]; decide +kernel
  · simp only [BitKernel.passes_eq_hits _ _ (show 1 ≤ 243 by omega)]; decide +kernel
  · simp only [BitKernel.passes_eq_hits _ _ (show 1 ≤ 243 by omega)]; decide +kernel
  · simp only [BitKernel.passes_eq_hits _ _ (show 3 ≤ 243 by omega)]; decide +kernel
  · exact ⟨waiting digestDJ (oneUnit p.1 p.2.2.1 false 0) 0 (vectorUnit digestDJ p.1 p.2.1 p.2.2.1 p.2.2.2) [.unit 0],
      vectorUnit digestDJ p.1 p.2.1 p.2.2.1 p.2.2.2, [], rfl, rfl, rfl, rfl, rfl, rfl, fun h => (nomatch h), rfl,
      by fin_cases hp <;> decide, vectorUnit_vin _ _ _ _ _, by fin_cases hp <;> decide,
      by fin_cases hp <;> decide, rfl, rfl, rfl, rfl, rfl⟩

/-! #### Sound states of a running and of a decided search -/

theorem getElem?_one {u v : SearchUnit} {k : Nat} (h : [u][k]? = some v) : k = 0 ∧ v = u := by
  cases k with
  | zero => exact ⟨rfl, (Option.some.inj h).symm⟩
  | succ k => cases h

theorem buffers_of_input {d : List Byte} {n : Nonce} {u : SearchUnit} (h1 : u.inp = candidate Config.params d n)
    (h2 : u.bufA = zeroState ∧ u.bufB = zeroState ∧ u.vin = zeroVector ∧ u.va = zeroVector ∧ u.vb = zeroVector) :
    unitBuffersSound u = true := by
  obtain ⟨a, b, c, e, f⟩ := h2
  have z := (tritStateSound_iff zeroState).2 ⟨length_zeroState, valid_zeroState⟩
  have v := (vectorStateSound_iff zeroVector).2 ⟨List.length_replicate, lanesValid_zeroVector⟩
  have i := (tritStateSound_iff (candidate Config.params d n)).2 ⟨length_candidate _ _, valid_candidate _ _⟩
  simp only [unitBuffersSound, h1, a, b, c, e, f, z, v, i, Bool.and_self]

theorem busy_status_consistent (d : List Byte) : StatusConsistent { readyRegs d with status := busyStatus } :=
  ⟨⟨fun h => (nomatch h), fun h => (nomatch h)⟩, ⟨fun h => (nomatch h), fun h => absurd rfl h.2⟩,
    ⟨fun h => absurd rfl h, fun h => (nomatch h)⟩, Nat.zero_le _, fun _ => ⟨rfl, rfl⟩⟩

/-- The one unit of a search of `[0, hi]` owns all of it. -/
theorem oneUnit_launched (e : Env) (tz : Nat) (hi : Nonce) (dl : Bool) (limit : Word) {u : SearchUnit} (h1 : u.rangeStart = 0)
    (h2 : u.rangeEnd = hi) (h3 : u.empty = false) (h4 : u.tz = tz) (h5 : u.ustate ≠ .failed) :
    UnitLaunched e (oneUnit tz hi dl limit) 0 u :=
  ⟨h1.trans (by simp [partStart, oneUnit]), h3.trans (by simp [partEmpty, oneUnit]), h4,
    fun _ q => h2.trans (by simp [partEnd, oneUnit]), fun h => absurd h h5⟩

/-- A search of `[0, hi]` at its first nonce is sound. -/
theorem sound_waiting {d : List Byte} (hd : d.length = 32) {tz : Nat} (htz : tz ≤ 243) (hi : Nonce) (dl : Bool)
    (limit ticks : Word) (agenda : List Event) :
    Sound (waiting d (oneUnit tz hi dl limit) ticks (scalarUnit d tz 0 hi 0) agenda) := by
  refine ⟨⟨hd, fun u hu => ?_⟩, busy_status_consistent d, ?_, fun _ => ⟨fun k u hk _ => ?_, fun h => (nomatch h), fun h => (nomatch h)⟩⟩
  · rw [List.mem_singleton.1 hu]
    exact buffers_of_input (scalarUnit_inp d tz 0 hi 0) ⟨rfl, rfl, rfl, rfl, rfl⟩
  · refine ⟨⟨fun _ h => (nomatch h), fun _ => rfl⟩, Nat.le_refl 1, Nat.le_refl 1, htz, Nat.zero_le _,
      fun _ => ⟨rfl, 0, _, Nat.one_pos, rfl, rfl⟩, fun h => (nomatch h), fun k u hk => ?_⟩
    obtain ⟨rfl, rfl⟩ := getElem?_one hk
    exact ⟨⟨fun h => absurd rfl h, fun h => (nomatch h)⟩, fun h => h.elim (fun h => (nomatch h)) (fun h => absurd h (Nat.not_succ_le_zero 0)),
      fun _ => ⟨fun _ => ⟨fun h => (nomatch h), fun h => (nomatch h), rfl, fun h => (nomatch h), fun h => (nomatch h),
        fun _ h => (nomatch h)⟩, fun h => (nomatch h)⟩⟩
  · obtain ⟨rfl, rfl⟩ := getElem?_one hk
    refine ⟨oneUnit_launched _ tz hi dl limit rfl rfl rfl rfl (fun h => (nomatch h)), rfl, rfl, ?_⟩
    exact ⟨scalarUnit_inp d tz 0 hi 0, Nat.le_refl _, Nat.zero_le _, fun m _ h => absurd h (Nat.not_lt_zero _)⟩

/-- The unit of a search of `[0, hi]` with targetZeros 0 that has found nonce 0 and whose report has been consumed. -/
def foundUnit (d : List Byte) (hi : Nonce) : SearchUnit := { scalarUnit d 0 0 hi 0 with ustate := .found }

theorem foundUnit_inp (d : List Byte) (hi : Nonce) : (foundUnit d hi).inp = candidate Config.params d 0 := by
  simp only [foundUnit, scalarUnit]

/-- The latch of a FOUND 0. -/
def foundLatch : Latch := { set := true, code := .found, nonce := 0 }

/-- The drained state of that search is sound. -/
theorem sound_draining {d : List Byte} (hd : d.length = 32) (hi : Nonce) (agenda : List Event) :
    Sound (draining d (oneUnit 0 hi false 0) foundLatch (foundUnit d hi) agenda) := by
  refine ⟨⟨hd, fun u hu => ?_⟩, busy_status_consistent d, ?_, fun _ => ⟨fun k u hk _ => ?_, fun _ _ => ?_, fun _ h => (nomatch h)⟩⟩
  · rw [List.mem_singleton.1 hu]
    exact buffers_of_input (foundUnit_inp d hi) ⟨rfl, rfl, rfl, rfl, rfl⟩
  · refine ⟨⟨fun _ h => (nomatch h), fun _ => rfl⟩, Nat.le_refl 1, Nat.le_refl 1, Nat.zero_le _, Nat.zero_le _,
      fun h => (nomatch h), fun _ => ⟨rfl, .inl rfl, fun h => (nomatch h)⟩, fun k u hk => ?_⟩
    obtain ⟨rfl, rfl⟩ := getElem?_one hk
    exact ⟨⟨fun h => absurd rfl h, fun h => (nomatch h)⟩, fun h => h.elim (fun h => (nomatch h)) (fun h => absurd h (Nat.not_succ_le_zero 0)),
      fun _ => ⟨fun h => (nomatch h), fun _ => ⟨fun h => (nomatch h), fun h => (nomatch h)⟩⟩⟩
  · obtain ⟨rfl, rfl⟩ := getElem?_one hk
    exact ⟨oneUnit_launched _ 0 hi false 0 rfl rfl rfl rfl (fun h => (nomatch h)), rfl, Nat.le_refl _, Nat.zero_le _,
      by rw [passes_eq]; rfl, fun m _ h => absurd h (Nat.not_lt_zero _)⟩
  · exact ⟨0, foundUnit d hi, rfl, Nat.one_pos, by simp [partEmpty, oneUnit, draining], rfl, rfl⟩

theorem length_digestDZ : digestDZ.length = 32 := List.length_replicate

theorem step_of_event {s t : State} {e : Event} {rest : List Event} (h : s.env.agenda = e :: rest)
    (ht : takeEvent e (s.withEnv { s.env with agenda := rest }) = .next t) : step s = .next t := (step_event h).trans ht

/-- A scalar evaluation of an input of trits takes a next state. -/
theorem scalar_unit_next {s : State} {u : SearchUnit} {rest : List Event} (h : s.env.agenda = .unit 0 :: rest)
    (hr : s.env.rst = false) (hu : s.units[0]? = some u) (hs : u.ustate = .searching) (hb : u.backend = .scalar)
    (hv : ∀ c ∈ u.inp, validCell c = true) : ∃ t, step s = .next t := by
  obtain ⟨k, hk, -⟩ := transform_valid hv u.bufB
  have hu' : ∃ u', unitStep s.params (deadlineExpired s.coord) u = .ok u' := by
    unfold unitStep
    rw [hb]
    show ∃ u', scalarStep s.params _ u = .ok u'
    unfold scalarStep
    split
    · exact ⟨_, rfl⟩
    · rw [hk]; exact ⟨_, rfl⟩
  obtain ⟨u', hu'⟩ := hu'
  exact ⟨_, step_unit_ok h hr hu hs hu'⟩

/-- A sound state whose next event is its unit's evaluation. -/
theorem unit_step_next (agenda : List Event) : ∃ t, step (waiting digestDZ (oneUnit 0 7 false 0) 0 (scalarUnit digestDZ 0 0 7 0)
    (.unit 0 :: agenda)) = .next t :=
  scalar_unit_next rfl rfl rfl rfl rfl (by rw [scalarUnit_inp]; exact valid_candidate _ _)

theorem test_witness_CounterOnlyIncreases : ∃ (s t : State) (u : SearchUnit) (rest : List Event), Sound s ∧
    s.env.agenda = .unit 0 :: rest ∧ s.env.rst = false ∧ s.units[0]? = some u ∧ u.ustate = .searching ∧ step s = .next t := by
  obtain ⟨t, ht⟩ := unit_step_next []
  exact ⟨_, t, scalarUnit digestDZ 0 0 7 0, [], sound_waiting length_digestDZ (by omega) 7 false 0 0 _, rfl, rfl, rfl, rfl, ht⟩

theorem test_witness_UnitStepWritesItsUnitOnly : ∃ (s t : State) (rest : List Event),
    s.env.agenda = .unit 0 :: rest ∧ step s = .next t := by
  obtain ⟨t, ht⟩ := unit_step_next []
  exact ⟨_, t, [], rfl, ht⟩

/-! #### The coordinator -/

/-- The full range in three parts: the ends of the range, and a nonce in the first, non-empty, part. -/
theorem test_witness_PartitionCoversRangeOnce : ∃ c : Snapshot, 1 ≤ c.units ∧ c.min.toNat ≤ c.max.toNat ∧ 0 + 1 < c.units ∧
    partEmpty c 0 = false ∧ c.min = 0 ∧ c.max = BitVec.allOnes 64 :=
  ⟨{ oneUnit 0 (BitVec.allOnes 64) false 0 with units := 3 }, by decide⟩

/-- Each of the four deciding events. -/
theorem test_witness_DecidingEventsLatchAndStop :
    (∀ p ∈ [(Report.found, StatusCode.found, Stop.cancel), (.failed, .backendUnavailable, .cancel),
        (.timedOut, .timedOut, .deadline)], ∃ (s : State) (u : SearchUnit) (rest : List Event),
      s.env.agenda = .report 0 :: rest ∧ s.env.rst = false ∧ s.coord.cstate = .wait ∧ 0 < s.coord.snap.units ∧
      s.units[0]? = some u ∧ u.report = p.1) ∧
    ∃ (s : State) (rest : List Event), s.env.agenda = .deadline :: rest ∧ s.env.rst = false ∧ s.coord.cstate = .wait ∧
      s.coord.snap.dl = true ∧ s.coord.snap.limit.toNat ≤ s.coord.dlCnt.toNat :=
  ⟨fun p _ => ⟨waiting digestDZ (oneUnit 0 7 true 5) 5 { scalarUnit digestDZ 0 0 7 0 with report := p.1 } [.report 0], _, [],
      rfl, rfl, rfl, Nat.one_pos, rfl, rfl⟩,
    ⟨waiting digestDZ (oneUnit 0 7 true 5) 5 (scalarUnit digestDZ 0 0 7 0) [.deadline], [], rfl, rfl, rfl, rfl,
      Nat.le_refl (5#32).toNat⟩⟩

/-- The last EXHAUSTED report, and one that leaves a unit still uncounted. -/
theorem test_witness_ExhaustedReportsAreCounted :
    (∃ (s : State) (u : SearchUnit) (rest : List Event) (us : List SearchUnit), s.env.agenda = .report 0 :: rest ∧
      s.env.rst = false ∧ s.coord.cstate = .wait ∧ 0 < s.coord.snap.units ∧ s.units[0]? = some u ∧ u.report = .exhausted ∧
      us = s.units.set 0 { u with report := .none, exh := true } ∧
      ∀ j v, j < s.coord.snap.units → us[j]? = some v → v.exh = true) ∧
    ∃ (s : State) (u : SearchUnit) (rest : List Event) (us : List SearchUnit), s.env.agenda = .report 0 :: rest ∧
      s.env.rst = false ∧ s.coord.cstate = .wait ∧ 0 < s.coord.snap.units ∧ s.units[0]? = some u ∧ u.report = .exhausted ∧
      us = s.units.set 0 { u with report := .none, exh := true } ∧
      ∃ j v, j < s.coord.snap.units ∧ us[j]? = some v ∧ v.exh = false := by
  let u : SearchUnit := { scalarUnit digestDZ 0 0 7 0 with ustate := .exhausted, report := .exhausted }
  refine ⟨⟨waiting digestDZ (oneUnit 0 7 false 0) 0 u [.report 0], u, [], _, rfl, rfl, rfl, Nat.one_pos, rfl, rfl, rfl,
      fun j v _ h => ?_⟩,
    ⟨{ waiting digestDZ { oneUnit 0 7 false 0 with units := 2 } 0 u [.report 0] with units := [u, SearchUnit.reset] }, u, [], _,
      rfl, rfl, rfl, Nat.two_pos, rfl, rfl, rfl, 1, SearchUnit.reset, Nat.one_lt_two, rfl, rfl⟩⟩
  obtain ⟨-, rfl⟩ := getElem?_one h
  rfl

theorem test_witness_DrainDiscardsReports : ∃ (s : State) (u : SearchUnit) (rest : List Event),
    s.env.agenda = .report 0 :: rest ∧ s.env.rst = false ∧ s.coord.cstate = .drain ∧ 0 < s.coord.snap.units ∧
    s.units[0]? = some u ∧ u.report = .found :=
  ⟨draining digestDZ (oneUnit 0 7 false 0) foundLatch { foundUnit digestDZ 7 with report := .found } [.report 0], _, [], rfl, rfl,
    rfl, Nat.one_pos, rfl, rfl⟩

/-- A drained search, with a FOUND latched, and one whose unit still searches. -/
theorem test_witness_PublishEndsDrainedSearch :
    (∃ (s : State) (rest : List Event), s.env.agenda = .publish :: rest ∧ s.env.rst = false ∧ s.coord.cstate = .drain ∧
      s.coord.latch.code = .found ∧
      ∀ k u, k < s.coord.snap.units → s.units[k]? = some u →
        (u.ustate ≠ .searching ∧ u.ustate ≠ .idle) ∧ u.report = .none) ∧
    ∃ (s : State) (rest : List Event), s.env.agenda = .publish :: rest ∧ s.env.rst = false ∧ s.coord.cstate = .drain ∧
      ∃ k u, k < s.coord.snap.units ∧ s.units[k]? = some u ∧
        ((u.ustate = .searching ∨ u.ustate = .idle) ∨ u.report ≠ .none) := by
  refine ⟨⟨draining digestDZ (oneUnit 0 7 false 0) foundLatch (foundUnit digestDZ 7) [.publish], [], rfl, rfl, rfl, rfl,
      fun k u _ h => ?_⟩,
    ⟨draining digestDZ (oneUnit 0 7 false 0) foundLatch (scalarUnit digestDZ 0 0 7 0) [.publish], [], rfl, rfl, rfl, 0, _,
      Nat.one_pos, rfl, .inl (.inl rfl)⟩⟩
  obtain ⟨-, rfl⟩ := getElem?_one h
  exact ⟨⟨fun h => (nomatch h), fun h => (nomatch h)⟩, rfl⟩

/-- A counter one below its top, at its top, and an idle block. -/
theorem test_witness_TickCountsDeadline :
    (∀ ticks ∈ [0xFFFFFFFE#32, 0xFFFFFFFF#32], ∃ (s : State) (rest : List Event), s.env.agenda = .tick :: rest ∧
      s.env.rst = false ∧ s.coord.cstate ≠ .idle ∧ s.coord.snap.dl = true ∧ s.coord.dlCnt = ticks) ∧
    ∃ (s : State) (rest : List Event), s.env.agenda = .tick :: rest ∧ s.env.rst = false ∧ s.coord.cstate = .idle :=
  ⟨fun ticks _ => ⟨waiting digestDZ (oneUnit 0 7 true 5) ticks (scalarUnit digestDZ 0 0 7 0) [.tick], [], rfl, rfl,
      fun h => (nomatch h), rfl, rfl⟩, ⟨withAgenda [.tick] idleState, [], rfl, rfl, rfl⟩⟩

/-- A FAILED report consumed in C_WAIT, and a step of the drain. -/
theorem test_witness_LatchIsWrittenOnce :
    (∃ s t : State, (s.regs.status.code = .busy ↔ s.coord.cstate ≠ .idle) ∧ step s = .next t ∧ s.coord.cstate = .wait ∧
      t.coord.latch ≠ s.coord.latch) ∧
    ∃ s t : State, (s.regs.status.code = .busy ↔ s.coord.cstate ≠ .idle) ∧
      s.coord.cstate = .drain ∧ (∀ rest, s.env.agenda ≠ .rst true :: rest) ∧ step s = .next t :=
  ⟨⟨waiting digestDZ (oneUnit 0 7 false 0) 0 { scalarUnit digestDZ 0 0 7 0 with report := .failed } [.report 0], _,
    ⟨fun _ h => (nomatch h), fun _ => rfl⟩, step_of_event rfl rfl, rfl, fun h => (nomatch h)⟩,
   draining digestDZ (oneUnit 0 7 false 0) foundLatch (foundUnit digestDZ 7) [.publish], _,
    ⟨fun _ h => (nomatch h), fun _ => rfl⟩, rfl, fun _ h => (nomatch h), step_of_event rfl rfl⟩

theorem test_witness_NoStuckCoordinator : ∃ s : State, Sound s ∧ s.env.rst = false ∧ s.coord.cstate ≠ .idle :=
  ⟨_, sound_waiting length_digestDZ (tz := 243) (by omega) 7 true 5 5 [], rfl, fun h => (nomatch h)⟩

theorem test_witness_UnscheduledStepTakesEnabledMove : ∃ s : State, Sound s ∧ s.env.rst = false ∧ s.env.agenda = [] ∧
    s.coord.cstate ≠ .idle :=
  ⟨_, sound_waiting length_digestDZ (tz := 243) (by omega) 7 true 5 5 [], rfl, rfl, fun h => (nomatch h)⟩

theorem test_witness_IdleBlockStandsStill : ControlConsistent idleState ∧ idleState.coord.cstate = .idle ∧
    idleState.env.agenda = [] := ⟨test_idle_consistent _ rfl (by decide) rfl, rfl, rfl⟩

/-! #### Reset and the whole machine -/

theorem test_witness_RstResetsEverything :
    (∃ (s : State) (rest : List Event), s.env.agenda = .rst true :: rest ∧ isBusy s = true) ∧
    ∀ e ∈ [Event.tick, .deadline, .publish, .unit 0, .report 0], ∃ (s : State) (rest : List Event),
      s.env.agenda = e :: rest ∧ s.env.rst = true :=
  ⟨⟨waiting digestDZ (oneUnit 0 7 true 5) 0 (scalarUnit digestDZ 0 0 7 0) [.rst true], [], rfl, rfl⟩,
    fun e _ => ⟨idleState.withEnv { Env.reset with agenda := [e], rst := true }, [], rfl, rfl⟩⟩

/-- One state and step for the invariants: a unit's evaluation in a running search. -/
theorem test_witness_StepKeepsSound : ∃ s t : State, Sound s ∧ step s = .next t := by
  obtain ⟨t, ht⟩ := unit_step_next []
  exact ⟨_, t, sound_waiting length_digestDZ (by omega) 7 false 0 0 _, ht⟩

theorem test_witness_StepKeepsBuffersSound : ∃ s t : State, BuffersSound s ∧ step s = .next t := by
  obtain ⟨s, t, hs, ht⟩ := test_witness_StepKeepsSound
  exact ⟨s, t, hs.1, ht⟩

theorem test_witness_StepKeepsControlConsistent : ∃ s t : State, StatusConsistent s.regs ∧ ControlConsistent s ∧
    step s = .next t := by
  obtain ⟨s, t, hs, ht⟩ := test_witness_StepKeepsSound
  exact ⟨s, t, hs.2.1, hs.2.2.1, ht⟩

theorem test_witness_SoundRunsNeverFault : ∃ s : State, Sound s ∧ isBusy s = true :=
  ⟨_, sound_waiting length_digestDZ (tz := 243) (by omega) 7 true 5 0 [], rfl⟩

theorem publish_next (agenda : List Event) : ∃ t, step (draining digestDZ (oneUnit 0 7 false 0) foundLatch (foundUnit digestDZ 7)
    (.publish :: agenda)) = .next t ∧ isBusy t = false ∧ t.coord.cstate = .idle ∧ t.regs.status.code = .found := by
  refine ⟨_, step_of_event rfl rfl, ?_⟩
  have hd : allDrained 1 [foundUnit digestDZ 7] = true := (allDrained_iff _ _).2 fun k u _ h => by
    obtain ⟨-, rfl⟩ := getElem?_one h
    exact ⟨rfl, rfl⟩
  have he : publishMove ((draining digestDZ (oneUnit 0 7 false 0) foundLatch (foundUnit digestDZ 7) (.publish :: agenda)).withEnv
      { Env.reset with agenda := agenda }) = publishOutcome _ := if_pos ⟨rfl, hd⟩
  exact ⟨congrArg isBusy he, congrArg (fun s => s.coord.cstate) he, congrArg (fun s => s.regs.status.code) he⟩

theorem test_witness_PublishedOutcomeIsTrue : ∃ s t : State, Sound s ∧ isBusy s = true ∧ step s = .next t ∧
    isBusy t = false := by
  obtain ⟨t, ht, hb, -⟩ := publish_next []
  exact ⟨_, t, sound_draining length_digestDZ 7 _, rfl, ht, hb⟩

/-- A cancel in a search whose latch still holds the code of an earlier cancelled search, and is not set. -/
theorem test_witness_OnlyHostCancelCancels : ∃ s t : State, step s = .next t ∧
    (t.coord.latch.set = true ∧ t.coord.latch.code = .cancelled) ∧
    ¬ (s.coord.latch.set = true ∧ s.coord.latch.code = .cancelled) ∧ s.coord.latch.code = .cancelled := by
  let s := waiting digestDZ (oneUnit 0 7 false 0) 0 (scalarUnit digestDZ 0 0 7 0) [.host (.write 32 0 0x04000000#32)]
  exact ⟨s.withCoord { s.coord with latch := { set := false, code := .cancelled, nonce := 0 } }, _,
    step_of_event rfl rfl, ⟨rfl, rfl⟩, fun h => (nomatch h.1), rfl⟩

theorem test_witness_SearchInputsAreImmutable : ∃ s t : State, isBusy s = true ∧ s.coord.cstate ≠ .idle ∧
    (∀ rest, s.env.agenda ≠ .rst true :: rest) ∧ step s = .next t :=
  ⟨waiting digestDZ (oneUnit 0 7 false 0) 0 (scalarUnit digestDZ 0 0 7 0) [.host (.write 32 0x08 5#32)], _, rfl,
    fun h => (nomatch h), fun _ h => (nomatch h), step_of_event rfl rfl⟩

theorem test_witness_DigestChangesOnlyBySetDigestByte : ∃ s t : State, step s = .next t ∧ t.regs.digest ≠ s.regs.digest :=
  ⟨withAgenda [.host (.write 32 0 0x01000055#32)] idleState, _, step_of_event rfl rfl, by decide⟩

/-- A kept result across a digest write, and across a register write. -/
theorem test_witness_ResultStaysUntilNextCommand : ∀ a ∈ [PortAccess.write 32 0 0x010005AB#32, .write 32 0x08 5#32],
    ∃ s t : State, StatusConsistent s.regs ∧ ControlConsistent s ∧ isBusy s = false ∧ s.regs.status.code = .found ∧
    (∀ rest, s.env.agenda ≠ .rst true :: rest) ∧
    (∀ w rest, s.env.agenda = .host (.write 32 0 w) :: rest →
      decodeCommand w = .ok .nop ∨ decodeCommand w = .ok .cancel ∨ ∃ idx val, decodeCommand w = .ok (.setDigestByte idx val)) ∧
    step s = .next t := by
  intro a ha
  let s : State := withAgenda [.host a] (idleState.withRegs { readyRegs digestDZ with
    status := { code := .found, nonceValid := true, rejected := false, done := true, reason := 0 }, nonceLo := 2 })
  refine ⟨s, ?_⟩
  have hc : ControlConsistent s := test_idle_consistent s rfl (fun h => (nomatch h)) rfl
  have hst : StatusConsistent s.regs := ⟨⟨fun _ => rfl, fun _ => rfl⟩, ⟨fun _ => ⟨fun h => (nomatch h), fun h => (nomatch h)⟩,
    fun _ => rfl⟩, ⟨fun h => absurd rfl h, fun h => (nomatch h)⟩, Nat.zero_le _, fun h => (nomatch h)⟩
  have hn : ∃ t, hostAccess a (s.withEnv { s.env with agenda := [] }) = .next t := by
    fin_cases ha
    · exact ⟨_, rfl⟩
    · exact ⟨_, rfl⟩
  obtain ⟨t, ht⟩ := hn
  refine ⟨t, hst, hc, rfl, rfl, fun _ h => (nomatch h), fun w rest h => ?_, (step_host rfl rfl).trans ht⟩
  have hw : a = .write 32 0 w := Event.host.inj (List.cons.inj h).1
  rw [hw] at ha
  rcases List.mem_cons.1 ha with h | h
  · cases h; exact .inr (.inr ⟨_, _, rfl⟩)
  · cases List.mem_singleton.1 h

theorem test_witness_OnlyPublicationChangesRegisters : ∃ s t : State, StatusConsistent s.regs ∧ ControlConsistent s ∧
    (∀ a rest, s.env.agenda ≠ .host a :: rest) ∧ (∀ rest, s.env.agenda ≠ .rst true :: rest) ∧ step s = .next t ∧
    t.regs ≠ s.regs := by
  obtain ⟨t, ht, -, -, hf⟩ := publish_next []
  have hs := sound_draining length_digestDZ 7 [.publish]
  refine ⟨_, t, hs.2.1, hs.2.2.1, fun _ _ h => (nomatch h), fun _ h => (nomatch h), ht, fun h => ?_⟩
  rw [h] at hf
  cases hf

end Tests
end Sys2Proof
end

section
/-! Reset: the values R54 gives, and what an asserted `rst` lets happen (R300). -/

namespace Sys2Proof
namespace Machine

/-! ### The reset values (R54) -/

theorem regsAtReset_reset : RegsAtReset HostRegs.reset := by
  refine ⟨?status, ?min, ?max, rfl, rfl, rfl, ?nonce⟩
  case status => decide
  case min => decide
  case nonce => decide
  case max =>
    have hmax : maxNonce HostRegs.reset = Config.defaultMaxNonce := joinHalves_halves _
    rw [hmax, Config.defaultMaxNonce, BitVec.toNat_allOnes]

theorem coordAtReset_reset : CoordAtReset Coordinator.reset := ⟨rfl, rfl, rfl, rfl⟩

theorem unitAtReset_reset : UnitAtReset SearchUnit.reset :=
  ⟨rfl, rfl, rfl, rfl, rfl, rfl, rfl, rfl, rfl, rfl, rfl, rfl, rfl, rfl⟩

/-- However many unit contexts a machine has (R7), reset leaves each at R54's values. -/
theorem unitAtReset_of_mem_replicate {n : Nat} {u : SearchUnit} (h : u ∈ List.replicate n SearchUnit.reset) :
    UnitAtReset u := by
  rw [List.eq_of_mem_replicate h]
  exact unitAtReset_reset

/-! ### The `rst` input (R300) -/

/-- The rising level performs the reset step, with the machine's surroundings kept but for the level itself. -/
theorem step_rst_high {s : State} {rest : List Event} (h : s.env.agenda = .rst true :: rest) :
    step s = .next ((resetStep s).withEnv { s.env with agenda := rest, rst := true }) := by
  rw [step_event h]
  rfl

/-- What R300 holds still while `rst` is asserted: every event but a host access and a level of `rst` itself. -/
theorem takeEvent_of_rst_high {s : State} {e : Event} (hr : s.env.rst = true)
    (he : e = .tick ∨ e = .deadline ∨ e = .publish ∨ (∃ k, e = .unit k) ∨ ∃ k, e = .report k) :
    takeEvent e s = .next s := by
  rcases he with rfl | rfl | rfl | ⟨k, rfl⟩ | ⟨k, rfl⟩ <;> simp only [takeEvent, hr, if_true]

/-- Settles O46: the reset step builds its state from the reset records, power-on from the same ones, and an asserted
`rst` gates every move of the block's own. -/
theorem rstResetsEverything : Obligations.RstResetsEverything := by
  refine ⟨fun s rest h => ?resetStep, ?powerOn, fun s e rest h hr he => ?held⟩
  case resetStep =>
    exact ⟨_, step_rst_high h, rfl, regsAtReset_reset, coordAtReset_reset, List.length_replicate,
      fun u hu => unitAtReset_of_mem_replicate hu, rfl, rfl⟩
  case powerOn =>
    exact ⟨rfl, regsAtReset_reset, coordAtReset_reset, List.length_replicate,
      fun u hu => unitAtReset_of_mem_replicate hu⟩
  case held =>
    rw [step_event h]
    exact takeEvent_of_rst_high hr he

end Machine
end Sys2Proof
end

section
/-! Control: what consistency of the coordinator, STATUS and the units says in each state of the coordinator, and that
every event keeps it (R43, R48, R210, R222, R228, R288). -/

namespace Sys2Proof
namespace Machine

/-! ### Lists of units, by index -/

/-- Every unit of a search of `U` units has a property (the units `k < U` of R211). -/
def UnitsBelow (U : Nat) (us : List SearchUnit) (P : Nat → SearchUnit → Prop) : Prop :=
  ∀ k u, us[k]? = some u → k < U → P k u

/-- A unit that takes part in no search (R223, R228). -/
def AtRest (u : SearchUnit) : Prop := u.ustate = .idle ∧ u.stop = .none ∧ u.report = .none

/-- The units from `U` on are at rest. -/
def RestFrom (U : Nat) (us : List SearchUnit) : Prop := ∀ k u, us[k]? = some u → U ≤ k → AtRest u

theorem unitsBelow_mono {U : Nat} {us : List SearchUnit} {P Q : Nat → SearchUnit → Prop} (h : UnitsBelow U us P)
    (hPQ : ∀ k u, P k u → Q k u) : UnitsBelow U us Q :=
  fun k u hu hk => hPQ k u (h k u hu hk)

theorem unitsBelow_set {U k : Nat} {us : List SearchUnit} {P : Nat → SearchUnit → Prop} {u w : SearchUnit}
    (h : UnitsBelow U us P) (hu : us[k]? = some u) (hw : P k w) : UnitsBelow U (us.set k w) P := by
  intro j v hv hj
  rcases getElem?_set_cases hu hv with ⟨rfl, rfl⟩ | ⟨-, hv⟩
  · exact hw
  · exact h j v hv hj

theorem unitsBelow_stopUnits {U V : Nat} {r : Stop} {us : List SearchUnit} {P Q : Nat → SearchUnit → Prop}
    (h : UnitsBelow U us P) (hterm : ∀ k u, P k u → isTerminal u.ustate = true → Q k u)
    (hstop : ∀ k u, P k u → isTerminal u.ustate = false → Q k { u with stop := r }) (hV : U ≤ V) :
    UnitsBelow U (stopUnits V r us) Q := by
  intro k v hv hk
  rw [getElem?_stopUnits, Option.map_eq_some_iff] at hv
  obtain ⟨u, hu, rfl⟩ := hv
  have hP := h k u hu hk
  cases ht : isTerminal u.ustate with
  | false => rw [if_pos ⟨by omega, rfl⟩]; exact hstop k u hP ht
  | true => rw [if_neg (by simp)]; exact hterm k u hP ht

theorem unitsBelow_launchUnits {pr : Params} {e : Env} {d : List Byte} {c : Snapshot} {us : List SearchUnit}
    {P Q : Nat → SearchUnit → Prop} (h : UnitsBelow c.units us P)
    (hPQ : ∀ k u, k < c.units → P k u → Q k (unitLaunch pr e d k c.vec c.fb (unitRegisters e.searches c k u))) :
    UnitsBelow c.units (launchUnits pr e d c us) Q := by
  intro k v hv hk
  rw [getElem?_launchUnits, Option.map_eq_some_iff] at hv
  obtain ⟨u, hu, rfl⟩ := hv
  rw [if_pos hk]
  exact hPQ k u hk (h k u hu hk)

theorem restFrom_mono {U V : Nat} {us : List SearchUnit} (h : RestFrom U us) (hUV : U ≤ V) : RestFrom V us :=
  fun k u hu hk => h k u hu (by omega)

theorem restFrom_set {U k : Nat} {us : List SearchUnit} {w : SearchUnit} (h : RestFrom U us) (hk : k < U) :
    RestFrom U (us.set k w) := by
  intro j v hv hj
  rw [List.getElem?_set_ne (by omega)] at hv
  exact h j v hv hj

theorem restFrom_stopUnits {U : Nat} {r : Stop} {us : List SearchUnit} (h : RestFrom U us) :
    RestFrom U (stopUnits U r us) := by
  intro k v hv hk
  rw [getElem?_stopUnits, Option.map_eq_some_iff] at hv
  obtain ⟨u, hu, rfl⟩ := hv
  rw [if_neg (by omega)]
  exact h k u hu hk

theorem restFrom_launchUnits {pr : Params} {e : Env} {d : List Byte} {c : Snapshot} {us : List SearchUnit}
    (h : RestFrom c.units us) : RestFrom c.units (launchUnits pr e d c us) := by
  intro k v hv hk
  rw [getElem?_launchUnits, Option.map_eq_some_iff] at hv
  obtain ⟨u, hu, rfl⟩ := hv
  rw [if_neg (by omega)]
  exact h k u hu hk

/-- `PUBLISH` lays every unit at rest whose report is consumed (R223). -/
theorem restFrom_releaseUnits {U : Nat} {us : List SearchUnit} (hb : UnitsBelow U us fun _ u => u.report = .none)
    (hr : RestFrom U us) : RestFrom 0 (releaseUnits U us) := by
  intro k v hv _
  rw [getElem?_releaseUnits, Option.map_eq_some_iff] at hv
  obtain ⟨u, hu, rfl⟩ := hv
  split
  · rename_i hk
    exact ⟨rfl, rfl, hb k u hu hk⟩
  · rename_i hk
    exact hr k u hu (by omega)

/-! ### Consistency by the state of the coordinator -/

theorem unitConsistent_of_atRest {u : SearchUnit} (h : AtRest u) : UnitConsistent u := by
  obtain ⟨-, hstop, hreport⟩ := h
  exact ⟨fun hr => absurd hreport hr, fun _ => hstop⟩

theorem atRest_of_idle {u : SearchUnit} (h : UnitConsistent u) (hi : u.ustate = .idle) : AtRest u := by
  refine ⟨hi, h.2 hi, ?_⟩
  by_contra hr
  have := h.1 hr
  rw [hi] at this
  exact hr this

/-- A unit that has not ended has posted no report (R33, R190). -/
theorem report_of_searching {u : SearchUnit} (h : UnitConsistent u) (hs : u.ustate = .searching) : u.report = .none := by
  by_contra hr
  have := h.1 hr
  rw [hs] at this
  exact hr this

/-- A terminal state has a report, and no other state has the same one (R190). -/
theorem reportFor_terminal {a : UState} (ha : isTerminal a = true) :
    reportFor a ≠ .none ∧ ∀ b, reportFor a = reportFor b → a = b := by
  cases a with
  | idle => cases ha
  | searching => cases ha
  | _ => exact ⟨nofun, fun b h => by cases b <;> simp [reportFor] at h ⊢⟩

/-- A posted report names the terminal state its unit is in (R33, R190). -/
theorem ustate_of_report {u : SearchUnit} {st : UState} (h : UnitConsistent u) (ht : isTerminal st = true)
    (hr : u.report = reportFor st) : u.ustate = st := by
  obtain ⟨hne, hinj⟩ := reportFor_terminal ht
  exact (hinj _ (hr.symm.trans (h.1 (by rwa [hr])))).symm

/-- A snapshot that fits a machine of `n` unit contexts (R211, R243). -/
def SnapshotFits (c : Snapshot) (n : Nat) : Prop :=
  1 ≤ c.units ∧ c.units ≤ n ∧ c.tz ≤ 243 ∧ c.min.toNat ≤ c.max.toNat

/-- The outcomes that drain a search, TIMED_OUT only with a deadline (R216–R219, R221). -/
def DrainOutcome (dl : Bool) (code : StatusCode) : Prop :=
  (code = .found ∨ code = .timedOut ∨ code = .backendUnavailable ∨ code = .cancelled) ∧ (code = .timedOut → dl = true)

theorem unitConsistent_of_control {s : State} {k : Nat} {u : SearchUnit} (h : ControlConsistent s)
    (hu : s.units[k]? = some u) : UnitConsistent u := by
  obtain ⟨-, -, -, -, -, -, -, hunits⟩ := h
  exact (hunits k u hu).1

/-- A unit is at rest in C_IDLE, and so is one that the search does not use (R228). -/
theorem atRest_of_control {s : State} {k : Nat} {u : SearchUnit} (h : ControlConsistent s) (hu : s.units[k]? = some u)
    (hk : s.coord.cstate = .idle ∨ s.coord.snap.units ≤ k) : AtRest u := by
  obtain ⟨-, -, -, -, -, -, -, hunits⟩ := h
  obtain ⟨hcons, hidle, -⟩ := hunits k u hu
  exact atRest_of_idle hcons (hidle hk)

theorem snapshotFits_of_control {s : State} (h : ControlConsistent s) :
    SnapshotFits s.coord.snap s.units.length := by
  obtain ⟨-, h1, hU, htz, hle, -⟩ := h
  exact ⟨h1, hU, htz, hle⟩

/-- In C_IDLE (R210, R228). -/
theorem controlConsistent_idle_iff {s : State} (hc : s.coord.cstate = .idle) :
    ControlConsistent s ↔
      s.regs.status.code ≠ .busy ∧ SnapshotFits s.coord.snap s.units.length ∧ RestFrom 0 s.units := by
  constructor
  · intro h
    exact ⟨fun hb => h.1.1 hb hc, snapshotFits_of_control h, fun k u hu _ => atRest_of_control h hu (.inl hc)⟩
  · rintro ⟨hb, ⟨h1, hU, htz, hle⟩, hrest⟩
    have hnw : s.coord.cstate ≠ .wait := by rw [hc]; nofun
    have hnd : s.coord.cstate ≠ .drain := by rw [hc]; nofun
    refine ⟨⟨fun h => absurd h hb, fun h => absurd hc h⟩, h1, hU, htz, hle, fun h => absurd h hnw,
      fun h => absurd h hnd, fun k u hu => ?_⟩
    have hr := hrest k u hu (Nat.zero_le k)
    exact ⟨unitConsistent_of_atRest hr, fun _ => hr.1, fun _ => ⟨fun h => absurd h hnw, fun h => absurd h hnd⟩⟩

/-- While a search runs, what each state asks of the latch and of the units stands for itself (R210, R228). -/
theorem controlConsistent_running {s : State} (hc : s.coord.cstate ≠ .idle) (hb : s.regs.status.code = .busy)
    (hfit : SnapshotFits s.coord.snap s.units.length)
    (hwait : s.coord.cstate = .wait → s.coord.latch.set = false ∧
      ∃ k u, k < s.coord.snap.units ∧ s.units[k]? = some u ∧ u.exh = false)
    (hdrain : s.coord.cstate = .drain → s.coord.latch.set = true ∧ DrainOutcome s.coord.snap.dl s.coord.latch.code)
    (hbelow : UnitsBelow s.coord.snap.units s.units fun _ u => UnitConsistent u ∧
      (s.coord.cstate = .wait → UnitInWait s.coord.snap.dl u) ∧ (s.coord.cstate = .drain → UnitInDrain u))
    (hrest : RestFrom s.coord.snap.units s.units) : ControlConsistent s := by
  obtain ⟨h1, hU, htz, hle⟩ := hfit
  refine ⟨⟨fun _ => hc, fun _ => hb⟩, h1, hU, htz, hle, hwait, hdrain, fun k u hu => ?_⟩
  rcases Nat.lt_or_ge k s.coord.snap.units with hk | hk
  · obtain ⟨hcons, hstate⟩ := hbelow k u hu hk
    exact ⟨hcons, fun h => h.elim (fun hi => absurd hi hc) fun hge => absurd hk (Nat.not_lt.2 hge), fun _ => hstate⟩
  · have hr := hrest k u hu hk
    exact ⟨unitConsistent_of_atRest hr, fun _ => hr.1, fun hlt => absurd hlt (Nat.not_lt.2 hk)⟩

/-- In C_WAIT (R214, R217, R228). -/
theorem controlConsistent_wait_iff {s : State} (hc : s.coord.cstate = .wait) :
    ControlConsistent s ↔
      s.regs.status.code = .busy ∧ SnapshotFits s.coord.snap s.units.length ∧ s.coord.latch.set = false ∧
        (∃ k u, k < s.coord.snap.units ∧ s.units[k]? = some u ∧ u.exh = false) ∧
        UnitsBelow s.coord.snap.units s.units (fun _ u => UnitConsistent u ∧ UnitInWait s.coord.snap.dl u) ∧
        RestFrom s.coord.snap.units s.units := by
  have hni : s.coord.cstate ≠ .idle := by rw [hc]; nofun
  have hnd : s.coord.cstate ≠ .drain := by rw [hc]; nofun
  constructor
  · intro h
    have hrest : RestFrom s.coord.snap.units s.units := fun k u hu hk => atRest_of_control h hu (.inr hk)
    have hfit := snapshotFits_of_control h
    obtain ⟨hb, -, -, -, -, hwait, -, hunits⟩ := h
    obtain ⟨hset, hexh⟩ := hwait hc
    refine ⟨hb.2 hni, hfit, hset, hexh, fun k u hu hk => ?_, hrest⟩
    obtain ⟨hcons, -, hstate⟩ := hunits k u hu
    exact ⟨hcons, (hstate hk).1 hc⟩
  · rintro ⟨hb, hfit, hset, hexh, hbelow, hrest⟩
    exact controlConsistent_running hni hb hfit (fun _ => ⟨hset, hexh⟩) (fun h => absurd h hnd)
      (unitsBelow_mono hbelow fun _ _ h => ⟨h.1, fun _ => h.2, fun hd => absurd hd hnd⟩) hrest

/-- In C_DRAIN (R220, R222). -/
theorem controlConsistent_drain_iff {s : State} (hc : s.coord.cstate = .drain) :
    ControlConsistent s ↔
      s.regs.status.code = .busy ∧ SnapshotFits s.coord.snap s.units.length ∧ s.coord.latch.set = true ∧
        DrainOutcome s.coord.snap.dl s.coord.latch.code ∧
        UnitsBelow s.coord.snap.units s.units (fun _ u => UnitConsistent u ∧ UnitInDrain u) ∧
        RestFrom s.coord.snap.units s.units := by
  have hni : s.coord.cstate ≠ .idle := by rw [hc]; nofun
  have hnw : s.coord.cstate ≠ .wait := by rw [hc]; nofun
  constructor
  · intro h
    have hrest : RestFrom s.coord.snap.units s.units := fun k u hu hk => atRest_of_control h hu (.inr hk)
    have hfit := snapshotFits_of_control h
    obtain ⟨hb, -, -, -, -, -, hdrain, hunits⟩ := h
    obtain ⟨hset, hout⟩ := hdrain hc
    refine ⟨hb.2 hni, hfit, hset, hout, fun k u hu hk => ?_, hrest⟩
    obtain ⟨hcons, -, hstate⟩ := hunits k u hu
    exact ⟨hcons, (hstate hk).2 hc⟩
  · rintro ⟨hb, hfit, hset, hout, hbelow, hrest⟩
    exact controlConsistent_running hni hb hfit (fun h => absurd h hnw) (fun _ => ⟨hset, hout⟩)
      (unitsBelow_mono hbelow fun _ _ h => ⟨h.1, fun hw => absurd hw hnw, fun _ => h.2⟩) hrest

/-- Consistency reads CODE, the coordinator and the units alone. -/
theorem controlConsistent_congr {s t : State} (hcode : t.regs.status.code = s.regs.status.code)
    (hcoord : t.coord = s.coord) (hunits : t.units = s.units) (h : ControlConsistent s) : ControlConsistent t := by
  unfold ControlConsistent at h ⊢
  rwa [hcode, hcoord, hunits]

theorem isBusy_eq_true_iff (s : State) : isBusy s = true ↔ s.regs.status.code = .busy := by simp [isBusy]

theorem isBusy_eq_false_iff (s : State) : isBusy s = false ↔ s.regs.status.code ≠ .busy := by simp [isBusy]

/-- A block that is not BUSY runs no search (R51, R210). -/
theorem cstate_of_not_busy {s : State} (h : s.regs.status.code = .busy ↔ s.coord.cstate ≠ .idle)
    (hb : isBusy s = false) : s.coord.cstate = .idle := by
  by_contra hc
  exact (isBusy_eq_false_iff s).1 hb (h.2 hc)

theorem controlConsistent_not_busy {s : State} (h : ControlConsistent s) (hb : isBusy s = false) :
    s.coord.cstate = .idle ∧ SnapshotFits s.coord.snap s.units.length ∧ RestFrom 0 s.units := by
  have hc := cstate_of_not_busy h.1 hb
  exact ⟨hc, ((controlConsistent_idle_iff hc).1 h).2⟩

/-- A searching unit belongs to a running search (R228). -/
theorem running_of_searching {s : State} {k : Nat} {u : SearchUnit} (h : ControlConsistent s)
    (hu : s.units[k]? = some u) (hs : u.ustate = .searching) : s.coord.cstate ≠ .idle ∧ k < s.coord.snap.units := by
  have hnot : ¬ (s.coord.cstate = .idle ∨ s.coord.snap.units ≤ k) := fun hk => by
    have hidle := (atRest_of_control h hu hk).1
    rw [hs] at hidle
    cases hidle
  exact ⟨fun hc => hnot (.inl hc), Nat.lt_of_not_le fun hge => hnot (.inr hge)⟩

end Machine
end Sys2Proof
end

section
/-! Every event keeps STATUS, the coordinator and the units consistent: the operations that move the coordinator, and
then one case per effect (R43, R48, R51, R210, R222, R228, R288). -/

namespace Sys2Proof
namespace Machine

/-! ### STATUS -/

/-- Two register files that show the same result: NONCE and every STATUS field but REJECTED (R48, R280). -/
def SameResult (r r' : HostRegs) : Prop :=
  r'.nonceLo = r.nonceLo ∧ r'.nonceHi = r.nonceHi ∧ r'.status.code = r.status.code ∧
    r'.status.nonceValid = r.status.nonceValid ∧ r'.status.done = r.status.done ∧ r'.status.reason = r.status.reason

theorem sameResult_storeReg (off : BitVec 6) (v : Word) (r : HostRegs) : SameResult r (storeReg off v r) := by
  obtain ⟨hst, -, -, hlo, hhi⟩ := storeReg_fields off v r
  exact ⟨hlo, hhi, by rw [hst], by rw [hst], by rw [hst], by rw [hst]⟩

theorem statusConsistent_congr {r r' : HostRegs} (h : SameResult r r') (hs : StatusConsistent r) :
    StatusConsistent r' := by
  obtain ⟨hlo, hhi, hcode, hnv, hdone, hreason⟩ := h
  unfold StatusConsistent at hs ⊢
  rwa [hlo, hhi, hcode, hnv, hdone, hreason]

theorem statusConsistent_reset : StatusConsistent HostRegs.reset := by
  refine ⟨?_, ?_, ?_, ?_, ?_⟩ <;> decide

/-- A command that fails leaves no nonce; its REASON is 0 but for INVALID_INPUT (R271, R272). -/
theorem statusConsistent_raise {code : StatusCode} {reason : BitVec 4} (s : State)
    (hcode : code = .invalidInput ∧ 1 ≤ reason.toNat ∧ reason.toNat ≤ 4 ∨ code = .illegalCommand ∧ reason = 0#4) :
    StatusConsistent (raiseStatus code reason (s.withNonce 0)).regs := by
  have hne : 1 ≤ reason.toNat → reason ≠ 0#4 := by rintro h rfl; exact absurd h (by decide)
  unfold StatusConsistent
  rcases hcode with ⟨rfl, h1, h4⟩ | ⟨rfl, rfl⟩
  · simp [hne h1, h4, highHalf, lowHalf]
  · simp [highHalf, lowHalf]

/-- `START` (R243). -/
theorem statusConsistent_started (s : State) : StatusConsistent (started s).regs := by
  simp [StatusConsistent, started, highHalf, lowHalf]

/-- The codes that end a search (R216–R219, R221). -/
def EndsSearch (code : StatusCode) : Prop := code ≠ .idle ∧ code ≠ .busy ∧ code ≠ .invalidInput

theorem endsSearch_of_drainOutcome {dl : Bool} {code : StatusCode} (h : DrainOutcome dl code) : EndsSearch code := by
  obtain ⟨rfl | rfl | rfl | rfl, -⟩ := h <;> exact ⟨nofun, nofun, nofun⟩

/-- `PUBLISH` shows a nonce for FOUND alone (R223). -/
theorem statusConsistent_publishOutcome {s : State} (h : EndsSearch s.coord.latch.code) :
    StatusConsistent (publishOutcome s).regs := by
  obtain ⟨hidle, hbusy, hinv⟩ := h
  have hnonce : s.coord.latch.code ≠ .found → publishedNonce s.coord.latch = 0 := fun hf => if_neg hf
  unfold StatusConsistent
  simp only [publishOutcome_status, publishOutcome_nonceLo, publishOutcome_nonceHi, Status.publish_code,
    Status.publish_nonceValid, Status.publish_done, Status.publish_reason, beq_iff_eq, beq_eq_false_iff_ne]
  refine ⟨trivial, by simp [hidle, hbusy], by simp [hinv], by decide, fun hf => ?_⟩
  rw [hnonce hf]
  exact ⟨rfl, rfl⟩

/-- Every event keeps STATUS consistent (R43, R48). -/
theorem statusConsistent_effect {e : Event} {s t : State} (he : Effect e s t) (hc : ControlConsistent s)
    (hs : StatusConsistent s.regs) : StatusConsistent t.regs := by
  cases he with
  | rst b =>
    cases b
    · exact hs
    · exact statusConsistent_reset
  | stored a off v => exact statusConsistent_congr (sameResult_storeReg off v s.regs) hs
  | illegal => exact statusConsistent_raise _ (.inr ⟨rfl, rfl⟩)
  | invalid a reason _ _ h1 h4 => exact statusConsistent_raise _ (.inl ⟨rfl, h1, h4⟩)
  | zeroDeadline => exact statusConsistent_publishOutcome ⟨nofun, nofun, nofun⟩
  | launched => exact statusConsistent_started s
  | exhausted => exact statusConsistent_publishOutcome ⟨nofun, nofun, nofun⟩
  | published _ hd =>
    obtain ⟨-, -, -, hout, -⟩ := (controlConsistent_drain_iff hd).1 hc
    exact statusConsistent_publishOutcome (endsSearch_of_drainOutcome hout)
  | _ => exact statusConsistent_congr ⟨rfl, rfl, rfl, rfl, rfl, rfl⟩ hs

/-! ### The coordinator's operations -/

/-- `PUBLISH` leaves C_IDLE and every unit at rest, once every report is consumed (R223). -/
theorem controlConsistent_publishOutcome {s : State} (hcode : s.coord.latch.code ≠ .busy)
    (hfit : SnapshotFits s.coord.snap s.units.length)
    (hbelow : UnitsBelow s.coord.snap.units s.units fun _ u => u.report = .none)
    (hrest : RestFrom s.coord.snap.units s.units) : ControlConsistent (publishOutcome s) := by
  refine (controlConsistent_idle_iff rfl).2 ⟨hcode, ?_, restFrom_releaseUnits hbelow hrest⟩
  rwa [publishOutcome_units, releaseUnits, List.length_mapIdx]

/-- A unit that the search launched (R214). -/
def LaunchedConsistent (_ : Nat) (u : SearchUnit) : Prop := UnitConsistent u ∧ u.ustate ≠ .idle

theorem launchedConsistent_of_wait {dl : Bool} {k : Nat} {u : SearchUnit} (h : UnitConsistent u ∧ UnitInWait dl u) :
    LaunchedConsistent k u := ⟨h.1, h.2.1⟩

/-- A consumed report leaves the unit as launched as it was (R215). -/
theorem launchedConsistent_consume {k : Nat} {u : SearchUnit} (h : LaunchedConsistent k u) :
    LaunchedConsistent k { u with report := .none } := ⟨⟨fun hr => absurd rfl hr, h.1.2⟩, h.2⟩

/-- A decided outcome drains the search: every launched unit that still searches is asked to stop (R220). -/
theorem controlConsistent_decideOutcome {s : State} {code : StatusCode} {reason : Stop}
    (hbusy : s.regs.status.code = .busy) (hfit : SnapshotFits s.coord.snap s.units.length)
    (hbelow : UnitsBelow s.coord.snap.units s.units LaunchedConsistent)
    (hrest : RestFrom s.coord.snap.units s.units) (hreason : reason ≠ .none)
    (hcode : DrainOutcome s.coord.snap.dl code) : ControlConsistent (decideOutcome code reason s) := by
  refine (controlConsistent_drain_iff rfl).2 ⟨hbusy, ?_, rfl, hcode, ?_, restFrom_stopUnits hrest⟩
  · rwa [decideOutcome_units, stopUnits, List.length_mapIdx]
  · refine unitsBelow_stopUnits hbelow (fun _ u h ht => ?_) (fun _ u h _ => ?_) (Nat.le_refl _)
    · exact ⟨h.1, h.2, fun hs => by rw [hs] at ht; cases ht⟩
    · exact ⟨⟨h.1.1, fun hi => absurd hi h.2⟩, h.2, fun _ => hreason⟩

/-- The unit LAUNCH sets searching from `v`, a unit with its registers written, on the scalar backend (R181). -/
def scalarLaunched (pr : Params) (d : List Byte) (v : SearchUnit) : SearchUnit :=
  { v with backend := .scalar, inp := candidate pr d v.rangeStart, n := v.rangeStart, enc := v.rangeStart,
           ustate := .searching }

/-- The same on the vector backend (R160, R181). -/
def vectorLaunched (pr : Params) (d : List Byte) (v : SearchUnit) : SearchUnit :=
  { v with backend := .vector, vin := batchInput pr d (batchBase v.rangeStart), n := batchBase v.rangeStart,
           enc := batchBase v.rangeStart, ustate := .searching }

/-- Everything a unit's launch can do (R181, R189, R213). -/
theorem unitLaunch_cases (pr : Params) (e : Env) (d : List Byte) (k : Nat) (vec fb : Bool) (v : SearchUnit) :
    (v.empty = true ∧ unitLaunch pr e d k vec fb v = terminate v .exhausted) ∨
    (v.empty = false ∧ NoUsableBackend e e.searches k vec fb ∧ unitLaunch pr e d k vec fb v = terminate v .failed) ∨
    (v.empty = false ∧ unitLaunch pr e d k vec fb v = scalarLaunched pr d v) ∨
    (v.empty = false ∧ unitLaunch pr e d k vec fb v = vectorLaunched pr d v) := by
  unfold unitLaunch
  by_cases he : v.empty = true
  · exact .inl ⟨he, by rw [if_pos he, unitStart, if_pos he]⟩
  · rw [if_neg he]
    rw [Bool.not_eq_true] at he
    cases hb : chooseBackend e k vec fb with
    | none => exact .inr (.inl ⟨he, (chooseBackend_eq_none_iff e k vec fb).1 hb, rfl⟩)
    | some b =>
      cases b with
      | scalar => exact .inr (.inr (.inl ⟨he, unitStart_scalar d (u := { v with backend := .scalar }) he rfl⟩))
      | vector => exact .inr (.inr (.inr ⟨he, unitStart_vector d (u := { v with backend := .vector }) he rfl⟩))

/-- What LAUNCH leaves of a unit's control: searching without a report, or ended with the matching one (R181, R189,
R213, R214). -/
theorem unitLaunch_control (pr : Params) (e : Env) (d : List Byte) (c : Snapshot) (k : Nat) (u : SearchUnit) :
    UnitConsistent (unitLaunch pr e d k c.vec c.fb (unitRegisters e.searches c k u)) ∧
      UnitInWait c.dl (unitLaunch pr e d k c.vec c.fb (unitRegisters e.searches c k u)) := by
  rcases unitLaunch_cases pr e d k c.vec c.fb (unitRegisters e.searches c k u) with ⟨-, h⟩ | ⟨-, -, h⟩ | ⟨-, h⟩ | ⟨-, h⟩
  · rw [h]; simp [UnitConsistent, UnitInWait, reportFor]
  · rw [h]; simp [UnitConsistent, UnitInWait, reportFor]
  · rw [h]; simp [UnitConsistent, UnitInWait, scalarLaunched, isTerminal]
  · rw [h]; simp [UnitConsistent, UnitInWait, vectorLaunched, isTerminal]

/-- LAUNCH enters C_WAIT with no EXHAUSTED report counted (R214). -/
theorem controlConsistent_launchedState {s : State} {c : Snapshot} (hfit : SnapshotFits c s.units.length)
    (hrest : RestFrom 0 s.units) : ControlConsistent (launchedState c s) := by
  refine (controlConsistent_wait_iff rfl).2 ⟨rfl, ?_, rfl, ?_, ?_, ?_⟩
  · change SnapshotFits c (launchUnits s.params s.env s.regs.digest c s.units).length
    rwa [launchUnits, List.length_mapIdx]
  · obtain ⟨u, hu⟩ : ∃ u, s.units[0]? = some u := by
      obtain ⟨h1, h2, -⟩ := hfit
      exact ⟨_, List.getElem?_eq_getElem (show 0 < s.units.length by omega)⟩
    refine ⟨0, unitLaunch s.params s.env s.regs.digest 0 c.vec c.fb (unitRegisters s.env.searches c 0 u), hfit.1, ?_,
      launch_exh _ _ _ _ _⟩
    change (launchUnits s.params s.env s.regs.digest c s.units)[0]? = _
    rw [getElem?_launchUnits, hu, Option.map_some, if_pos (show 0 < c.units from hfit.1)]
  · exact unitsBelow_launchUnits (P := fun _ _ => True) (fun _ _ _ _ => trivial)
      fun k u _ _ => unitLaunch_control _ _ _ _ k u
  · exact restFrom_launchUnits (restFrom_mono hrest (Nat.zero_le _))

/-- A command that fails in a block that is not BUSY leaves C_IDLE (R272). -/
theorem controlConsistent_raise {s : State} {code : StatusCode} {reason : BitVec 4} (h : ControlConsistent s)
    (hb : isBusy s = false) (hcode : code ≠ .busy) :
    ControlConsistent (raiseStatus code reason ((acceptCommand s).withNonce 0)) := by
  obtain ⟨hc, hfit, hrest⟩ := controlConsistent_not_busy h hb
  exact (controlConsistent_idle_iff (s := raiseStatus code reason ((acceptCommand s).withNonce 0)) hc).2
    ⟨hcode, hfit, hrest⟩

/-! ### An evaluation -/

/-- An evaluation of a searching unit in C_WAIT: only its own end or the deadline ends it (R182, R185, R188). -/
theorem unitStep_inWait {pr : Params} {c : Coordinator} {u u' : SearchUnit} (hs : u.ustate = .searching)
    (hcons : UnitConsistent u) (hwait : UnitInWait c.snap.dl u) (h : unitStep pr (deadlineExpired c) u = .ok u') :
    UnitConsistent u' ∧ UnitInWait c.snap.dl u' := by
  have hr := report_of_searching hcons hs
  obtain ⟨-, -, hstop, -, hexh, -⟩ := hwait
  have hexh : u.exh = false := by
    rw [← Bool.not_eq_true]
    intro hx
    obtain ⟨hend, -⟩ := hexh hx
    rw [hs] at hend
    cases hend
  obtain ⟨⟨kstop, kexh, -⟩, ⟨st, hst, rfl⟩ | ⟨-, hcase⟩⟩ := unitStep_summary h
  · rcases stopCheck_cases hst with ⟨rfl, hd | ⟨-, hx⟩⟩ | ⟨-, hd⟩
    · rw [hstop] at hd; cases hd
    · have hdl := ((deadlineExpired_iff c).1 hx).1
      simp [UnitConsistent, UnitInWait, hstop, hexh, hdl, reportFor]
    · rw [hstop] at hd; cases hd
  · rw [hstop] at kstop
    rw [hexh] at kexh
    rw [hs, hr] at hcase
    rcases hcase with ⟨h1, h2⟩ | ⟨h1, h2⟩ | ⟨h1, h2⟩ <;>
      simp [UnitConsistent, UnitInWait, h1, h2, kstop, kexh, isTerminal, reportFor]

/-- An evaluation of a searching unit in C_DRAIN obeys the stop request (R188, R220). -/
theorem unitStep_inDrain {pr : Params} {x : Bool} {u u' : SearchUnit} (hs : u.ustate = .searching)
    (hdrain : UnitInDrain u) (h : unitStep pr x u = .ok u') :
    UnitConsistent u' ∧ UnitInDrain u' := by
  have hstop := hdrain.2 hs
  obtain ⟨-, ⟨st, hst, rfl⟩ | ⟨hst, -⟩⟩ := unitStep_summary h
  · rcases stopCheck_cases hst with ⟨rfl, -⟩ | ⟨rfl, -⟩ <;> simp [UnitConsistent, UnitInDrain, reportFor]
  · exact absurd (stopCheck_none hst).1 hstop

/-! ### Every event -/

theorem snapshotFits_set {c : Snapshot} {us : List SearchUnit} (h : SnapshotFits c us.length) (k : Nat)
    (u : SearchUnit) : SnapshotFits c (us.set k u).length := by rwa [List.length_set]

theorem snapshotFits_of_valid {s : State} {c : Snapshot} (h : ValidSearch s c)
    (hs : SnapshotFits s.coord.snap s.units.length) : SnapshotFits c s.units.length := by
  obtain ⟨htz, -, -, hle, -, h1, hU⟩ := h
  obtain ⟨hs1, hs2, -⟩ := hs
  exact ⟨h1, by omega, htz, hle⟩

/-- What a report consumed in C_WAIT decides: the search drains (R216, R218, R219). -/
theorem controlConsistent_decide_report {s : State} {k : Nat} {u : SearchUnit} {code : StatusCode} {reason : Stop}
    (h : ControlConsistent s) (hc : s.coord.cstate = .wait) (hu : s.units[k]? = some u)
    (hk : k < s.coord.snap.units) (hreason : reason ≠ .none) (hcode : DrainOutcome s.coord.snap.dl code) :
    ControlConsistent (decideOutcome code reason (s.withUnit k { u with report := .none })) := by
  obtain ⟨hbusy, hfit, -, -, hbelow, hrest⟩ := (controlConsistent_wait_iff hc).1 h
  have hlaunched := unitsBelow_mono hbelow fun k u => launchedConsistent_of_wait (k := k)
  exact controlConsistent_decideOutcome hbusy (snapshotFits_set hfit _ _)
    (unitsBelow_set hlaunched hu (launchedConsistent_consume (hlaunched k u hu hk))) (restFrom_set hrest hk) hreason
    hcode

/-- What the host or the deadline decides in C_WAIT: the search drains (R219, R221). -/
theorem controlConsistent_decide_wait {s : State} {code : StatusCode} {reason : Stop} (h : ControlConsistent s)
    (hc : s.coord.cstate = .wait) (hreason : reason ≠ .none) (hcode : DrainOutcome s.coord.snap.dl code) :
    ControlConsistent (decideOutcome code reason s) := by
  obtain ⟨hbusy, hfit, -, -, hbelow, hrest⟩ := (controlConsistent_wait_iff hc).1 h
  exact controlConsistent_decideOutcome hbusy hfit (unitsBelow_mono hbelow fun _ _ => launchedConsistent_of_wait)
    hrest hreason hcode

/-- An EXHAUSTED report counted in C_WAIT (R217). -/
theorem unitInWait_record {dl : Bool} {u : SearchUnit} (hcons : UnitConsistent u) (hwait : UnitInWait dl u)
    (hr : u.report = .exhausted) :
    UnitConsistent { u with report := .none, exh := true } ∧
      UnitInWait dl { u with report := .none, exh := true } := by
  have hex := ustate_of_report (st := .exhausted) hcons rfl hr
  obtain ⟨h1, h2, h3, h4, -, -⟩ := hwait
  exact ⟨⟨fun hne => absurd rfl hne, hcons.2⟩, h1, h2, h3, h4, fun _ => ⟨hex, rfl⟩, nofun⟩

theorem controlConsistent_evaluated {s : State} {k : Nat} {u u' : SearchUnit} (h : ControlConsistent s)
    (hu : s.units[k]? = some u) (hs : u.ustate = .searching)
    (hstep : unitStep s.params (deadlineExpired s.coord) u = .ok u') : ControlConsistent (s.withUnit k u') := by
  obtain ⟨hrun, hk⟩ := running_of_searching h hu hs
  cases hc : s.coord.cstate with
  | idle => exact absurd hc hrun
  | wait =>
    obtain ⟨hbusy, hfit, hset, ⟨j, v, hj, hv, hexh⟩, hbelow, hrest⟩ := (controlConsistent_wait_iff hc).1 h
    obtain ⟨hcons, hwait⟩ := hbelow k u hu hk
    refine (controlConsistent_wait_iff (s := s.withUnit k u') hc).2 ⟨hbusy, snapshotFits_set hfit _ _, hset, ?_,
      unitsBelow_set hbelow hu (unitStep_inWait hs hcons hwait hstep), restFrom_set hrest hk⟩
    by_cases hjk : k = j
    · subst hjk
      rw [hu, Option.some.injEq] at hv
      subst hv
      obtain ⟨⟨-, kexh, -⟩, -⟩ := unitStep_summary hstep
      exact ⟨k, u', hj, getElem?_set_self hu, kexh.trans hexh⟩
    · exact ⟨j, v, hj, (List.getElem?_set_ne hjk).trans hv, hexh⟩
  | drain =>
    obtain ⟨hbusy, hfit, hset, hout, hbelow, hrest⟩ := (controlConsistent_drain_iff hc).1 h
    exact (controlConsistent_drain_iff (s := s.withUnit k u') hc).2 ⟨hbusy, snapshotFits_set hfit _ _, hset, hout,
      unitsBelow_set hbelow hu (unitStep_inDrain hs (hbelow k u hu hk).2 hstep), restFrom_set hrest hk⟩

theorem controlConsistent_counted {s : State} {k : Nat} {u : SearchUnit} (h : ControlConsistent s)
    (hu : s.units[k]? = some u) (hk : k < s.coord.snap.units) (hc : s.coord.cstate = .wait)
    (hr : u.report = .exhausted)
    (hall : allExhausted s.coord.snap.units (s.units.set k { u with report := .none, exh := true }) = false) :
    ControlConsistent (recordExhausted k u s) := by
  obtain ⟨hbusy, hfit, hset, -, hbelow, hrest⟩ := (controlConsistent_wait_iff hc).1 h
  obtain ⟨hcons, hwait⟩ := hbelow k u hu hk
  refine (controlConsistent_wait_iff (s := recordExhausted k u s) hc).2 ⟨hbusy, snapshotFits_set hfit _ _, hset, ?_,
    unitsBelow_set hbelow hu (unitInWait_record hcons hwait hr), restFrom_set hrest hk⟩
  have hnot := mt (allExhausted_iff _ _).2 (by rw [hall]; nofun)
  push Not at hnot
  obtain ⟨j, v, hj, hv, hexh⟩ := hnot
  exact ⟨j, v, hj, hv, by simpa using hexh⟩

theorem controlConsistent_exhausted {s : State} {k : Nat} {u : SearchUnit} (h : ControlConsistent s)
    (hu : s.units[k]? = some u) (hk : k < s.coord.snap.units) (hc : s.coord.cstate = .wait)
    (hr : u.report = .exhausted)
    (hall : allExhausted s.coord.snap.units (s.units.set k { u with report := .none, exh := true }) = true) :
    ControlConsistent (publishOutcome (latchCode .exhausted (recordExhausted k u s))) := by
  obtain ⟨-, hfit, -, -, hbelow, hrest⟩ := (controlConsistent_wait_iff hc).1 h
  obtain ⟨hcons, hwait⟩ := hbelow k u hu hk
  have hrecorded := unitsBelow_set hbelow hu (unitInWait_record hcons hwait hr)
  refine controlConsistent_publishOutcome nofun (snapshotFits_set hfit _ _) ?_ (restFrom_set hrest hk)
  intro j v hv hj
  obtain ⟨-, -, -, -, -, hexh, -⟩ := hrecorded j v hv hj
  exact (hexh ((allExhausted_iff _ _).1 hall j v hj hv)).2

theorem controlConsistent_discarded {s : State} {k : Nat} {u : SearchUnit} (h : ControlConsistent s)
    (hu : s.units[k]? = some u) (hk : k < s.coord.snap.units) (hc : s.coord.cstate = .drain) :
    ControlConsistent (s.withUnit k { u with report := .none }) := by
  obtain ⟨hbusy, hfit, hset, hout, hbelow, hrest⟩ := (controlConsistent_drain_iff hc).1 h
  obtain ⟨hcons, hdrain⟩ := hbelow k u hu hk
  exact (controlConsistent_drain_iff (s := s.withUnit k { u with report := .none }) hc).2 ⟨hbusy, snapshotFits_set hfit _ _, hset, hout,
    unitsBelow_set hbelow hu ⟨⟨fun hne => absurd rfl hne, hcons.2⟩, hdrain⟩, restFrom_set hrest hk⟩

theorem controlConsistent_published {s : State} (h : ControlConsistent s) (hc : s.coord.cstate = .drain)
    (hall : allDrained s.coord.snap.units s.units = true) : ControlConsistent (publishOutcome s) := by
  obtain ⟨-, hfit, -, hout, -, hrest⟩ := (controlConsistent_drain_iff hc).1 h
  obtain ⟨-, hbusy, -⟩ := endsSearch_of_drainOutcome hout
  exact controlConsistent_publishOutcome hbusy hfit
    (fun k u hu hk => ((allDrained_iff _ _).1 hall k u hk hu).2) hrest

theorem controlConsistent_zeroDeadline {s : State} {c : Snapshot} (hfit : SnapshotFits c s.units.length)
    (hrest : RestFrom 0 s.units) :
    ControlConsistent (publishOutcome (latchCode .timedOut (takeSnapshot c (started s)))) :=
  controlConsistent_publishOutcome nofun hfit (fun k u hu _ => (hrest k u hu (Nat.zero_le k)).2.2)
    (restFrom_mono hrest (Nat.zero_le _))

/-- A state with every unit reset and at least one unit context (R54). -/
theorem controlConsistent_reset {s : State} {n : Nat} (hn : 1 ≤ n) (hregs : s.regs = HostRegs.reset)
    (hcoord : s.coord = Coordinator.reset) (hunits : s.units = List.replicate n SearchUnit.reset) :
    ControlConsistent s := by
  refine (controlConsistent_idle_iff (by rw [hcoord]; rfl)).2 ⟨by rw [hregs]; nofun, ?_, ?_⟩
  · rw [hcoord, hunits, List.length_replicate]
    exact ⟨Nat.le_refl 1, hn, Nat.zero_le _, Nat.le_refl _⟩
  · intro k u hu _
    rw [hunits] at hu
    rw [List.eq_of_mem_replicate (List.mem_of_getElem? hu)]
    exact ⟨rfl, rfl, rfl⟩

/-- Every event keeps the coordinator, STATUS and the units consistent (R210, R222, R228). -/
theorem controlConsistent_effect {e : Event} {s t : State} (he : Effect e s t) (h : ControlConsistent s) :
    ControlConsistent t := by
  cases he with
  | none => exact h
  | rst b =>
    cases b
    · exact controlConsistent_congr rfl rfl rfl h
    · obtain ⟨h1, hU, -⟩ := snapshotFits_of_control h
      exact controlConsistent_reset (Nat.le_trans h1 hU) rfl rfl rfl
  | returned => exact controlConsistent_congr rfl rfl rfl h
  | rejected => exact controlConsistent_congr rfl rfl rfl h
  | accepted => exact controlConsistent_congr rfl rfl rfl h
  | illegal w _ hb =>
    exact controlConsistent_raise h hb nofun
  | digest => exact controlConsistent_congr rfl rfl rfl h
  | stored a off v =>
    exact controlConsistent_congr (congrArg Status.code (storeReg_fields off v s.regs).1) rfl rfl h
  | invalid a reason _ hb =>
    exact controlConsistent_raise h hb nofun
  | zeroDeadline a c _ hb hv =>
    obtain ⟨-, hfit, hrest⟩ := controlConsistent_not_busy h hb
    exact controlConsistent_zeroDeadline (snapshotFits_of_valid hv hfit) hrest
  | launched a c _ hb hv =>
    obtain ⟨-, hfit, hrest⟩ := controlConsistent_not_busy h hb
    exact controlConsistent_launchedState (snapshotFits_of_valid hv hfit) hrest
  | cancelled a _ _ _ hc => exact controlConsistent_decide_wait h hc nofun ⟨by decide, nofun⟩
  | ticked n _ hrun =>
    cases hc : s.coord.cstate with
    | idle => exact absurd hc hrun
    | wait => exact (controlConsistent_wait_iff hc).2 ((controlConsistent_wait_iff hc).1 h)
    | drain => exact (controlConsistent_drain_iff hc).2 ((controlConsistent_drain_iff hc).1 h)
  | evaluated k u u' _ hu hs hstep => exact controlConsistent_evaluated h hu hs hstep
  | found k u _ hu hk hc =>
    exact controlConsistent_congr rfl rfl rfl
      (controlConsistent_decide_report (code := .found) (reason := .cancel) h hc hu hk nofun ⟨by decide, nofun⟩)
  | timedOut k u _ hu hk hc hr =>
    obtain ⟨-, -, -, -, hbelow, -⟩ := (controlConsistent_wait_iff hc).1 h
    obtain ⟨hcons, -, -, -, hdl, -⟩ := hbelow k u hu hk
    have hout := ustate_of_report (st := .timedOut) hcons rfl hr
    exact controlConsistent_decide_report h hc hu hk nofun ⟨by decide, fun _ => hdl hout⟩
  | failed k u _ hu hk hc => exact controlConsistent_decide_report h hc hu hk nofun ⟨by decide, nofun⟩
  | counted k u _ hu hk hc hr hall => exact controlConsistent_counted h hu hk hc hr hall
  | exhausted k u _ hu hk hc hr hall => exact controlConsistent_exhausted h hu hk hc hr hall
  | discarded k u _ hu hk hc => exact controlConsistent_discarded h hu hk hc
  | expired _ hc hx =>
    exact controlConsistent_decide_wait h hc nofun ⟨by decide, fun _ => ((deadlineExpired_iff _).1 hx).1⟩
  | published _ hc hall => exact controlConsistent_published h hc hall

/-- STATUS and control together, as one invariant (R43, R210). -/
def Consistent (s : State) : Prop := StatusConsistent s.regs ∧ ControlConsistent s

theorem consistent_effect {e : Event} {s t : State} (he : Effect e s t) (h : Consistent s) : Consistent t :=
  ⟨statusConsistent_effect he h.2 h.1, controlConsistent_effect he h.2⟩

/-- Settles O50: every event keeps both halves of the invariant, so every step does. -/
theorem stepKeepsControlConsistent : Obligations.StepKeepsControlConsistent := by
  intro s t hs hc hstep
  exact step_preserves (I := Consistent) (fun _ _ _ h => h) (fun _ _ _ => consistent_effect) hstep ⟨hs, hc⟩

end Machine
end Sys2Proof
end

section
/-! Buffers: every event keeps every buffer full of trits (R21, R39, R69). -/

namespace Sys2Proof
namespace Machine

variable {pr : Params}

/-- A scalar buffer of 729 trits, by its cells (R21). -/
def FullTrits (S : TritState) : Prop := S.length = 729 ∧ ∀ c ∈ S, validCell c = true

/-- A vector buffer of 729 groups of 16 trits, by its groups (R21). -/
def FullLanes (V : VectorState) : Prop := V.length = 729 ∧ LanesValid V

/-- Every buffer of a unit is full of trits (R21, R69). -/
def FullBuffers (u : SearchUnit) : Prop :=
  FullTrits u.inp ∧ FullTrits u.bufA ∧ FullTrits u.bufB ∧ FullLanes u.vin ∧ FullLanes u.va ∧ FullLanes u.vb

theorem unitBuffersSound_iff (u : SearchUnit) : unitBuffersSound u = true ↔ FullBuffers u := by
  simp only [unitBuffersSound, Bool.and_eq_true, tritStateSound_iff, vectorStateSound_iff, FullBuffers, FullTrits,
    FullLanes]
  tauto

theorem fullBuffers_same {u v : SearchUnit} (h : SameBuffers u v) (hu : FullBuffers u) : FullBuffers v := by
  obtain ⟨h1, h2, h3, h4, h5, h6⟩ := h
  simpa only [FullBuffers, h1, h2, h3, h4, h5, h6] using hu

theorem fullTrits_candidate (d : List Byte) (n : Nonce) : FullTrits (candidate pr d n) :=
  ⟨length_candidate d n, valid_candidate d n⟩

theorem fullLanes_batchInput (d : List Byte) (n : Nonce) : FullLanes (batchInput pr d n) :=
  ⟨(groups_batch d n).1, lanesValid_batchInput d n⟩

theorem fullBuffers_reset : FullBuffers SearchUnit.reset := by
  have hs : FullTrits zeroState := ⟨length_zeroState, valid_zeroState⟩
  have hv : FullLanes zeroVector := ⟨List.length_replicate, lanesValid_zeroVector⟩
  exact ⟨hs, hs, hs, hv, hv, hv⟩

theorem fullBuffers_withInp {u : SearchUnit} (h : FullBuffers u) {S : TritState} (hS : FullTrits S) (b : Backend)
    (x y : Nonce) (st : UState) : FullBuffers { u with backend := b, inp := S, n := x, enc := y, ustate := st } :=
  ⟨hS, h.2⟩

theorem fullBuffers_withVin {u : SearchUnit} (h : FullBuffers u) {V : VectorState} (hV : FullLanes V) (b : Backend)
    (x y : Nonce) (st : UState) : FullBuffers { u with backend := b, vin := V, n := x, enc := y, ustate := st } := by
  obtain ⟨hin, ha, hb, -, hscratch⟩ := h
  exact ⟨hin, ha, hb, hV, hscratch⟩

/-- LAUNCH writes no buffer but the input state of a unit's first evaluation (R181). -/
theorem fullBuffers_launch (e : Env) (d : List Byte) (k : Nat) (vec fb : Bool) {v : SearchUnit} (h : FullBuffers v) :
    FullBuffers (unitLaunch pr e d k vec fb v) := by
  rcases unitLaunch_cases pr e d k vec fb v with ⟨-, hl⟩ | ⟨-, -, hl⟩ | ⟨-, hl⟩ | ⟨-, hl⟩
  · rw [hl]; exact h
  · rw [hl]; exact h
  · rw [hl]; exact fullBuffers_withInp h (fullTrits_candidate d v.rangeStart) _ _ _ _
  · rw [hl]; exact fullBuffers_withVin h (fullLanes_batchInput d (batchBase v.rangeStart)) _ _ _ _

/-- A scalar verdict writes no buffer but the input state, by the codec (R182, R184). -/
theorem fullBuffers_scalarVerdict (H : TritState) {u : SearchUnit} (h : FullBuffers u) :
    FullBuffers (scalarVerdict pr H u) := by
  unfold scalarVerdict
  split
  · exact h
  split
  · exact h
  · obtain ⟨⟨hl, hv⟩, hrest⟩ := h
    exact ⟨⟨(length_encodeNonce _ _ _ _ _).trans hl, valid_encodeNonce _ _ _ _ _ hv⟩, hrest⟩

/-- A batch's verdict writes no buffer but the vector input state, by the codec (R185, R186). -/
theorem fullBuffers_vectorVerdict (V : VectorState) {u : SearchUnit} (h : FullBuffers u) :
    FullBuffers (vectorVerdict pr V u) := by
  unfold vectorVerdict
  split
  · exact h
  split
  · exact h
  · obtain ⟨hin, ha, hb, ⟨hl, hv⟩, hrest⟩ := h
    exact ⟨hin, ha, hb, ⟨(length_vEncodeNonce _ _ _ _ _).trans hl, lanesValid_vEncodeNonce _ _ _ _ _ hv⟩, hrest⟩

/-- An evaluation keeps every buffer full of trits: the kernel's scratch buffers and the next input state (R21, R135,
R154). -/
theorem fullBuffers_step (x : Bool) {u u' : SearchUnit} (h : FullBuffers u) (hs : unitStep pr x u = .ok u') :
    FullBuffers u' := by
  obtain ⟨hin, ha, hb, hvin, hva, hvb⟩ := h
  unfold unitStep at hs
  split at hs
  · unfold scalarStep at hs
    split at hs
    · cases hs; exact ⟨hin, ha, hb, hvin, hva, hvb⟩
    split at hs
    · cases hs
    · rename_i k hk
      cases hs
      obtain ⟨v1, l1, v2, l2⟩ := transform_sound hin.2 hb.2 hb.1 hk
      exact fullBuffers_scalarVerdict _ (u := withScalarKernel u k) ⟨hin, ⟨l1, v1⟩, ⟨l2, v2⟩, hvin, hva, hvb⟩
  · unfold vectorStep at hs
    split at hs
    · cases hs; exact ⟨hin, ha, hb, hvin, hva, hvb⟩
    split at hs
    · cases hs
    · rename_i k hk
      cases hs
      obtain ⟨o, ho, -, -, v1, l1, hother⟩ := vTransform_valid hvin.2 hvin.1 u.vb
      rw [ho, Except.ok.injEq] at hk
      subst hk
      exact fullBuffers_vectorVerdict _ (u := withVectorKernel u o)
        ⟨hin, ha, hb, hvin, ⟨l1, v1⟩, hother hvb.1 hvb.2⟩

/-- The machine's buffers, unit by unit (R21, R39). -/
theorem buffersSound_iff (s : State) :
    BuffersSound s ↔ s.regs.digest.length = 32 ∧ ∀ u ∈ s.units, FullBuffers u := by
  simp only [BuffersSound, unitBuffersSound_iff, Config.digestBytes]

theorem buffersSound_effect {e : Event} {s t : State} (he : Effect e s t) (h : BuffersSound s) : BuffersSound t := by
  rw [buffersSound_iff] at h ⊢
  exact ⟨length_digest_effect he h.1, forall_units_effect fullBuffers_reset (fun _ _ => fullBuffers_same)
    (fun _ e d c k _ hu => fullBuffers_launch e d k c.vec c.fb hu) (fun _ x _ _ => fullBuffers_step x) he h.2⟩

/-- Settles O49: no event writes a buffer but reset, the codec and the kernel, and each writes trits alone. -/
theorem stepKeepsBuffersSound : Obligations.StepKeepsBuffersSound := by
  intro s t h hstep
  exact step_preserves (fun _ _ _ h => h) (fun _ _ _ => buffersSound_effect) hstep h

end Machine
end Sys2Proof
end

section
/-! One unit's evaluation: what it establishes about its part of the range, on either backend (R184, R187, R191). -/

namespace Sys2Proof
namespace Machine

variable {pr : Params} {d : List Byte}

/-! ### Refuted nonces -/

/-- One more refuted nonce (R191). -/
theorem nonePass_succ {tz lo : Nat} {n : Nonce} (h : NonePass pr d tz lo n.toNat) (hn : passes pr d tz n = false) :
    NonePass pr d tz lo (n.toNat + 1) := by
  intro m hlo hm
  rcases Nat.lt_succ_iff_lt_or_eq.1 hm with hlt | heq
  · exact h m hlo hlt
  · obtain rfl := BitVec.eq_of_toNat_eq heq
    exact hn

theorem toNat_add_one {n : Nonce} (h : n.toNat + 1 < 2 ^ 64) : (n + 1).toNat = n.toNat + 1 := by
  have h1 : (1 : Nonce).toNat = 1 := rfl
  rw [BitVec.toNat_add, h1, Nat.mod_eq_of_lt h]

/-- The nonce of lane `l` (R109). -/
theorem eq_lane_nonce {base m : Nonce} {l : Nat} (hl : l < 16) (h : m.toNat = base.toNat + l) :
    m = base + BitVec.ofNat 64 l := by
  apply BitVec.eq_of_toNat_eq
  have := m.isLt
  rw [BitVec.toNat_add, BitVec.toNat_ofNat, Nat.mod_eq_of_lt (a := l) (by omega), Nat.mod_eq_of_lt (by omega), h]

/-! ### Input states stay current -/

/-- The scalar input state after its partial re-encode (R184). -/
theorem candidate_advance {n : Nonce} (h : n.toNat + 1 < 2 ^ 64) :
    encodeNonce pr.signMode pr.byteOrder (candidate pr d n) (n + 1) (advanceCount (n + 1)) = candidate pr d (n + 1) :=
  reencode_of_bytes _ _ _ _ _ _ (advanceCount_bounds _).2 fun k hk hk8 =>
    byteOf_advance n 1 k Nat.one_pos h (Nat.one_dvd _) (Nat.one_dvd _) hk hk8

/-- Lane `l` of a batch's input state is the candidate of its nonce (R112). -/
theorem laneOf_batchInput {base : Nonce} (hb : base.toNat % 16 = 0) {l : Nat} (hl : l < 16) :
    laneOf l (batchInput pr d base) = candidate pr d (base + BitVec.ofNat 64 l) := by
  rw [batchInput, laneOf_vEncodeNonce _ _ _ _ _ (by decide) hb l hl, laneOf_vEncodeDigest _ _ _ _ hl,
    laneOf_zeroVector, candidate, inputState]

/-- The vector input state after its partial re-encode (R184, R186). -/
theorem batchInput_advance {n : Nonce} (hn : n.toNat % 16 = 0) (h : n.toNat + 16 < 2 ^ 64) :
    vEncodeNonce pr.signMode pr.byteOrder (batchInput pr d n) (n + 16) (advanceCount (n + 16)) =
      batchInput pr d (n + 16) := by
  obtain ⟨hlen, hgroups⟩ := groups_batch (pr := pr) d n
  obtain ⟨hlen', hgroups'⟩ := groups_batch (pr := pr) d (n + 16)
  obtain ⟨hc1, hc8⟩ := advanceCount_bounds (n + 16)
  have h16 : (n + 16).toNat % 16 = 0 := by rw [toNat_add_16 h]; omega
  refine vector_ext (by rw [length_vEncodeNonce, hlen, hlen']) (groups_vEncodeNonce _ _ _ _ _ hgroups) hgroups'
    fun l hl => ?_
  rw [laneOf_vEncodeNonce _ _ _ _ _ hc1 h16 l hl, laneOf_batchInput hn hl, laneOf_batchInput h16 hl]
  refine reencode_of_bytes _ _ _ _ _ _ hc8 fun k hk hk8 => ?_
  have hk1 : 1 ≤ k := Nat.le_trans hc1 hk
  have hdvd : 16 ∣ 2 ^ (8 * k) := Nat.pow_dvd_pow 2 (show 4 ≤ 8 * k by omega)
  have hadv := byteOf_advance n 16 k (by decide) h hdvd (Nat.dvd_of_mod_eq_zero hn) hk hk8
  calc byteOf (n + 16 + BitVec.ofNat 64 l) k
      = byteOf (n + 16) k := byteOf_lane _ h16 l hl k hk1
    _ = byteOf n k := hadv
    _ = byteOf (n + BitVec.ofNat 64 l) k := (byteOf_lane n hn l hl k hk1).symm

/-! ### A batch's masks -/

/-- Lane `l` of `r` vector rounds is `r` rounds of lane `l` (R155). -/
theorem laneOf_iterate_vRoundCells {l : Nat} (hl : l < 16) (r : Nat) :
    ∀ {V : VectorState}, LanesValid V → V.length = 729 →
      laneOf l (vRoundCells^[r] V) = roundCells^[r] (laneOf l V) := by
  induction r with
  | zero => intro V _ _; rfl
  | succ r ih =>
    intro V hV hlen
    rw [Function.iterate_succ_apply, Function.iterate_succ_apply,
      ih (lanesValid_vRoundCells hV hlen) (length_vRoundCells V), laneOf_vRoundCells hV hlen hl]

/-- A bit of the zero mask is the lane's difficulty test (R156). -/
theorem getLsbD_vZmask {V : VectorState} (hlen : V.length = 729) (hV : LanesValid V) {tz l : Nat} (htz : tz ≤ 243)
    (hl : l < 16) : (vZmask V tz).getLsbD l = hit (laneOf l V) tz := by
  have hzero : ((List.replicate Config.lanes 0#8).getD l 0 == 0#8) = true :=
    beq_iff_eq.2 (getD_replicate_lane _ _ _ _ (.inr rfl))
  rw [vZmask, getLsbD_laneMask _ _ hl, zAccumulator,
    getD_zAccumulator_foldl hlen hV tz l htz hl _ (fun k hk => List.mem_range.1 hk) (List.replicate Config.lanes 0#8)
      List.length_replicate,
    hzero, Bool.true_and, hit]

/-- A bit of a batch's zero mask is a host's check of the lane's nonce (R142, R156). -/
theorem getLsbD_vZmask_batch {base m : Nonce} (hb : base.toNat % 16 = 0) {tz l : Nat} (htz : tz ≤ 243) (hl : l < 16)
    (hm : m.toNat = base.toNat + l) :
    (vZmask (vRoundCells^[81] (batchInput pr d base)) tz).getLsbD l = passes pr d tz m := by
  obtain ⟨hlen, hV⟩ := fullLanes_batchInput (pr := pr) d base
  obtain ⟨o, -, ho, -, hoV, holen, -⟩ := vTransform_valid hV hlen []
  rw [ho] at hoV holen
  rw [getLsbD_vZmask holen hoV htz hl, laneOf_iterate_vRoundCells hl 81 hV hlen, laneOf_batchInput hb hl,
    ← eq_lane_nonce hl hm, passes_eq, transformCells]

/-! ### What a unit has established, state by state -/

theorem unitEstablished_found {u : SearchUnit} (hs : u.ustate = .found) (he : u.empty = false)
    (h : SmallestPassing pr d u.tz u.rangeStart u.rangeEnd u.result) : UnitEstablished pr d u := by
  unfold UnitEstablished
  rw [hs]
  exact ⟨he, h⟩

theorem unitEstablished_exhausted {u : SearchUnit} (hs : u.ustate = .exhausted)
    (h : u.empty = true ∨ NonePass pr d u.tz u.rangeStart.toNat (u.rangeEnd.toNat + 1)) : UnitEstablished pr d u := by
  unfold UnitEstablished
  rw [hs]
  exact h

/-- A unit that ended with no result has established nothing (R191). -/
theorem unitEstablished_ended {u : SearchUnit} (hs : u.ustate = .timedOut ∨ u.ustate = .cancelled ∨ u.ustate = .failed) :
    UnitEstablished pr d u := by
  unfold UnitEstablished
  rcases hs with hs | hs | hs <;> rw [hs] <;> trivial

theorem unitEstablished_scalar_iff {u : SearchUnit} (hs : u.ustate = .searching) (hb : u.backend = .scalar) :
    UnitEstablished pr d u ↔ u.empty = false ∧ u.enc = u.n ∧ ScalarProgress pr d u := by
  unfold UnitEstablished
  rw [hs, hb]

theorem unitEstablished_vector_iff {u : SearchUnit} (hs : u.ustate = .searching) (hb : u.backend = .vector) :
    UnitEstablished pr d u ↔ u.empty = false ∧ u.enc = u.n ∧ VectorProgress pr d u := by
  unfold UnitEstablished
  rw [hs, hb]

/-! ### A verdict -/

/-- A scalar verdict on the transform of the current candidate (R182, R187). -/
theorem unitEstablished_scalarVerdict {u : SearchUnit} (hs : u.ustate = .searching) (hb : u.backend = .scalar)
    (he : u.empty = false) (h : ScalarProgress pr d u) :
    UnitEstablished pr d (scalarVerdict pr (transformCells u.inp) u) := by
  obtain ⟨hinp, hlo, hhi, hnone⟩ := h
  have hpass : passes pr d u.tz u.n = hit (transformCells u.inp) u.tz := by rw [hinp, passes_eq]
  cases hh : hit (transformCells u.inp) u.tz with
  | true =>
    rw [scalarVerdict_found hh]
    exact unitEstablished_found rfl he ⟨hlo, hhi, hpass.trans hh, hnone⟩
  | false =>
    have hsucc := nonePass_succ hnone (hpass.trans hh)
    by_cases hend : u.n = u.rangeEnd
    · rw [scalarVerdict_end hh hend]
      exact unitEstablished_exhausted rfl (.inr (by rw [hend] at hsucc; exact hsucc))
    · rw [scalarVerdict_next hh hend]
      have hlt : u.n.toNat < u.rangeEnd.toNat :=
        Nat.lt_of_le_of_ne hhi fun e => hend (BitVec.eq_of_toNat_eq e)
      have hwrap : u.n.toNat + 1 < 2 ^ 64 := Nat.lt_of_le_of_lt hlt u.rangeEnd.isLt
      refine (unitEstablished_scalar_iff (u := scalarAdvance pr u) hs hb).2 ⟨he, rfl, ?_⟩
      unfold ScalarProgress
      simp only [scalarAdvance_inp, scalarAdvance_n, scalarAdvance_rangeStart, scalarAdvance_rangeEnd,
        scalarAdvance_tz, toNat_add_one hwrap]
      exact ⟨by rw [hinp, candidate_advance hwrap], by omega, by omega, hsucc⟩

/-- The batch at `base` is refuted as far as the range reaches, when no lane is selected (R158, R187). -/
theorem nonePass_batch {base lo hi : Nonce} {tz hi' : Nat} {zm : LaneMask}
    (hz : ∀ (m : Nonce) l, l < 16 → m.toNat = base.toNat + l → zm.getLsbD l = passes pr d tz m)
    (hnone : NonePass pr d tz lo.toNat base.toNat) (hreach : hi' ≤ hi.toNat + 1) {n : Nat} (hn : n ≤ 16)
    (hbatch : hi' ≤ base.toNat + n)
    (hsel : ∀ l, l < n → ¬ (zm.getLsbD l = true ∧ (vRmask base lo hi).getLsbD l = true)) :
    NonePass pr d tz lo.toNat hi' := by
  intro m hlo hm
  rcases Nat.lt_or_ge m.toNat base.toNat with hlt | hge
  · exact hnone m hlo hlt
  · obtain ⟨l, hl⟩ := Nat.exists_eq_add_of_le hge
    have hl16 : l < 16 := by omega
    have hr : (vRmask base lo hi).getLsbD l = true := (getLsbD_vRmask base lo hi l hl16).2 ⟨by omega, by omega⟩
    have := hsel l (by omega)
    rw [hz m l hl16 hl, hr] at this
    simpa using this

/-- A batch's verdict on the transform of its candidates (R185, R187). -/
theorem unitEstablished_vectorVerdict {u : SearchUnit} (hs : u.ustate = .searching) (hb : u.backend = .vector)
    (he : u.empty = false) (htz : u.tz ≤ 243) (h : VectorProgress pr d u) :
    UnitEstablished pr d (vectorVerdict pr (vRoundCells^[81] u.vin) u) := by
  obtain ⟨hvin, h16, hhi, hlo, hrange, hnone⟩ := h
  have hz : ∀ (m : Nonce) l, l < 16 → m.toNat = u.n.toNat + l →
      (vZmask (vRoundCells^[81] u.vin) u.tz).getLsbD l = passes pr d u.tz m := fun m l hl hm => by
    rw [hvin, getLsbD_vZmask_batch h16 htz hl hm]
  obtain ⟨hsome, hnosel⟩ := vSelect_spec u.n h16 (vZmask (vRoundCells^[81] u.vin) u.tz)
    (vRmask u.n u.rangeStart u.rangeEnd)
  cases hsel : vSelect u.n (vZmask (vRoundCells^[81] u.vin) u.tz) (vRmask u.n u.rangeStart u.rangeEnd) with
  | some w =>
    obtain ⟨l, hl, hw, hzl, hrl, hleast⟩ := hsome w hsel
    obtain ⟨hr1, hr2⟩ := (getLsbD_vRmask _ _ _ _ hl).1 hrl
    rw [vectorVerdict_some hsel]
    refine unitEstablished_found rfl he ⟨by simpa [hw] using hr1, by simpa [hw] using hr2, ?_, ?_⟩
    · exact (hz w l hl hw).symm.trans hzl
    · exact nonePass_batch hz hnone (hi' := w.toNat) (by omega) (Nat.le_of_lt hl) (by omega) hleast
  | none =>
    have hnolane := hnosel.1 hsel
    by_cases hend : u.rangeEnd.toNat ≤ u.n.toNat + 15
    · rw [vectorVerdict_end hsel hend]
      exact unitEstablished_exhausted rfl
        (.inr (nonePass_batch hz hnone (hi' := u.rangeEnd.toNat + 1) (Nat.le_refl _) (Nat.le_refl 16) (by omega) hnolane))
    · rw [vectorVerdict_next hsel hend]
      have hwrap : u.n.toNat + 16 < 2 ^ 64 := by have := u.rangeEnd.isLt; omega
      refine (unitEstablished_vector_iff (u := vectorAdvance pr u) hs hb).2 ⟨he, rfl, ?_⟩
      unfold VectorProgress
      simp only [vectorAdvance_vin, vectorAdvance_n, vectorAdvance_rangeStart, vectorAdvance_rangeEnd,
        vectorAdvance_tz, toNat_add_16 hwrap]
      exact ⟨by rw [hvin, batchInput_advance h16 hwrap], by omega, by omega, by omega, hrange,
        nonePass_batch hz hnone (by omega) (Nat.le_refl 16) (Nat.le_refl _) hnolane⟩

/-! ### An evaluation -/

/-- An evaluation that passes its stop check is the verdict on the transform of the unit's input state (R182, R185). -/
theorem unitEstablished_step {x : Bool} {u u' : SearchUnit} (hs : u.ustate = .searching) (htz : u.tz ≤ 243)
    (h : UnitEstablished pr d u) (hstep : unitStep pr x u = .ok u') : UnitEstablished pr d u' := by
  cases hst : stopCheck u.stop x with
  | some st =>
    rw [unitStep_stopped hst, Except.ok.injEq] at hstep
    subst hstep
    rcases stopCheck_cases hst with ⟨rfl, -⟩ | ⟨rfl, -⟩
    · exact unitEstablished_ended (.inl rfl)
    · exact unitEstablished_ended (.inr (.inl rfl))
  | none =>
    obtain ⟨hstop, rfl⟩ := stopCheck_none hst
    cases hb : u.backend with
    | scalar =>
      obtain ⟨he, -, hprog⟩ := (unitEstablished_scalar_iff hs hb).1 h
      obtain ⟨k, -, -, hok⟩ := scalarStep_eval (pr := pr) hstop (by rw [hprog.1]; exact valid_candidate d u.n)
      simp only [unitStep, hb, hok, Except.ok.injEq] at hstep
      subst hstep
      exact unitEstablished_scalarVerdict (u := withScalarKernel u k) hs hb he hprog
    | vector =>
      obtain ⟨he, -, hprog⟩ := (unitEstablished_vector_iff hs hb).1 h
      obtain ⟨hlen, hV⟩ := fullLanes_batchInput (pr := pr) d u.n
      obtain ⟨k, -, -, hok⟩ := vectorStep_eval (pr := pr) (u := u) hstop (by rw [hprog.1]; exact hV)
        (by rw [hprog.1]; exact hlen)
      simp only [unitStep, hb, hok, Except.ok.injEq] at hstep
      subst hstep
      exact unitEstablished_vectorVerdict (u := withVectorKernel u k) hs hb he htz hprog

end Machine
end Sys2Proof
end

section
/-! Soundness: every event keeps what the units of a running search have established, and so the whole of `Sound`
(R184, R191, R212, R216, R218). -/

namespace Sys2Proof
namespace Machine

variable {pr : Params} {d : List Byte}

/-! ### What a running search has established -/

/-- Unit `k` of a search holds its part of the range and what it has established about it (R184, R191, R212). -/
def UnitWorks (pr : Params) (d : List Byte) (e : Env) (c : Snapshot) (k : Nat) (u : SearchUnit) : Prop :=
  UnitLaunched e c k u ∧ UnitEstablished pr d u

/-- Some unit of a search of `U` units has a property. -/
def ExistsBelow (U : Nat) (us : List SearchUnit) (P : Nat → SearchUnit → Prop) : Prop :=
  ∃ k u, us[k]? = some u ∧ k < U ∧ P k u

/-- A unit that found the nonce `n` in its part (R191, R216). -/
def FoundNonce (c : Snapshot) (n : Nonce) (k : Nat) (u : SearchUnit) : Prop :=
  partEmpty c k = false ∧ u.ustate = .found ∧ u.result = n

/-- A unit with no usable backend (R189, R218). -/
def HasFailed (_ : Nat) (u : SearchUnit) : Prop := u.ustate = .failed

theorem existsBelow_set {U k : Nat} {us : List SearchUnit} {P : Nat → SearchUnit → Prop} {u w : SearchUnit}
    (h : ExistsBelow U us P) (hu : us[k]? = some u) (hw : P k u → P k w) : ExistsBelow U (us.set k w) P := by
  obtain ⟨j, v, hv, hj, hP⟩ := h
  by_cases hkj : k = j
  · subst hkj
    rw [hu, Option.some.injEq] at hv
    subst hv
    exact ⟨k, w, getElem?_set_self hu, hj, hw hP⟩
  · exact ⟨j, v, (List.getElem?_set_ne hkj).trans hv, hj, hP⟩

theorem existsBelow_stopUnits {U V : Nat} {r : Stop} {us : List SearchUnit} {P : Nat → SearchUnit → Prop}
    (h : ExistsBelow U us P) (hstop : ∀ k u, P k u → P k { u with stop := r }) :
    ExistsBelow U (stopUnits V r us) P := by
  obtain ⟨k, u, hu, hk, hP⟩ := h
  refine ⟨k, _, by rw [getElem?_stopUnits, hu, Option.map_some], hk, ?_⟩
  split
  · exact hstop k u hP
  · exact hP

theorem searchEstablished_idle {s : State} (hc : s.coord.cstate = .idle) : SearchEstablished s :=
  fun h => absurd hc h

theorem searchEstablished_wait_iff {s : State} (hc : s.coord.cstate = .wait) :
    SearchEstablished s ↔
      UnitsBelow s.coord.snap.units s.units (UnitWorks s.params s.regs.digest s.env s.coord.snap) := by
  unfold SearchEstablished
  rw [hc]
  exact ⟨fun h => (h nofun).1, fun h _ => ⟨h, nofun, nofun⟩⟩

theorem searchEstablished_drain_iff {s : State} (hc : s.coord.cstate = .drain) :
    SearchEstablished s ↔
      UnitsBelow s.coord.snap.units s.units (UnitWorks s.params s.regs.digest s.env s.coord.snap) ∧
      (s.coord.latch.code = .found →
        ExistsBelow s.coord.snap.units s.units (FoundNonce s.coord.snap s.coord.latch.nonce)) ∧
      (s.coord.latch.code = .backendUnavailable → ExistsBelow s.coord.snap.units s.units HasFailed) := by
  unfold SearchEstablished
  rw [hc]
  constructor
  · intro h
    obtain ⟨hworks, hfound, hfailed⟩ := h nofun
    exact ⟨hworks, hfound rfl, hfailed rfl⟩
  · rintro ⟨hworks, hfound, hfailed⟩ -
    exact ⟨hworks, fun _ => hfound, fun _ => hfailed⟩

/-! ### Launching -/

/-- A part that is not empty has a first nonce no greater than its last (R212). -/
theorem partStart_le_partEnd {c : Snapshot} (q : Nat) (hle : c.min.toNat ≤ c.max.toNat) {k : Nat} (hk : k < c.units)
    (he : partEmpty c k = false) : (partStart c k).toNat ≤ (partEnd q c k).toNat := by
  obtain ⟨hstart, hend, hpos, hsize⟩ := part_bounds c q hle k hk he
  have hnext : (k + 1) * partSize c = k * partSize c + partSize c := Nat.succ_mul _ _
  rw [hstart]
  split at hend
  · rename_i hlast
    have := hpos hlast
    omega
  · have hmul : (k + 1) * partSize c ≤ c.units * partSize c := Nat.mul_le_mul_right _ hk
    rcases Nat.eq_zero_or_pos (partSize c) with hz | hz
    · rw [hz, Nat.mul_zero]
      omega
    · omega

theorem unitEstablished_scalarLaunched {v : SearchUnit} (he : v.empty = false)
    (hrange : v.rangeStart.toNat ≤ v.rangeEnd.toNat) : UnitEstablished pr d (scalarLaunched pr d v) := by
  refine (unitEstablished_scalar_iff rfl rfl).2 ?_
  simp only [ScalarProgress, scalarLaunched, he, true_and]
  exact ⟨Nat.le_refl _, hrange, fun m hlo hm => absurd hm (Nat.not_lt.2 hlo)⟩

theorem unitEstablished_vectorLaunched {v : SearchUnit} (he : v.empty = false)
    (hrange : v.rangeStart.toNat ≤ v.rangeEnd.toNat) : UnitEstablished pr d (vectorLaunched pr d v) := by
  obtain ⟨h16, hbase, hbase15⟩ := batchBase_bounds v.rangeStart
  refine (unitEstablished_vector_iff rfl rfl).2 ?_
  simp only [VectorProgress, vectorLaunched, he, true_and]
  exact ⟨h16, Nat.le_trans hbase hrange, hbase15, hrange,
    fun m hlo hm => absurd hm (Nat.not_lt.2 (Nat.le_trans hbase hlo))⟩

/-- A launched unit holds its part, and has established what its state says (R181, R189, R212–R214). -/
theorem unitWorks_launch {e e' : Env} {c : Snapshot} {k : Nat} (u : SearchUnit) (hfails : e'.initFails = e.initFails)
    (hsearch : e'.searches = e.searches + 1) (hle : c.min.toNat ≤ c.max.toNat) (hk : k < c.units) :
    UnitWorks pr d e' c k (unitLaunch pr e d k c.vec c.fb (unitRegisters e.searches c k u)) := by
  have hparts : ∀ v : SearchUnit, v.rangeStart = partStart c k → v.rangeEnd = partEnd e.searches c k →
      v.empty = partEmpty c k → v.tz = c.tz →
      (v.ustate = .failed → NoUsableBackend e e.searches k c.vec c.fb) → UnitLaunched e' c k v := by
    intro v h1 h2 h3 h4 h5
    refine ⟨h1, h3, h4, fun he q => h2.trans (partEnd_of_nonempty he _ _), fun hf => ?_⟩
    rw [hsearch, Nat.add_sub_cancel]
    unfold NoUsableBackend InitFails at h5 ⊢
    rw [hfails]
    exact h5 hf
  rcases unitLaunch_cases pr e d k c.vec c.fb (unitRegisters e.searches c k u) with
    ⟨he, h⟩ | ⟨he, hno, h⟩ | ⟨he, h⟩ | ⟨he, h⟩
  · rw [h]
    exact ⟨hparts _ rfl rfl rfl rfl nofun, unitEstablished_exhausted rfl (.inl he)⟩
  · rw [h]
    exact ⟨hparts _ rfl rfl rfl rfl fun _ => hno, unitEstablished_ended (.inr (.inr rfl))⟩
  · rw [h]
    exact ⟨hparts _ rfl rfl rfl rfl nofun,
      unitEstablished_scalarLaunched he (partStart_le_partEnd e.searches hle hk he)⟩
  · rw [h]
    exact ⟨hparts _ rfl rfl rfl rfl nofun,
      unitEstablished_vectorLaunched he (partStart_le_partEnd e.searches hle hk he)⟩

/-! ### An evaluation -/

/-- An evaluation neither moves a unit's part nor ends it FAILED (R189, R212). -/
theorem unitLaunched_step {e : Env} {c : Snapshot} {k : Nat} {x : Bool} {u u' : SearchUnit}
    (hs : u.ustate = .searching) (h : UnitLaunched e c k u) (hstep : unitStep pr x u = .ok u') :
    UnitLaunched e c k u' := by
  obtain ⟨⟨-, -, kstart, kend, ktz, kempty, -, -⟩, hcase⟩ := unitStep_summary hstep
  have hnf : u'.ustate ≠ .failed := by
    rcases hcase with ⟨st, hst, rfl⟩ | ⟨-, ⟨h1, -⟩ | ⟨h1, -⟩ | ⟨h1, -⟩⟩
    · rcases stopCheck_cases hst with ⟨rfl, -⟩ | ⟨rfl, -⟩ <;> nofun
    · rw [h1, hs]; nofun
    · rw [h1]; nofun
    · rw [h1]; nofun
  obtain ⟨hstart, hempty, htz, hend, -⟩ := h
  exact ⟨kstart.trans hstart, kempty.trans hempty, ktz.trans htz, fun he q => kend.trans (hend he q),
    fun hf => absurd hf hnf⟩

theorem unitWorks_step {e : Env} {c : Snapshot} {k : Nat} {x : Bool} {u u' : SearchUnit} (hs : u.ustate = .searching)
    (htz : c.tz ≤ 243) (h : UnitWorks pr d e c k u) (hstep : unitStep pr x u = .ok u') : UnitWorks pr d e c k u' := by
  obtain ⟨hlaunched, hest⟩ := h
  have hutz : u.tz ≤ 243 := by obtain ⟨-, -, hutz, -⟩ := hlaunched; rwa [hutz]
  exact ⟨unitLaunched_step hs hlaunched hstep, unitEstablished_step hs hutz hest hstep⟩

/-! ### Every event -/

theorem unitsBelow_works {s : State} (h : SearchEstablished s) (hc : s.coord.cstate ≠ .idle) :
    UnitsBelow s.coord.snap.units s.units (UnitWorks s.params s.regs.digest s.env s.coord.snap) := (h hc).1

/-- A decided outcome: a FOUND is a unit's result, a BACKEND_UNAVAILABLE a unit's failure (R216, R218, R220). -/
theorem searchEstablished_decideOutcome {s : State} {code : StatusCode} {reason : Stop}
    (hworks : UnitsBelow s.coord.snap.units s.units (UnitWorks s.params s.regs.digest s.env s.coord.snap))
    (hfound : code = .found → ExistsBelow s.coord.snap.units s.units (FoundNonce s.coord.snap s.coord.latch.nonce))
    (hfailed : code = .backendUnavailable → ExistsBelow s.coord.snap.units s.units HasFailed) :
    SearchEstablished (decideOutcome code reason s) := by
  refine (searchEstablished_drain_iff rfl).2 ⟨?_, fun hc => ?_, fun hc => ?_⟩
  · exact unitsBelow_stopUnits hworks (fun _ _ h _ => h) (fun _ _ h _ => h) (Nat.le_refl _)
  · exact existsBelow_stopUnits (hfound hc) fun _ _ h => h
  · exact existsBelow_stopUnits (hfailed hc) fun _ _ h => h

theorem searchEstablished_evaluated {s : State} {k : Nat} {u u' : SearchUnit} (hctl : ControlConsistent s)
    (h : SearchEstablished s) (hu : s.units[k]? = some u) (hs : u.ustate = .searching)
    (hstep : unitStep s.params (deadlineExpired s.coord) u = .ok u') : SearchEstablished (s.withUnit k u') := by
  obtain ⟨hrun, hk⟩ := running_of_searching hctl hu hs
  obtain ⟨-, -, -, htz, -⟩ := hctl
  have hworks := unitsBelow_works h hrun
  have hworks' := unitsBelow_set hworks hu (unitWorks_step hs htz (hworks k u hu hk) hstep)
  cases hc : s.coord.cstate with
  | idle => exact absurd hc hrun
  | wait => exact (searchEstablished_wait_iff (s := s.withUnit k u') hc).2 hworks'
  | drain =>
    obtain ⟨-, hfound, hfailed⟩ := (searchEstablished_drain_iff hc).1 h
    refine (searchEstablished_drain_iff (s := s.withUnit k u') hc).2
      ⟨hworks', fun hl => existsBelow_set (hfound hl) hu fun hP => ?_, fun hl => existsBelow_set (hfailed hl) hu fun hP => ?_⟩
    · obtain ⟨-, hfound, -⟩ := hP
      rw [hs] at hfound
      cases hfound
    · have hfailed : u.ustate = .failed := hP
      rw [hs] at hfailed
      cases hfailed

/-- Consuming a report leaves what the unit has established (R215). -/
theorem searchEstablished_discarded {s : State} {k : Nat} {u : SearchUnit} (h : SearchEstablished s)
    (hu : s.units[k]? = some u) (hk : k < s.coord.snap.units) (hc : s.coord.cstate = .drain) :
    SearchEstablished (s.withUnit k { u with report := .none }) := by
  obtain ⟨hworks, hfound, hfailed⟩ := (searchEstablished_drain_iff hc).1 h
  exact (searchEstablished_drain_iff (s := s.withUnit k { u with report := .none }) hc).2
    ⟨unitsBelow_set hworks hu (hworks k u hu hk), fun hl => existsBelow_set (hfound hl) hu fun hP => hP,
      fun hl => existsBelow_set (hfailed hl) hu fun hP => hP⟩

/-- A FOUND report latches the result of a unit whose part is not empty (R216). -/
theorem foundNonce_of_report {e : Env} {c : Snapshot} {k : Nat} {u : SearchUnit} (hcons : UnitConsistent u)
    (hr : u.report = .found) (hworks : UnitWorks pr d e c k u) : FoundNonce c u.result k u := by
  have hs := ustate_of_report_found hcons hr
  obtain ⟨⟨-, hempty, -⟩, hest⟩ := hworks
  unfold UnitEstablished at hest
  rw [hs] at hest
  exact ⟨hempty.symm.trans hest.1, hs, rfl⟩

/-- Every event keeps what the running search has established (R184, R191, R216, R218). -/
theorem searchEstablished_effect {e : Event} {s t : State} (he : Effect e s t) (hctl : ControlConsistent s)
    (h : SearchEstablished s) : SearchEstablished t := by
  have hidle : ∀ {t : State}, isBusy s = false → t.coord = s.coord → SearchEstablished t := fun hb ht =>
    searchEstablished_idle (by rw [ht]; exact cstate_of_not_busy hctl.1 hb)
  have hwait : s.coord.cstate = .wait →
      UnitsBelow s.coord.snap.units s.units (UnitWorks s.params s.regs.digest s.env s.coord.snap) := fun hc =>
    (searchEstablished_wait_iff hc).1 h
  have hconsume : ∀ {k : Nat} {u : SearchUnit}, s.coord.cstate = .wait → s.units[k]? = some u →
      k < s.coord.snap.units → ∀ x, UnitsBelow s.coord.snap.units (s.units.set k { u with report := .none, exh := x })
        (UnitWorks s.params s.regs.digest s.env s.coord.snap) := fun {k u} hc hu hk x =>
    unitsBelow_set (hwait hc) hu (hwait hc k u hu hk)
  cases he with
  | none => exact h
  | rst b =>
    cases b
    · exact h
    · exact searchEstablished_idle rfl
  | returned => exact h
  | rejected => exact h
  | accepted _ _ hb => exact hidle hb rfl
  | illegal _ _ hb => exact hidle hb rfl
  | digest _ _ _ _ hb => exact hidle hb rfl
  | stored _ _ _ _ hb => exact hidle hb rfl
  | invalid _ _ _ hb => exact hidle hb rfl
  | zeroDeadline => exact searchEstablished_idle rfl
  | launched a c _ _ hv =>
    obtain ⟨-, -, -, hle, -⟩ := hv
    exact (searchEstablished_wait_iff rfl).2 (unitsBelow_launchUnits (P := fun _ _ => True) (fun _ _ _ _ => trivial)
      fun k u hk _ => unitWorks_launch u rfl rfl hle hk)
  | cancelled _ _ _ _ hc => exact searchEstablished_decideOutcome (hwait hc) nofun nofun
  | ticked => exact h
  | evaluated k u u' _ hu hs hstep => exact searchEstablished_evaluated hctl h hu hs hstep
  | found k u _ hu hk hc hr =>
    have hfound := foundNonce_of_report (unitConsistent_of_control hctl hu) hr (hwait hc k u hu hk)
    exact searchEstablished_decideOutcome (hconsume hc hu hk u.exh)
      (fun _ => ⟨k, _, getElem?_set_self hu, hk, hfound⟩) nofun
  | timedOut k u _ hu hk hc => exact searchEstablished_decideOutcome (hconsume hc hu hk u.exh) nofun nofun
  | failed k u _ hu hk hc hr =>
    have hfailed := ustate_of_report_failed (unitConsistent_of_control hctl hu) hr
    exact searchEstablished_decideOutcome (hconsume hc hu hk u.exh) nofun
      (fun _ => ⟨k, _, getElem?_set_self hu, hk, hfailed⟩)
  | counted k u _ hu hk hc =>
    exact (searchEstablished_wait_iff (s := recordExhausted k u s) hc).2 (hconsume hc hu hk true)
  | exhausted => exact searchEstablished_idle rfl
  | discarded k u _ hu hk hc => exact searchEstablished_discarded h hu hk hc
  | expired _ hc => exact searchEstablished_decideOutcome (hwait hc) nofun nofun
  | published => exact searchEstablished_idle rfl

theorem sound_effect {e : Event} {s t : State} (he : Effect e s t) (h : Sound s) : Sound t := by
  obtain ⟨hbuf, hst, hctl, hest⟩ := h
  obtain ⟨hst', hctl'⟩ := consistent_effect he ⟨hst, hctl⟩
  exact ⟨buffersSound_effect he hbuf, hst', hctl', searchEstablished_effect he hctl hest⟩

/-- Settles O51: every event keeps each of the four parts of soundness. -/
theorem stepKeepsSound : Obligations.StepKeepsSound := by
  intro s t h hstep
  exact step_preserves (fun _ _ _ h => h) (fun _ _ _ => sound_effect) hstep h

/-- Settles O48: reset has no search running, and the machine has a unit context at least (R7, R54). -/
theorem resetIsSound : Obligations.ResetIsSound := by
  refine ⟨(buffersSound_iff _).2 ⟨List.length_replicate, fun u hu => ?_⟩, statusConsistent_reset,
    controlConsistent_reset (Nat.succ_pos _) rfl rfl rfl, searchEstablished_idle rfl⟩
  have hu : u ∈ List.replicate Config.maxUnits SearchUnit.reset := hu
  rw [List.eq_of_mem_replicate hu]
  exact fullBuffers_reset

end Machine
end Sys2Proof
end

section
/-! Frames: what a step leaves of the digest, the result, the registers and the latch (R36, R39, R47, R48, R52, R280). -/

namespace Sys2Proof
namespace Machine

/-- What a step is, with the event it takes: a host access or a level of `rst` stands next in the agenda, since no move
of the block's own is one (R225, R277, R278). -/
theorem step_inversion {s t : State} (h : step s = .next t) :
    t = s ∨ ∃ e agenda picks, Effect e (atEvent s agenda picks) t ∧
      (s.env.agenda = e :: agenda ∨ (∀ a, e ≠ .host a) ∧ ∀ b, e ≠ .rst b) := by
  rcases step_effect h with ⟨e, rest, hn, he⟩ | ⟨e, p, -, hm, he⟩ | ⟨-, rfl⟩
  · exact .inr ⟨e, rest, _, he, .inl hn⟩
  · refine .inr ⟨e, _, p, he, .inr ?_⟩
    rcases enabledMoves_inner hm with rfl | rfl | ⟨k, rfl⟩ | ⟨k, rfl⟩ <;> exact ⟨fun _ => nofun, fun _ => nofun⟩
  · exact .inl rfl

/-! ### The digest -/

/-- Only an accepted SET_DIGEST_BYTE and reset write the digest (R39, R47). -/
theorem digest_effect {e : Event} {s t : State} (he : Effect e s t) :
    (t.regs.digest = s.regs.digest ∧ t.regs.digestValid = s.regs.digestValid) ∨ e = .rst true ∨
      ∃ a idx val, e = .host a ∧ isBusy s = false ∧ decode a = .ok (.setDigestByte idx val) := by
  cases he with
  | rst b =>
    cases b
    · exact .inl ⟨rfl, rfl⟩
    · exact .inr (.inl rfl)
  | digest a idx val _ hb hd => exact .inr (.inr ⟨a, idx, val, rfl, hb, hd⟩)
  | stored a off v =>
    obtain ⟨-, hdigest, hvalid, -⟩ := storeReg_fields off v s.regs
    exact .inl ⟨hdigest, hvalid⟩
  | _ => exact .inl ⟨rfl, rfl⟩

/-- Settles O56: of the two events that write the digest, neither is a move of the block's own. -/
theorem digestChangesOnlyBySetDigestByte : Obligations.DigestChangesOnlyBySetDigestByte := by
  intro s t hstep hne
  obtain rfl | ⟨e, rest, p, he, hnext⟩ := step_inversion hstep
  · rcases hne with h | h <;> exact absurd rfl h
  rcases digest_effect he with ⟨hd, hv⟩ | rfl | ⟨a, idx, val, rfl, hb, hdec⟩
  · exact absurd hne (not_or.2 ⟨not_not.2 hd, not_not.2 hv⟩)
  · exact .inl ⟨rest, hnext.resolve_right fun h => h.2 _ rfl⟩
  · exact .inr ⟨a, rest, idx, val, hnext.resolve_right fun h => h.1 _ rfl, hb, hdec⟩

/-! ### The result -/

/-- The instructions that the port has beside the command words (R248–R251). -/
def isPortOp : Instr → Bool
  | .nop => false
  | .setDigestByte _ _ => false
  | .runSearch _ _ => false
  | .search _ _ _ _ _ => false
  | .cancel => false
  | .rd _ => true
  | .wr _ _ => true
  | .readNonceLo => true
  | .readNonceHi => true

/-- A command is a legal word written at offset 0x00 (R240). -/
theorem decode_command {a : PortAccess} {i : Instr} (h : decode a = .ok i) (hi : isPortOp i = false) :
    ∃ w, a = .write 32 0 w ∧ decodeCommand w = .ok i := by
  cases a with
  | read width off =>
    simp only [decode] at h
    split at h
    · cases h
      unfold decodeRead at hi
      split at hi
      · cases hi
      split at hi
      · cases hi
      · cases hi
    · cases h
  | write width off v =>
    simp only [decode] at h
    split at h
    · rename_i o ho
      obtain ⟨rfl, rfl⟩ := admit_ok ho
      unfold decodeWrite at h
      split at h
      · rename_i hz
        subst hz
        exact ⟨v, rfl, h⟩
      · cases h
        cases hi
    · cases h

/-- The command words after which the old result still shows (R48, R240). -/
def KeepsResult (w : Word) : Prop :=
  decodeCommand w = .ok .nop ∨ decodeCommand w = .ok .cancel ∨
    ∃ idx val, decodeCommand w = .ok (.setDigestByte idx val)

/-- A search command replaces the result (R243). -/
theorem not_keepsResult_search {a : PortAccess}
    (h : (∃ tz vec, decode a = .ok (.runSearch tz vec)) ∨ ∃ tz n dl vec fb, decode a = .ok (.search tz n dl vec fb)) :
    ∃ w, a = .write 32 0 w ∧ ¬ KeepsResult w := by
  have hnot : ∀ {i : Instr}, decode a = .ok i → isPortOp i = false → i ≠ .nop → i ≠ .cancel →
      (∀ idx val, i ≠ .setDigestByte idx val) → ∃ w, a = .write 32 0 w ∧ ¬ KeepsResult w := by
    intro i hd hi h1 h2 h3
    obtain ⟨w, rfl, hw⟩ := decode_command hd hi
    refine ⟨w, rfl, ?_⟩
    unfold KeepsResult
    rw [hw]
    rintro (h | h | ⟨idx, val, h⟩)
    · exact h1 (Except.ok.inj h)
    · exact h2 (Except.ok.inj h)
    · exact h3 idx val (Except.ok.inj h)
  rcases h with ⟨tz, vec, hd⟩ | ⟨tz, n, dl, vec, fb, hd⟩
  · exact hnot hd rfl nofun nofun (fun _ _ => nofun)
  · exact hnot hd rfl nofun nofun (fun _ _ => nofun)

/-- Without a running search the result is replaced by reset, a search command or an illegal word alone (R48, R280). -/
theorem sameResult_effect {e : Event} {s t : State} (he : Effect e s t) (hc : s.coord.cstate = .idle) :
    SameResult s.regs t.regs ∨ e = .rst true ∨ ∃ w, e = .host (.write 32 0 w) ∧ ¬ KeepsResult w := by
  have hsearch : ∀ {a : PortAccess}, (∃ tz vec, decode a = .ok (.runSearch tz vec)) ∨
      (∃ tz n dl vec fb, decode a = .ok (.search tz n dl vec fb)) →
      ∃ w, Event.host a = .host (.write 32 0 w) ∧ ¬ KeepsResult w := fun h => by
    obtain ⟨w, rfl, hw⟩ := not_keepsResult_search h
    exact ⟨w, rfl, hw⟩
  have hwait : s.coord.cstate ≠ .wait := by rw [hc]; nofun
  have hdrain : s.coord.cstate ≠ .drain := by rw [hc]; nofun
  cases he with
  | rst b =>
    cases b
    · exact .inl ⟨rfl, rfl, rfl, rfl, rfl, rfl⟩
    · exact .inr (.inl rfl)
  | illegal w _ _ hw =>
    refine .inr (.inr ⟨w, rfl, ?_⟩)
    unfold KeepsResult
    rw [hw]
    rintro (h | h | ⟨_, _, h⟩) <;> cases h
  | stored a off v => exact .inl (sameResult_storeReg off v s.regs)
  | invalid a reason _ _ _ _ hd => exact .inr (.inr (hsearch hd))
  | zeroDeadline a c _ _ _ _ hd => exact .inr (.inr (hsearch (.inr hd)))
  | launched a c _ _ _ hd => exact .inr (.inr (hsearch hd))
  | exhausted k u _ _ _ hw => exact absurd hw hwait
  | published _ hd => exact absurd hd hdrain
  | _ => exact .inl ⟨rfl, rfl, rfl, rfl, rfl, rfl⟩

/-- Settles O57: a block that is not BUSY runs no search, and the host's next word is none that replaces the result. -/
theorem resultStaysUntilNextCommand : Obligations.ResultStaysUntilNextCommand := by
  intro s t _ hctl hb hrst hword hstep
  have hsame : SameResult s.regs t.regs := by
    obtain rfl | ⟨e, rest, p, he, hnext⟩ := step_inversion hstep
    · exact ⟨rfl, rfl, rfl, rfl, rfl, rfl⟩
    rcases sameResult_effect he (cstate_of_not_busy hctl.1 hb) with h | rfl | ⟨w, rfl, hw⟩
    · exact h
    · exact absurd (hnext.resolve_right fun h => h.2 _ rfl) (hrst rest)
    · exact absurd (hword w rest (hnext.resolve_right fun h => h.1 _ rfl)) hw
  obtain ⟨hlo, hhi, hcode, hnv, hdone, hreason⟩ := hsame
  exact ⟨by rw [nonceReg, nonceReg, hlo, hhi], hcode, hnv, hdone, hreason⟩

/-! ### The registers -/

/-- Of the block's own moves only a publication writes a register (R52, R223). -/
theorem regs_effect {e : Event} {s t : State} (he : Effect e s t) (hhost : ∀ a, e ≠ .host a) :
    t.regs = s.regs ∨ e = .rst true ∨ (s.coord.cstate ≠ .idle ∧ t.coord.cstate = .idle ∧ doneLine t = true) := by
  have hpub : ∀ {r : State}, r.coord.cstate ≠ .idle →
      r.coord.cstate ≠ .idle ∧ (publishOutcome r).coord.cstate = .idle ∧ doneLine (publishOutcome r) = true :=
    fun h => ⟨h, rfl, rfl⟩
  cases he with
  | rst b =>
    cases b
    · exact .inl rfl
    · exact .inr (.inl rfl)
  | returned a => exact absurd rfl (hhost a)
  | rejected a => exact absurd rfl (hhost a)
  | accepted a => exact absurd rfl (hhost a)
  | illegal => exact absurd rfl (hhost _)
  | digest a => exact absurd rfl (hhost a)
  | stored a => exact absurd rfl (hhost a)
  | invalid a => exact absurd rfl (hhost a)
  | zeroDeadline a => exact absurd rfl (hhost a)
  | launched a => exact absurd rfl (hhost a)
  | exhausted k u _ _ _ hw =>
    exact .inr (.inr (hpub (r := latchCode .exhausted (recordExhausted k u s)) (by
      change s.coord.cstate ≠ .idle
      rw [hw]; nofun)))
  | published _ hd => exact .inr (.inr (hpub (by rw [hd]; nofun)))
  | _ => exact .inl rfl

/-- Settles O58: a step that is no host access and no reset changes a register by a publication alone. -/
theorem onlyPublicationChangesRegisters : Obligations.OnlyPublicationChangesRegisters := by
  intro s t _ _ hhost hrst hstep hne
  obtain rfl | ⟨e, rest, p, he, hnext⟩ := step_inversion hstep
  · exact absurd rfl hne
  have hnohost : ∀ a, e ≠ .host a := by
    rintro a rfl
    exact hhost a rest (hnext.resolve_right fun h => h.1 _ rfl)
  rcases regs_effect he hnohost with h | rfl | h
  · exact absurd h hne
  · exact absurd (hnext.resolve_right fun h => h.2 _ rfl) (hrst rest)
  · exact h

/-! ### The latch -/

/-- What an event does to the latch: nothing, or it ends C_WAIT, or it finds the block not BUSY, or it is the reset step
(R36, R75). -/
theorem latch_effect {e : Event} {s t : State} (he : Effect e s t) :
    t.coord.latch = s.coord.latch ∨ (s.coord.cstate = .wait ∧ t.coord.cstate ≠ .wait) ∨ isBusy s = false ∨
      (e = .rst true ∧ t.coord.cstate = .idle) := by
  have hdecide : ∀ {t : State}, s.coord.cstate = .wait → t.coord.cstate = .drain ∨ t.coord.cstate = .idle →
      s.coord.cstate = .wait ∧ t.coord.cstate ≠ .wait := fun hc h =>
    ⟨hc, by rcases h with h | h <;> rw [h] <;> nofun⟩
  cases he with
  | rst b =>
    cases b
    · exact .inl rfl
    · exact .inr (.inr (.inr ⟨rfl, rfl⟩))
  | zeroDeadline _ _ _ hb => exact .inr (.inr (.inl hb))
  | launched _ _ _ hb => exact .inr (.inr (.inl hb))
  | cancelled _ _ _ _ hc => exact .inr (.inl (hdecide hc (.inl rfl)))
  | found _ _ _ _ _ hc => exact .inr (.inl (hdecide hc (.inl rfl)))
  | timedOut _ _ _ _ _ hc => exact .inr (.inl (hdecide hc (.inl rfl)))
  | failed _ _ _ _ _ hc => exact .inr (.inl (hdecide hc (.inl rfl)))
  | exhausted _ _ _ _ _ hc => exact .inr (.inl (hdecide hc (.inr rfl)))
  | expired _ hc => exact .inr (.inl (hdecide hc (.inl rfl)))
  | _ => exact .inl rfl

/-- Settles O43: a running search is BUSY, so only its own decision, or reset, writes the latch. -/
theorem latchIsWrittenOnce : Obligations.LatchIsWrittenOnce := by
  intro s t hbusy hstep
  have hrun : s.coord.cstate ≠ .idle → isBusy s ≠ false := fun hc hb => hc (cstate_of_not_busy hbusy hb)
  obtain rfl | ⟨e, rest, p, he, hnext⟩ := step_inversion hstep
  · exact ⟨fun _ h => absurd rfl h, fun _ _ => rfl⟩
  rcases latch_effect he with h | ⟨hw, h⟩ | hb | ⟨rfl, hidle⟩
  · exact ⟨fun _ hne => absurd h hne, fun _ _ => h⟩
  · have hw : s.coord.cstate = .wait := hw
    exact ⟨fun _ _ => h, fun hd => by rw [hd] at hw; cases hw⟩
  · exact ⟨fun hc => absurd hb (hrun (by rw [hc]; nofun)), fun hc => absurd hb (hrun (by rw [hc]; nofun))⟩
  · have hn := hnext.resolve_right fun h => h.2 _ rfl
    exact ⟨fun _ _ => by rw [hidle]; nofun, fun _ hrst => absurd hn (hrst rest)⟩

end Machine
end Sys2Proof
end

section
/-! The port: reads, register writes, dropped writes, the STATUS word and the tick (R38, R42–R51, R219, R248–R251). -/

namespace Sys2Proof
namespace Machine

/-! ### Reads -/

/-- A read hands the host its register and changes nothing else (R67, R248). -/
theorem exec_rd (off : BitVec 6) (s : State) :
    exec (.rd off) s = .next { s with env := { s.env with rdata := readReg s off } } := rfl

theorem exec_readNonceLo (s : State) :
    exec .readNonceLo s = .next { s with env := { s.env with rdata := s.regs.nonceLo } } := rfl

theorem exec_readNonceHi (s : State) :
    exec .readNonceHi s = .next { s with env := { s.env with rdata := s.regs.nonceHi } } := rfl

/-- The word index that stands at a byte offset (R248, R249). -/
theorem eq_ofNat_of_offset {off : BitVec 6} (n : Nat) (h : 4 * off.toNat = 4 * n) : off = BitVec.ofNat 6 n := by
  apply BitVec.eq_of_toNat_eq
  rw [BitVec.toNat_ofNat]
  omega

/-- Offsets with no register behind them read 0 (R50). -/
theorem readReg_reserved (s : State) {off : BitVec 6} (h : 0x0B ≤ off.toNat) : readReg s off = 0#32 := by
  unfold readReg
  split
  case h_11 => rfl
  all_goals omega

/-- Settles O16: `readReg` names one register for each offset of the map, and 0 for the others. -/
theorem readReturnsRegister : Obligations.ReadReturnsRegister := by
  intro s off
  have hat : ∀ n {v : Word}, readReg s (BitVec.ofNat 6 n) = v → 4 * off.toNat = 4 * n → readReg s off = v :=
    fun n _ h hn => by rw [eq_ofNat_of_offset n hn, h]
  exact ⟨readReg s off, exec_rd off s, hat 0 rfl, hat 1 rfl, hat 2 rfl, hat 3 rfl, hat 4 rfl, hat 5 rfl, hat 6 rfl,
    hat 7 rfl, hat 8 rfl, hat 9 rfl, hat 10 rfl, fun h => readReg_reserved s (by omega)⟩

/-- Settles O18: the two halves of NONCE stand in their own registers, which STATUS keeps 0 without a valid nonce. -/
theorem nonceAccessorsReturnHalves : Obligations.NonceAccessorsReturnHalves := by
  rintro s ⟨-, -, -, -, hzero⟩
  refine ⟨⟨_, exec_readNonceLo s, ?_, fun h => (hzero h).1, rfl⟩, ⟨_, exec_readNonceHi s, ?_, fun h => (hzero h).2, rfl⟩,
    rfl, rfl⟩
  · exact (lowHalf_joinHalves _ _).symm
  · exact (highHalf_joinHalves _ _).symm

/-- Settles O47: MAX and CAPS are the only registers that reset does not clear (R44–R50, R54). -/
theorem registersAfterReset : Obligations.RegistersAfterReset := by
  intro off
  by_cases hmax : 4 * off.toNat = 0x10 ∨ 4 * off.toNat = 0x14
  · rw [if_pos hmax]
    rcases hmax with h | h
    · rw [eq_ofNat_of_offset 4 h]; rfl
    · rw [eq_ofNat_of_offset 5 h]; rfl
  rw [if_neg hmax]
  by_cases hcaps : 4 * off.toNat = 0x28
  · have hunits : maxUnits State.reset = Config.maxUnits := List.length_replicate
    rw [if_pos hcaps, eq_ofNat_of_offset 10 hcaps, ← hunits]
    rfl
  rw [if_neg hcaps]
  unfold readReg
  split
  case h_4 | h_5 | h_10 => omega
  all_goals rfl

/-! ### Writes -/

/-- A register write while not BUSY (R249). -/
theorem exec_wr_stores {s : State} {off : BitVec 6} (v : Word) (hb : isBusy s = false) (hw : isWritable off = true) :
    exec (.wr off v) s = .next { s with regs := storeReg off v s.regs } := by
  have h0 : off ≠ 0#6 := by rintro rfl; cases hw
  simp only [exec, execWr, if_neg h0, hw, hb, if_true]
  rfl

/-- A register write while BUSY is dropped (R51). -/
theorem exec_wr_busy {s : State} {off : BitVec 6} (v : Word) (hb : isBusy s = true) (hw : isWritable off = true) :
    exec (.wr off v) s = .next (rejectWrite s) := by
  have h0 : off ≠ 0#6 := by rintro rfl; cases hw
  simp only [exec, execWr, if_neg h0, hw, hb, if_true]

/-- A write at an RO or reserved offset has no effect (R249). -/
theorem exec_wr_ignored {off : BitVec 6} (s : State) (v : Word) (h0 : off ≠ 0#6) (hw : isWritable off = false) :
    exec (.wr off v) s = .next s := by
  simp only [exec, execWr, if_neg h0, hw]
  rfl

theorem isWritable_iff (off : BitVec 6) : isWritable off = true ↔ 2 ≤ off.toNat ∧ off.toNat ≤ 6 := by
  simp [isWritable]

/-- Settles O17: the five RW offsets each store in their own register, the others ignore the write. -/
theorem writeStoresItsRegister : Obligations.WriteStoresItsRegister := by
  intro s off v
  refine ⟨fun hb => ?_, fun hb hlo hhi => ?_, fun h => ?_, ?_⟩
  · have hat : ∀ n {r : HostRegs}, isWritable (BitVec.ofNat 6 n) = true → storeReg (BitVec.ofNat 6 n) v s.regs = r →
        4 * off.toNat = 4 * n → exec (.wr off v) s = .next { s with regs := r } := by
      intro n r hw hr hn
      rw [← hr, eq_ofNat_of_offset n hn]
      exact exec_wr_stores v hb hw
    exact ⟨hat 2 rfl rfl, hat 3 rfl rfl, hat 4 rfl rfl, hat 5 rfl rfl, hat 6 rfl rfl⟩
  · exact ⟨_, statusWord_reject _, exec_wr_busy v hb ((isWritable_iff off).2 (by omega))⟩
  · refine exec_wr_ignored s v (by rintro rfl; revert h; decide) ?_
    rw [← Bool.not_eq_true, isWritable_iff]
    omega
  · rintro rfl
    rfl

/-! ### Dropped writes -/

/-- The command words by what they decode to; NOP and CANCEL are one word each (R81–R86). -/
theorem decodeCommand_ok_cases {w : Word} {i : Instr} (h : decodeCommand w = .ok i) :
    (i = .nop ∧ w = 0x00000000#32) ∨ (∃ idx val, i = .setDigestByte idx val) ∨ (∃ tz vec, i = .runSearch tz vec) ∨
      (∃ tz units dl vec fb, i = .search tz units dl vec fb) ∨ (i = .cancel ∧ w = 0x04000000#32) := by
  unfold decodeCommand at h
  split at h
  · rename_i hop
    split at h
    · rename_i hz
      have hw := formatN_word hz
      rw [hop] at hw
      cases h
      exact .inl ⟨rfl, hw.symm⟩
    · cases h
  split at h
  · split at h
    · cases h; exact .inr (.inl ⟨_, _, rfl⟩)
    · cases h
  split at h
  · split at h
    · cases h; exact .inr (.inr (.inl ⟨_, _, rfl⟩))
    · cases h
  split at h
  · split at h
    · cases h; exact .inr (.inr (.inr (.inl ⟨_, _, _, _, _, rfl⟩)))
    · cases h
  split at h
  · rename_i hop
    split at h
    · rename_i hz
      have hw := formatN_word hz
      rw [hop] at hw
      cases h
      exact .inr (.inr (.inr (.inr ⟨rfl, hw.symm⟩)))
    · cases h
  · cases h

/-- While BUSY every command word but NOP and CANCEL is dropped, legal or not (R51, R88). -/
theorem hostAccess_command_busy {s : State} {w : Word} (hb : isBusy s = true) (hnop : w ≠ 0x00000000#32)
    (hcancel : w ≠ 0x04000000#32) : hostAccess (.write 32 0 w) s = .next (rejectWrite s) := by
  have hdec : decode (.write 32 0 w) = decodeCommand w := rfl
  cases hw : decodeCommand w with
  | error e =>
    obtain rfl := decodeCommand_error hw
    simp only [hostAccess, hdec, hw, refusalOf, illegalCommand, hb, if_true]
  | ok i =>
    rcases decodeCommand_ok_cases hw with ⟨-, h⟩ | ⟨idx, val, rfl⟩ | ⟨tz, vec, rfl⟩ | ⟨tz, n, dl, vec, fb, rfl⟩ | ⟨-, h⟩
    · exact absurd h hnop
    · simp only [hostAccess, hdec, hw, exec, execSetDigestByte, hb, if_true]
    · simp only [hostAccess, hdec, hw, exec, execRunSearch, hb, if_true]
    · simp only [hostAccess, hdec, hw, exec, execSearch, hb, if_true]
    · exact absurd h hcancel

/-- Settles O8: each write that R51 lists is dropped, and a dropped write sets bit 5 of STATUS. -/
theorem busyDropsEveryOtherWrite : Obligations.BusyDropsEveryOtherWrite := by
  intro s off v rest hn hrst hb hwrite
  have hdrop : hostAccess (.write 32 off v) (s.withEnv { s.env with agenda := rest }) =
      .next (rejectWrite (s.withEnv { s.env with agenda := rest })) := by
    have hb : isBusy (s.withEnv { s.env with agenda := rest }) = true := hb
    rcases hwrite with ⟨rfl, hnop, hcancel⟩ | rfl | rfl | rfl | rfl | rfl
    · exact hostAccess_command_busy hb hnop hcancel
    · exact exec_wr_busy (off := 0x02#6) v hb rfl
    · exact exec_wr_busy (off := 0x03#6) v hb rfl
    · exact exec_wr_busy (off := 0x04#6) v hb rfl
    · exact exec_wr_busy (off := 0x05#6) v hb rfl
    · exact exec_wr_busy (off := 0x06#6) v hb rfl
  exact ⟨_, statusWord_reject s.regs.status, (step_host hn hrst).trans hdrop⟩

/-! ### The STATUS word -/

/-- The STATUS word as arithmetic (R43). -/
theorem toNat_statusWord (st : Status) :
    (statusWord st).toNat = st.reason.toNat * 2 ^ 8 + st.done.toNat * 2 ^ 6 + st.rejected.toNat * 2 ^ 5 +
      st.nonceValid.toNat * 2 ^ 4 + (codeBits st.code).toNat := by
  simp only [statusWord, toNat_append_add, BitVec.toNat_ofBool, BitVec.toNat_ofNat]
  omega

/-- BUSY alone has the number 1 (R43, R270). -/
theorem codeBits_toNat_eq_one_iff (c : StatusCode) : (codeBits c).toNat = 1 ↔ c = .busy := by
  cases c <;> simp [codeBits]

/-- Settles O59: the fields of the STATUS word, read off its value. -/
theorem statusWordHoldsItsFields : Obligations.StatusWordHoldsItsFields := by
  rintro s w rfl
  have hw := toNat_statusWord s.regs.status
  have hr := s.regs.status.reason.isLt
  have hc := (codeBits s.regs.status.code).isLt
  have hd := Bool.toNat_lt s.regs.status.done
  have hj := Bool.toNat_lt s.regs.status.rejected
  have hv := Bool.toNat_lt s.regs.status.nonceValid
  have hmod : (statusWord s.regs.status).toNat % 16 = (codeBits s.regs.status.code).toNat := by omega
  have hdone : (statusWord s.regs.status).getLsbD 6 = s.regs.status.done := flagBit_eq_of (by omega)
  refine ⟨?code, flagBit_eq_of (by omega), flagBit_eq_of (by omega), hdone, flagBit_eq_of (b := false) (by simp; omega),
    ?reason, by omega, ?busy, hdone.symm⟩
  case code =>
    rw [hmod]
    cases s.regs.status.code <;> simp [codeBits]
  case reason =>
    apply BitVec.eq_of_toNat_eq
    rw [BitVec.extractLsb'_toNat, Nat.shiftRight_eq_div_pow]
    omega
  case busy =>
    rw [hmod, isBusy_eq_true_iff, codeBits_toNat_eq_one_iff]

/-! ### The tick -/

/-- A tick, as the deadline counter it leaves (R219). -/
theorem tickPulse_eq (s : State) :
    ∃ n : Word, tickPulse s = s.withCoord { s.coord with dlCnt := n } ∧
      (s.coord.cstate ≠ .idle → s.coord.snap.dl = true → n.toNat = min (s.coord.dlCnt.toNat + 1) (2 ^ 32 - 1)) ∧
      (s.coord.cstate = .idle ∨ s.coord.snap.dl = false → n = s.coord.dlCnt) := by
  by_cases hrun : s.coord.cstate ≠ .idle ∧ s.coord.snap.dl = true
  · refine ⟨_, by rw [tickPulse, if_pos hrun], fun _ _ => ?_, fun h => ?_⟩
    · have hlt := s.coord.dlCnt.isLt
      split
      · rename_i hfull
        rw [hfull]
        rfl
      · rename_i hfull
        have hne : s.coord.dlCnt.toNat ≠ 2 ^ 32 - 1 := fun h => hfull (BitVec.eq_of_toNat_eq h)
        rw [BitVec.toNat_add, show (1 : Word).toNat = 1 from rfl]
        omega
    · rcases h with h | h
      · exact absurd h hrun.1
      · rw [hrun.2] at h; cases h
  · exact ⟨s.coord.dlCnt, by rw [tickPulse, if_neg hrun]; rfl, fun h1 h2 => absurd ⟨h1, h2⟩ hrun, fun _ => rfl⟩

/-- A tick, while `rst` is low (R61, R219). -/
theorem step_tick {s : State} {rest : List Event} (h : s.env.agenda = .tick :: rest) (hr : s.env.rst = false) :
    step s = .next (tickPulse (s.withEnv { s.env with agenda := rest })) := by
  have hlow : ¬ s.env.rst = true := by rw [hr]; nofun
  rw [step_event h]
  exact congrArg _ (if_neg hlow)

/-- Settles O42: with `rst` low the step is the tick's pulse. -/
theorem tickCountsDeadline : Obligations.TickCountsDeadline := by
  intro s rest hn hrst
  obtain ⟨n, htick, hcount, hkeep⟩ := tickPulse_eq (s.withEnv { s.env with agenda := rest })
  exact ⟨n, (step_tick hn hrst).trans (congrArg _ htick), hcount, hkeep⟩

end Machine
end Sys2Proof
end

section
/-! The memory rules of the port and of a running search: what the decoder takes apart, the encoder puts together; which
accesses have no step; what a unit's step, a drained report and the end of a search write; and what a running search reads
(R51, R60, R64, R72, R80–R88, R222, R223, R285). -/

namespace Sys2Proof

/-! ### Decoded accesses -/

/-- Each word index that is read has one spelling of its own (R248, R250, R251). -/
theorem encode_decodeRead (off : BitVec 6) :
    encode (decodeRead off) = .read 32 (byteOffset off) ∧ wellFormed (decodeRead off) = true := by
  unfold decodeRead
  split
  · rename_i hlo
    subst hlo
    exact ⟨rfl, rfl⟩
  split
  · rename_i hhi
    subst hhi
    exact ⟨rfl, rfl⟩
  · rename_i hlo hhi
    exact ⟨rfl, by simp [wellFormed, hlo, hhi]⟩

/-- A legal command word is the one its format makes of the operands decoded from it (R81–R86). -/
theorem encode_of_decodeCommand {w : Word} {i : Instr} (h : decodeCommand w = .ok i) :
    encode i = .write 32 0 w ∧ wellFormed i = true := by
  have hword : ∀ {v : Word}, v = w → PortAccess.write 32 0 v = .write 32 0 w := congrArg _
  unfold decodeCommand at h
  split at h
  · rename_i hop
    split at h
    · rename_i hzero
      cases h
      exact ⟨hword (by rw [← formatN_word hzero, hop]), rfl⟩
    · cases h
  split at h
  · rename_i hop
    split at h
    · rename_i hzero
      cases h
      exact ⟨hword (formatD_word hop hzero), rfl⟩
    · cases h
  split at h
  · rename_i hop
    split at h
    · rename_i hzero
      obtain ⟨hzero, hfb, hdl, hunits⟩ := hzero
      cases h
      have hw := formatS_word hzero
      rw [hop, hunits, hdl, hfb] at hw
      exact ⟨hword hw, rfl⟩
    · cases h
  split at h
  · rename_i hop
    split at h
    · rename_i hzero
      cases h
      have hw := formatS_word hzero
      rw [hop] at hw
      exact ⟨hword hw, rfl⟩
    · cases h
  split at h
  · rename_i hop
    split at h
    · rename_i hzero
      cases h
      exact ⟨hword (by rw [← formatN_word hzero, hop]), rfl⟩
    · cases h
  · cases h

/-- A write at offset 0x00 is its command word, and elsewhere a `WR` (R240, R249). -/
theorem encode_of_decodeWrite {off : BitVec 6} {v : Word} {i : Instr} (h : decodeWrite off v = .ok i) :
    encode i = .write 32 (byteOffset off) v ∧ wellFormed i = true := by
  unfold decodeWrite at h
  split at h
  · rename_i hzero
    subst hzero
    exact encode_of_decodeCommand h
  · rename_i hoff
    cases h
    exact ⟨rfl, by simp [wellFormed, hoff]⟩

/-- Settles O2: the port takes an access at its own byte offset alone, and there the encoder inverts the decoder of
reads and that of writes. -/
theorem encodeOfDecodeIsIdentity : Obligations.EncodeOfDecodeIsIdentity := by
  intro a i h
  cases a with
  | read width off =>
    simp only [decode] at h
    split at h
    · rename_i o ho
      obtain ⟨rfl, rfl⟩ := admit_ok ho
      cases h
      exact encode_decodeRead o
    · cases h
  | write width off v =>
    simp only [decode] at h
    split at h
    · rename_i o ho
      obtain ⟨rfl, rfl⟩ := admit_ok ho
      exact encode_of_decodeWrite h
    · cases h

/-! ### Refused accesses -/

theorem portOffset_width {width : Nat} (off : Nat) (h : width ≠ 32) :
    portOffset width off = .error (.widthNotAdmitted width) := if_pos h

theorem portOffset_outside {off : Nat} (h : 0x100 ≤ off) : portOffset 32 off = .error (.outsideWindow off) := by
  rw [portOffset, if_neg (by simp), if_pos h]

theorem portOffset_misaligned {off : Nat} (h : off < 0x100) (h4 : off % 4 ≠ 0) :
    portOffset 32 off = .error (.misaligned off) := by
  rw [portOffset, if_neg (by simp), if_neg (by omega), if_pos h4]

namespace Machine

/-- A read or write that fails a check of the port is answered by the reason's refusal (R60). -/
theorem hostAccess_of_portOffset_error {a : PortAccess} {width off : Nat} {v : Word} {e : DecodeError} (s : State)
    (ha : a = .read width off ∨ a = .write width off v) (h : portOffset width off = .error e) :
    hostAccess a s = refusalOf e s := by
  have hdec : decode a = .error e := by rcases ha with rfl | rfl <;> simp only [decode, h]
  simp only [hostAccess, hdec]

/-- While `rst` is asserted no access has a step (R300). -/
theorem step_host_rst_high {s : State} {a : PortAccess} {rest : List Event} (h : s.env.agenda = .host a :: rest)
    (hr : s.env.rst = true) : step s = .refused .accessDuringReset :=
  (step_event h).trans (if_pos hr)

/-- Settles O6: of width, window and alignment, the first check that fails names the refusal, and `rst` comes before
them all. -/
theorem accessOutsideContractHasNoStep : Obligations.AccessOutsideContractHasNoStep := by
  refine ⟨fun s width off v rest a ha hn hr => ?_, fun s a rest => step_host_rst_high⟩
  have hrefuse : ∀ {e : DecodeError}, portOffset width off = .error e →
      step s = refusalOf e (s.withEnv { s.env with agenda := rest }) := fun h =>
    (step_host hn hr).trans (hostAccess_of_portOffset_error _ ha h)
  refine ⟨fun hw => hrefuse (portOffset_width off hw), ?_, ?_⟩
  · rintro rfl hout
    exact hrefuse (portOffset_outside hout)
  · rintro rfl hin h4
    exact hrefuse (portOffset_misaligned hin h4)

/-! ### A unit's step -/

/-- A unit's move replaces that unit at most (R72). -/
theorem unit_effect {k : Nat} {s t : State} (he : Effect (.unit k) s t) : t = s ∨ ∃ u, t = s.withUnit k u := by
  cases he with
  | none => exact .inl rfl
  | evaluated _ _ u => exact .inr ⟨u, rfl⟩

/-- Settles O36: the one slot that a unit's move can set is its own. -/
theorem unitStepWritesItsUnitOnly : Obligations.UnitStepWritesItsUnitOnly := by
  intro s t k rest hn hstep
  rw [step_event hn] at hstep
  rcases unit_effect (takeEvent_effect hstep) with rfl | ⟨u, rfl⟩
  · exact ⟨rfl, rfl, rfl, rfl, rfl, fun _ _ => rfl⟩
  · exact ⟨rfl, rfl, rfl, rfl, List.length_set, fun j hj => List.getElem?_set_ne hj.symm⟩

/-! ### The drain -/

/-- The consumption of a report, while `rst` is low (R215). -/
theorem step_report {s : State} {k : Nat} {rest : List Event} (h : s.env.agenda = .report k :: rest)
    (hr : s.env.rst = false) : step s = reportMove k (s.withEnv { s.env with agenda := rest }) := by
  have hlow : ¬ s.env.rst = true := by rw [hr]; nofun
  exact (step_event h).trans (if_neg hlow)

/-- Settles O40: C_DRAIN clears the report and reads nothing of it. -/
theorem drainDiscardsReports : Obligations.DrainDiscardsReports := by
  intro s k u rest hn hr hc hk hu hreport
  exact (step_report hn hr).trans (reportMove_drain (s := s.withEnv { s.env with agenda := rest }) hu hk hreport hc)

/-- The end of a drained search, while `rst` is low (R222). -/
theorem step_publish {s : State} {rest : List Event} (h : s.env.agenda = .publish :: rest) (hr : s.env.rst = false) :
    step s = .next (publishMove (s.withEnv { s.env with agenda := rest })) := by
  have hlow : ¬ s.env.rst = true := by rw [hr]; nofun
  exact (step_event h).trans (congrArg _ (if_neg hlow))

/-- The end of a search whose units have all stopped and reported (R222, R223). -/
theorem step_publish_drained {s : State} {rest : List Event} (h : s.env.agenda = .publish :: rest)
    (hr : s.env.rst = false) (hc : s.coord.cstate = .drain) (hd : allDrained s.coord.snap.units s.units = true) :
    step s = .next (publishOutcome (s.withEnv { s.env with agenda := rest })) :=
  (step_publish h hr).trans (congrArg _ (if_pos ⟨hc, hd⟩))

/-- Before that the event is not enabled (R222, R225). -/
theorem step_publish_undrained {s : State} {rest : List Event} (h : s.env.agenda = .publish :: rest)
    (hr : s.env.rst = false) (hd : allDrained s.coord.snap.units s.units = false) :
    step s = .next (s.withEnv { s.env with agenda := rest }) :=
  (step_publish h hr).trans (congrArg _ (if_neg fun hopen => Bool.eq_false_iff.1 hd hopen.2))

/-- The terminal states are all but U_SEARCHING and U_IDLE (R180). -/
theorem isTerminal_iff (x : UState) : isTerminal x = true ↔ x ≠ .searching ∧ x ≠ .idle := by
  rw [← not_or, ← isTerminal_eq_false_iff, Bool.not_eq_false]

/-- The nonce published is the latched one for FOUND, and else 0 (R223). -/
theorem joinHalves_publishedNonce (l : Latch) :
    joinHalves (highHalf (publishedNonce l)) (lowHalf (publishedNonce l)) = if l.code = .found then l.nonce else 0 :=
  joinHalves_halves _

/-- Settles O41: the event publishes exactly when `allDrained` holds, and `publishOutcome` is one record update. -/
theorem publishEndsDrainedSearch : Obligations.PublishEndsDrainedSearch := by
  intro s rest hn hr hc
  refine ⟨fun hall => ?drained, fun ⟨k, u, hk, hu, hopen⟩ => step_publish_undrained hn hr ?undrained⟩
  case drained =>
    have hd : allDrained s.coord.snap.units s.units = true := (allDrained_iff _ _).2 fun k u hk hu => by
      obtain ⟨hend, hreport⟩ := hall k u hk hu
      exact ⟨(isTerminal_iff _).2 hend, hreport⟩
    have hnonce := joinHalves_publishedNonce s.coord.latch
    refine ⟨s.regs.status.publish s.coord.latch.code, _, _, releaseUnits s.coord.snap.units s.units, rfl, rfl, rfl, rfl,
      beq_iff_eq, fun hf => hnonce.trans (if_pos hf), fun hf => hnonce.trans (if_neg hf), List.length_mapIdx,
      fun j v hv => ?_, step_publish_drained hn hr hc hd⟩
    exact (getElem?_releaseUnits _ _ j).trans (congrArg _ hv)
  case undrained =>
    refine Bool.eq_false_iff.2 fun hd => ?_
    obtain ⟨hterm, hreport⟩ := (allDrained_iff _ _).1 hd k u hk hu
    rcases hopen with hopen | hopen
    · exact Bool.eq_false_iff.1 ((isTerminal_eq_false_iff _).2 hopen) hterm
    · exact hopen hreport

/-! ### What a search reads -/

/-- Two states hold the same search inputs: MIN, MAX, DEADLINE, the digest and its flags, and the snapshot (R35, R285). -/
def SameInputs (s t : State) : Prop :=
  t.regs.minLo = s.regs.minLo ∧ t.regs.minHi = s.regs.minHi ∧ t.regs.maxLo = s.regs.maxLo ∧
    t.regs.maxHi = s.regs.maxHi ∧ t.regs.deadline = s.regs.deadline ∧ t.regs.digest = s.regs.digest ∧
    t.regs.digestValid = s.regs.digestValid ∧ t.coord.snap = s.coord.snap

/-- While BUSY only the reset step writes a search input: the writes that could are dropped (R51, R72). -/
theorem sameInputs_effect {e : Event} {s t : State} (he : Effect e s t) (hb : isBusy s = true) :
    SameInputs s t ∨ e = .rst true := by
  have hbusy : isBusy s ≠ false := by rw [hb]; nofun
  cases he with
  | rst b =>
    cases b
    · exact .inl ⟨rfl, rfl, rfl, rfl, rfl, rfl, rfl, rfl⟩
    · exact .inr rfl
  | digest _ _ _ _ h => exact absurd h hbusy
  | stored _ _ _ _ h => exact absurd h hbusy
  | zeroDeadline _ _ _ h => exact absurd h hbusy
  | launched _ _ _ h => exact absurd h hbusy
  | _ => exact .inl ⟨rfl, rfl, rfl, rfl, rfl, rfl, rfl, rfl⟩

/-- Settles O55: a running search is BUSY, and no move of the block's own is the reset step. -/
theorem searchInputsAreImmutable : Obligations.SearchInputsAreImmutable := by
  intro s t hstep
  refine ⟨params_step hstep, fun hb _ hrst => ?_⟩
  obtain rfl | ⟨e, rest, p, he, hnext⟩ := step_inversion hstep
  · exact ⟨rfl, rfl, rfl, rfl, rfl, rfl, rfl, rfl⟩
  rcases sameInputs_effect he hb with h | rfl
  · exact h
  · exact absurd (hnext.resolve_right fun h => h.2 _ rfl) (hrst rest)

end Machine
end Sys2Proof
end

section
/-! The encoding of the instructions: what the encoder makes of a well-formed instruction, the decoder takes back, and the
masks of the opcode table say which command words decode (R80–R88, R93, R248–R251). -/

namespace Sys2Proof

/-! ### Decoding an encoded instruction -/

/-- The fields of a format D word are its operands (R82). -/
theorem formatD_fields (idx : BitVec 5) (val : Byte) {w : Word} (hw : w = 0x01#8 ++ 0#11 ++ idx ++ val) :
    field w 31 24 = 0x01#8 ∧ field w 23 13 = 0#11 ∧ field w 12 8 = idx ∧ field w 7 0 = val := by
  have hidx := idx.isLt
  have hval := val.isLt
  have hnat : w.toNat = 0x01000000 + idx.toNat * 2 ^ 8 + val.toNat := by
    rw [hw]
    simp only [toNat_append_add, BitVec.toNat_ofNat]
    omega
  simp only [field_eq_iff, hnat]
  refine ⟨?_, ?_, ?_, ?_⟩ <;> simp <;> omega

/-- A read at a well-formed `RD`'s offset has no other spelling (R248; assumption 7). -/
theorem decodeRead_of_wellFormed {off : BitVec 6} (h : wellFormed (.rd off) = true) : decodeRead off = .rd off := by
  obtain ⟨hlo, hhi⟩ : off ≠ offNonceLo ∧ off ≠ offNonceHi := by simpa [wellFormed] using h
  rw [decodeRead, if_neg hlo, if_neg hhi]

/-- A write at a well-formed `WR`'s offset is no command word (R249). -/
theorem decodeWrite_of_wellFormed {off : BitVec 6} {v : Word} (h : wellFormed (.wr off v) = true) :
    decodeWrite off v = .ok (.wr off v) := by
  have h0 : off ≠ 0#6 := by simpa [wellFormed] using h
  rw [decodeWrite, if_neg h0]

/-- Settles O1: a command word's fields are the operands it was made of, and a port operation's byte offset is admitted
as its own word index. -/
theorem decodeOfEncodeIsIdentity : Obligations.DecodeOfEncodeIsIdentity := by
  intro i hwf
  cases i with
  | nop => rfl
  | setDigestByte idx val =>
    obtain ⟨hop, hzero, hidx, hval⟩ := formatD_fields idx val rfl
    obtain ⟨-, hdec, -⟩ := decodeCommand_of_fields (0x01#8 ++ 0#11 ++ idx ++ val)
    exact (hdec hop hzero).trans (by rw [hidx, hval])
  | runSearch tz vec =>
    obtain ⟨hop, hzero, hfb, hvec, hdl, hunits, htz⟩ := formatS_fields 0x02#8 tz 0#8 false vec false
    obtain ⟨-, -, hdec, -⟩ := decodeCommand_of_fields (formatS 0x02#8 tz 0#8 false vec false)
    exact (hdec hop hzero hfb hdl hunits).trans (by rw [htz, hvec])
  | search tz units dl vec fb =>
    obtain ⟨hop, hzero, hfb, hvec, hdl, hunits, htz⟩ := formatS_fields 0x03#8 tz units dl vec fb
    obtain ⟨-, -, -, hdec, -⟩ := decodeCommand_of_fields (formatS 0x03#8 tz units dl vec fb)
    exact (hdec hop hzero).trans (by rw [htz, hunits, hdl, hvec, hfb])
  | cancel => rfl
  | rd off => simp only [encode, decode, admit_byteOffset, decodeRead_of_wellFormed hwf]
  | wr off v => simp only [encode, decode, admit_byteOffset, decodeWrite_of_wellFormed hwf]
  | readNonceLo => rfl
  | readNonceHi => rfl

/-! ### The masks of the opcode table -/

/-- A mask and match on a word in two parts is one on each part. -/
theorem append_and_eq_append_iff {m n : Nat} (x mx a : BitVec m) (y my b : BitVec n) :
    (x ++ y) &&& (mx ++ my) = a ++ b ↔ x &&& mx = a ∧ y &&& my = b := by
  rw [BitVec.and_append]
  refine ⟨fun h => ⟨?_, ?_⟩, fun ⟨hx, hy⟩ => by rw [hx, hy]⟩
  · simpa only [BitVec.extractLsb'_append_eq_left] using congrArg (BitVec.extractLsb' n m) h
  · simpa only [BitVec.extractLsb'_append_eq_right] using congrArg (BitVec.extractLsb' 0 n) h

/-- A command word is its fields, in the cut of format D (R82). -/
theorem word_eq_fieldsD (w : Word) : w = field w 31 24 ++ field w 23 13 ++ field w 12 0 := by
  apply BitVec.eq_of_toNat_eq
  have := w.isLt
  simp only [toNat_append_add, field_toNat]
  simp
  omega

/-- A command word is its fields, in the cut of format S (R83). -/
theorem word_eq_fieldsS (w : Word) :
    w = field w 31 24 ++ field w 23 19 ++ BitVec.ofBool (flagBit w 18) ++ BitVec.ofBool (flagBit w 17) ++
      BitVec.ofBool (flagBit w 16) ++ field w 15 8 ++ field w 7 0 := by
  apply BitVec.eq_of_toNat_eq
  have := w.isLt
  simp only [toNat_append_add, field_toNat, flagBit_toNat]
  simp
  omega

/-- The rows of NOP and CANCEL mask nothing out: format N is one word per opcode (R81). -/
theorem matches_formatN_iff (w : Word) (op : BitVec 8) :
    w &&& 0xFFFFFFFF#32 = op ++ 0#24 ↔ field w 31 24 = op ∧ field w 23 0 = 0#24 := by
  have hall : w &&& 0xFFFFFFFF#32 = w := BitVec.and_allOnes
  rw [hall]
  refine ⟨?_, fun ⟨hop, hzero⟩ => by rw [← hop, formatN_word hzero]⟩
  rintro rfl
  have hop := op.isLt
  simp only [field_eq_iff, toNat_append_add]
  simp
  omega

/-- The row of SET_DIGEST_BYTE masks IDX and VAL out (R82). -/
theorem matches_setDigestByte_iff (w : Word) :
    w &&& 0xFFFFE000#32 = 0x01000000#32 ↔ field w 31 24 = 0x01#8 ∧ field w 23 13 = 0#11 := by
  have hrow : ∀ (op : BitVec 8) (reserved : BitVec 11) (operands : BitVec 13),
      (op ++ reserved ++ operands) &&& (BitVec.allOnes 8 ++ BitVec.allOnes 11 ++ 0#13) = 0x01#8 ++ 0#11 ++ 0#13 ↔
        op = 0x01#8 ∧ reserved = 0#11 := by
    simp only [append_and_eq_append_iff, BitVec.and_allOnes, BitVec.and_zero, and_true, implies_true]
  conv_lhs => rw [word_eq_fieldsD w]
  exact hrow _ _ _

/-- The row of RUN_SEARCH masks VEC and TZ out (R83, R85). -/
theorem matches_runSearch_iff (w : Word) :
    w &&& 0xFFFDFF00#32 = 0x02000000#32 ↔
      field w 31 24 = 0x02#8 ∧ field w 23 19 = 0#5 ∧ flagBit w 18 = false ∧ flagBit w 16 = false ∧ field w 15 8 = 0#8 := by
  have hbit : ∀ b : Bool, BitVec.ofBool b = 0#1 ↔ b = false := by decide
  have hrow : ∀ (op : BitVec 8) (reserved : BitVec 5) (fb vec dl : Bool) (units tz : BitVec 8),
      (op ++ reserved ++ BitVec.ofBool fb ++ BitVec.ofBool vec ++ BitVec.ofBool dl ++ units ++ tz) &&&
          (BitVec.allOnes 8 ++ BitVec.allOnes 5 ++ BitVec.allOnes 1 ++ 0#1 ++ BitVec.allOnes 1 ++ BitVec.allOnes 8 ++ 0#8) =
        0x02#8 ++ 0#5 ++ 0#1 ++ 0#1 ++ 0#1 ++ 0#8 ++ 0#8 ↔
        op = 0x02#8 ∧ reserved = 0#5 ∧ fb = false ∧ dl = false ∧ units = 0#8 := by
    simp only [append_and_eq_append_iff, BitVec.and_allOnes, BitVec.and_zero, and_true, hbit, and_assoc, implies_true]
  conv_lhs => rw [word_eq_fieldsS w]
  exact hrow _ _ _ _ _ _ _

/-- The row of SEARCH masks all but the opcode and the reserved bits out (R83). -/
theorem matches_search_iff (w : Word) :
    w &&& 0xFFF80000#32 = 0x03000000#32 ↔ field w 31 24 = 0x03#8 ∧ field w 23 19 = 0#5 := by
  have hrow : ∀ (op : BitVec 8) (reserved : BitVec 5) (fb vec dl : BitVec 1) (units tz : BitVec 8),
      (op ++ reserved ++ fb ++ vec ++ dl ++ units ++ tz) &&&
          (BitVec.allOnes 8 ++ BitVec.allOnes 5 ++ 0#1 ++ 0#1 ++ 0#1 ++ 0#8 ++ 0#8) =
        0x03#8 ++ 0#5 ++ 0#1 ++ 0#1 ++ 0#1 ++ 0#8 ++ 0#8 ↔
        op = 0x03#8 ∧ reserved = 0#5 := by
    simp only [append_and_eq_append_iff, BitVec.and_allOnes, BitVec.and_zero, and_true, implies_true]
  conv_lhs => rw [word_eq_fieldsS w]
  exact hrow _ _ _ _ _ _ _

/-- The legal command words by their fields (R86–R88). -/
theorem decodeCommand_ok_iff (w : Word) :
    (∃ i, decodeCommand w = .ok i) ↔
      (field w 31 24 = 0x00#8 ∧ field w 23 0 = 0#24) ∨ (field w 31 24 = 0x01#8 ∧ field w 23 13 = 0#11) ∨
      (field w 31 24 = 0x02#8 ∧ field w 23 19 = 0#5 ∧ flagBit w 18 = false ∧ flagBit w 16 = false ∧
        field w 15 8 = 0#8) ∨
      (field w 31 24 = 0x03#8 ∧ field w 23 19 = 0#5) ∨ (field w 31 24 = 0x04#8 ∧ field w 23 0 = 0#24) := by
  constructor
  · rintro ⟨i, h⟩
    unfold decodeCommand at h
    split at h
    · rename_i hop
      split at h
      · rename_i hz; exact .inl ⟨hop, hz⟩
      · cases h
    split at h
    · rename_i hop
      split at h
      · rename_i hz; exact .inr (.inl ⟨hop, hz⟩)
      · cases h
    split at h
    · rename_i hop
      split at h
      · rename_i hz; exact .inr (.inr (.inl ⟨hop, hz⟩))
      · cases h
    split at h
    · rename_i hop
      split at h
      · rename_i hz; exact .inr (.inr (.inr (.inl ⟨hop, hz⟩)))
      · cases h
    split at h
    · rename_i hop
      split at h
      · rename_i hz; exact .inr (.inr (.inr (.inr ⟨hop, hz⟩)))
      · cases h
    · cases h
  · obtain ⟨hnop, hdigest, hrun, hsearch, hcancel⟩ := decodeCommand_of_fields w
    rintro (⟨hop, hz⟩ | ⟨hop, hz⟩ | ⟨hop, hz, hfb, hdl, hunits⟩ | ⟨hop, hz⟩ | ⟨hop, hz⟩)
    · exact ⟨_, hnop hop hz⟩
    · exact ⟨_, hdigest hop hz⟩
    · exact ⟨_, hrun hop hz hfb hdl hunits⟩
    · exact ⟨_, hsearch hop hz⟩
    · exact ⟨_, hcancel hop hz⟩

/-- Settles O3: each row's mask and match ask for the fields that its arm of the decoder checks, and the decoder's one
error names the word. -/
theorem legalWordsMatchOpcodeTable : Obligations.LegalWordsMatchOpcodeTable := by
  intro w
  constructor
  · rw [decodeCommand_ok_iff, matches_setDigestByte_iff, matches_runSearch_iff, matches_search_iff]
    exact or_congr (matches_formatN_iff w 0x00#8).symm
      (or_congr_right (or_congr_right (or_congr_right (matches_formatN_iff w 0x04#8).symm)))
  · intro hillegal
    cases hw : decodeCommand w with
    | ok i => exact absurd ⟨i, hw⟩ hillegal
    | error e => rw [decodeCommand_error hw]

/-- Settles O4: the decoder evaluates each of the spec's eleven words. -/
theorem specExampleWordsDecode : Obligations.SpecExampleWordsDecode :=
  ⟨rfl, rfl, rfl, rfl, rfl, rfl, rfl, rfl, rfl, rfl, rfl⟩

end Sys2Proof
end

section
/-! The search commands: what LAUNCH leaves of each unit, and the state an accepted RUN_SEARCH or SEARCH leaves
(R160, R181, R189, R211–R214, R243–R245). -/

namespace Sys2Proof
namespace Machine

/-! ### A launched unit -/

/-- A unit with a part starts on the backend chosen for it (R181, R189). -/
theorem unitLaunch_chosen (pr : Params) {e : Env} (d : List Byte) {k : Nat} {vec fb : Bool} {b : Backend} {v : SearchUnit}
    (he : v.empty = false) (hb : chooseBackend e k vec fb = some b) :
    unitLaunch pr e d k vec fb v = unitStart pr d { v with backend := b } := by
  simp only [unitLaunch, he, hb, Bool.false_eq_true, if_false]

/-- LAUNCH starts unit `k` on the backend chosen for it (R160, R181). -/
theorem unitSearches_launch {s : State} {c : Snapshot} {k : Nat} {b : Backend} (v : SearchUnit)
    (he : partEmpty c k = false) (hb : chooseBackend s.env k c.vec c.fb = some b) :
    UnitSearches s c k v
      (unitLaunch s.params s.env s.regs.digest k c.vec c.fb (unitRegisters s.env.searches c k v)) b := by
  rw [unitLaunch_chosen s.params s.regs.digest (v := unitRegisters s.env.searches c k v) he hb]
  cases b with
  | scalar =>
    rw [unitStart_scalar _ (u := { unitRegisters s.env.searches c k v with backend := .scalar }) he rfl]
    simp [UnitSearches]
  | vector =>
    rw [unitStart_vector _ (u := { unitRegisters s.env.searches c k v with backend := .vector }) he rfl]
    obtain ⟨h16, hle, hlt⟩ := batchBase_bounds (partStart c k)
    have hbase : (batchBase (partStart c k)).toNat = 16 * ((partStart c k).toNat / 16) := by omega
    simp [UnitSearches, hbase]

/-- Starting, whatever its outcome, writes no register of the unit that LAUNCH gave it, and no scratch (R181, R189). -/
theorem unitLaunch_keeps (pr : Params) (e : Env) (d : List Byte) (k : Nat) (vec fb : Bool) (v : SearchUnit) :
    LaunchKeeps v (unitLaunch pr e d k vec fb v) ∧
      (unitLaunch pr e d k vec fb v).rangeStart = v.rangeStart ∧ (unitLaunch pr e d k vec fb v).rangeEnd = v.rangeEnd ∧
      (unitLaunch pr e d k vec fb v).empty = v.empty ∧ (unitLaunch pr e d k vec fb v).tz = v.tz ∧
      (unitLaunch pr e d k vec fb v).fb = v.fb ∧ (unitLaunch pr e d k vec fb v).stop = v.stop ∧
      (unitLaunch pr e d k vec fb v).exh = v.exh := by
  rcases unitLaunch_cases pr e d k vec fb v with ⟨-, h⟩ | ⟨-, -, h⟩ | ⟨-, h⟩ | ⟨-, h⟩ <;>
    simp [h, LaunchKeeps, scalarLaunched, vectorLaunched]

/-- An empty unit's launch ends it EXHAUSTED (R213). -/
theorem unitLaunch_empty (pr : Params) (e : Env) (d : List Byte) (k : Nat) (vec fb : Bool) {v : SearchUnit}
    (he : v.empty = true) : unitLaunch pr e d k vec fb v = terminate v .exhausted := by
  rw [unitLaunch, if_pos he, unitStart, if_pos he]

/-- The launch of a unit with a part and no usable backend ends it FAILED (R189). -/
theorem unitLaunch_failed (pr : Params) {e : Env} (d : List Byte) {k : Nat} {vec fb : Bool} {v : SearchUnit}
    (he : v.empty = false) (hno : NoUsableBackend e e.searches k vec fb) :
    unitLaunch pr e d k vec fb v = terminate v .failed := by
  simp only [unitLaunch, he, (chooseBackend_eq_none_iff e k vec fb).2 hno, Bool.false_eq_true, if_false]

/-- LAUNCH leaves unit `k` as `UnitStarted` says (R181, R189, R212–R214). -/
theorem unitStarted_launch {s : State} (c : Snapshot) {k : Nat} {v : SearchUnit} (hv : s.units[k]? = some v) :
    UnitStarted s c k
      (unitLaunch s.params s.env s.regs.digest k c.vec c.fb (unitRegisters s.env.searches c k v)) := by
  obtain ⟨hkeeps, hstart, hend, hempty, htz, hfb, hstop, hexh⟩ := unitLaunch_keeps s.params s.env s.regs.digest k c.vec
    c.fb (unitRegisters s.env.searches c k v)
  refine ⟨v, hv, hkeeps, hstart, fun he q => hend.trans (partEnd_of_nonempty he _ q), hempty, htz, hfb, hstop, hexh,
    fun he => ?empty, fun he => ⟨fun hsel => ?selected, fun hsel hf hother => ?fallback, fun hno => ?failed⟩⟩
  case empty =>
    rw [unitLaunch_empty (v := unitRegisters s.env.searches c k v) _ _ _ _ _ _ he]
    exact ⟨rfl, rfl, rfl, rfl, rfl, rfl, rfl⟩
  case selected => exact unitSearches_launch v he (chooseBackend_selected c.fb hsel)
  case fallback =>
    refine unitSearches_launch v he ?_
    rw [hf]
    exact chooseBackend_fallback hsel hother
  case failed =>
    rw [unitLaunch_failed (v := unitRegisters s.env.searches c k v) _ _ he hno]
    exact ⟨rfl, rfl, rfl, rfl, rfl, rfl, rfl⟩

/-! ### The launched units of a search -/

theorem length_launchUnits (pr : Params) (e : Env) (d : List Byte) (c : Snapshot) (us : List SearchUnit) :
    (launchUnits pr e d c us).length = us.length := List.length_mapIdx

/-- A unit of the search is started (R214). -/
theorem unitStarted_of_launchUnits {s : State} {c : Snapshot} {k : Nat} {u : SearchUnit} (hk : k < c.units)
    (hu : (launchUnits s.params s.env s.regs.digest c s.units)[k]? = some u) : UnitStarted s c k u := by
  rw [getElem?_launchUnits, Option.map_eq_some_iff] at hu
  obtain ⟨v, hv, rfl⟩ := hu
  rw [if_pos hk]
  exact unitStarted_launch c hv

/-- A unit outside the search stays as it was (R214). -/
theorem getElem?_launchUnits_above (pr : Params) (e : Env) (d : List Byte) {c : Snapshot} (us : List SearchUnit) {k : Nat}
    (hk : c.units ≤ k) : (launchUnits pr e d c us)[k]? = us[k]? := by
  simp only [getElem?_launchUnits, if_neg (Nat.not_lt.2 hk), Option.map_id']

/-! ### The search commands -/

/-- STATUS after `START` of an accepted command: BUSY and nothing else (R240, R243). -/
theorem statusWord_started (st : Status) : statusWord st.accept.start = 0x00000001#32 := by
  simp only [statusWord, Status.start_reason, Status.start_done, Status.start_rejected, Status.accept_rejected,
    Status.start_nonceValid, Status.start_code]
  rfl

/-- A search command that passes validation and has no zero deadline launches (R214, R243). -/
theorem runSearchCommand_launches {s : State} {units : Nat} {c : Snapshot} (htz : c.tz ≤ 243)
    (hrange : (minNonce s.regs).toNat ≤ (maxNonce s.regs).toNat) (hdigest : s.regs.digestValid = 0xFFFFFFFF#32)
    (hunits : units ≤ s.units.length) (hdl : ¬ (c.dl = true ∧ c.limit = 0#32)) :
    runSearchCommand units c (acceptCommand s) = launchedState c s := by
  have hvalid : failedCheck c.tz units ((acceptCommand s).withNonce 0) = none :=
    failedCheck_eq_none htz hrange hdigest hunits
  simp only [runSearchCommand, hvalid, launch, if_neg hdl]
  rfl

/-- Settles O11: RUN_SEARCH's snapshot has one unit and no deadline, so validation alone decides, and LAUNCH starts
unit 0. -/
theorem runSearchStartsUnitZero : Obligations.RunSearchStartsUnitZero := by
  rintro s tz vec c hidle hone htz hrange hdigest rfl
  have hlaunch : exec (.runSearch tz vec) s = .next (launchedState (runSearchSnapshot tz vec s.regs) s) := by
    simp only [exec, execRunSearch, hidle, Bool.false_eq_true, if_false]
    exact congrArg _ (runSearchCommand_launches htz hrange hdigest (Nat.zero_le _) nofun)
  have hlen := length_launchUnits s.params s.env s.regs.digest (runSearchSnapshot tz vec s.regs) s.units
  have hfirst := List.getElem?_eq_getElem (hlen.symm ▸ hone)
  exact ⟨s.regs.status.accept.start, _, _, statusWord_started _, hlen, hfirst,
    unitStarted_of_launchUnits Nat.zero_lt_one hfirst, fun k hk => getElem?_launchUnits_above _ _ _ _ hk, hlaunch⟩

/-- `U = max(1, UNITS)`, as a case on UNITS = 0 (R211). -/
theorem searchSnapshot_eq (tz units : BitVec 8) (dl vec fb : Bool) (r : HostRegs) :
    searchSnapshot tz units dl vec fb r =
      { units := if units.toNat = 0 then 1 else units.toNat, tz := tz.toNat, min := r.minHi ++ r.minLo,
        max := r.maxHi ++ r.maxLo, vec := vec, fb := fb, dl := dl, limit := r.deadline } := by
  have hunits : max 1 units.toNat = if units.toNat = 0 then 1 else units.toNat := by split <;> omega
  rw [searchSnapshot, hunits]
  rfl

/-- Settles O12: a SEARCH that is valid and has no zero deadline launches its snapshot's units. -/
theorem searchStartsItsUnits : Obligations.SearchStartsItsUnits := by
  intro s tz units dl vec fb c hidle _ htz hrange hdigest hunits hdl hc
  rw [← searchSnapshot_eq] at hc
  subst hc
  have hlaunch : exec (.search tz units dl vec fb) s =
      .next (launchedState (searchSnapshot tz units dl vec fb s.regs) s) := by
    simp only [exec, execSearch, hidle, Bool.false_eq_true, if_false]
    exact congrArg _ (runSearchCommand_launches htz hrange hdigest hunits fun h => hdl h.1 h.2)
  exact ⟨s.regs.status.accept.start, _, statusWord_started _, length_launchUnits _ _ _ _ _,
    fun k u hk hu => unitStarted_of_launchUnits hk hu, fun k hk => getElem?_launchUnits_above _ _ _ _ hk, hlaunch⟩

end Machine
end Sys2Proof
end

section
/-! The codec's windows as balanced-ternary numerals: the value of a window, the uniqueness of its digits, and the bytes
they stand for (R100–R102). -/

namespace Sys2Proof
namespace Machine

/-! ### Balanced-ternary numerals -/

/-- A balanced-ternary digit (R20). -/
def IsTrit (x : Int) : Prop := x = -1 ∨ x = 0 ∨ x = 1

/-- The value of a list of digits to base 3, least significant digit first (R101). -/
def numeral : List Int → Int
  | [] => 0
  | x :: xs => x + 3 * numeral xs

@[simp] theorem numeral_nil : numeral [] = 0 := rfl

@[simp] theorem numeral_cons (x : Int) (xs : List Int) : numeral (x :: xs) = x + 3 * numeral xs := rfl

/-- As many trits with the same value are the same trits: the first is fixed by the value mod 3 (R102). -/
theorem eq_of_numeral_eq {xs ys : List Int} (hlen : xs.length = ys.length) (hx : ∀ x ∈ xs, IsTrit x)
    (hy : ∀ y ∈ ys, IsTrit y) (h : numeral xs = numeral ys) : xs = ys := by
  induction xs generalizing ys with
  | nil => exact (List.eq_nil_of_length_eq_zero hlen.symm).symm
  | cons x xs ih =>
    obtain _ | ⟨y, ys⟩ := ys
    · cases hlen
    · obtain ⟨hx0, hxs⟩ := List.forall_mem_cons.1 hx
      obtain ⟨hy0, hys⟩ := List.forall_mem_cons.1 hy
      simp only [numeral_cons, IsTrit] at h hx0 hy0
      obtain rfl : x = y := by omega
      rw [ih (Nat.succ.inj hlen) hxs hys (by omega)]

/-- The spec's sum over six cells is the value of their digits (R101). -/
theorem sum_eq_numeral {T : List Byte} (hT : T.length = 6) :
    ((List.range 6).map fun k => 3 ^ k * (T.getD k 0).toInt).sum = numeral (T.map BitVec.toInt) := by
  match T, hT with
  | [_, _, _, _, _, _], _ =>
    simp only [List.range_succ, List.range_zero, List.nil_append, List.cons_append, List.map_cons, List.map_nil,
      List.sum_cons, List.sum_nil, List.getD_cons_zero, List.getD_cons_succ, numeral_cons, numeral_nil]
    ring

/-! ### The digits of a byte -/

theorem isTrit_of_mem_threeDigits {x y : Int} (h : y ∈ threeDigits x) : IsTrit y := by
  simp only [threeDigits, List.mem_cons, List.not_mem_nil, or_false] at h
  unfold IsTrit
  omega

theorem isTrit_of_mem_windowDigits {m : CodecSignMode} {b : Byte} {y : Int} (h : y ∈ windowDigits m b) : IsTrit y :=
  (List.mem_append.1 h).elim isTrit_of_mem_threeDigits isTrit_of_mem_threeDigits

/-- Three digits stand for `x − 13`, 13 being the value of three digits 1 (R100, R101). -/
theorem numeral_threeDigits_append {x : Int} (h0 : 0 ≤ x) (h : x < 27) (ys : List Int) :
    numeral (threeDigits x ++ ys) = x - 13 + 27 * numeral ys := by
  simp only [threeDigits, List.cons_append, List.nil_append, numeral_cons]
  omega

/-- The value of a byte's digits is its signed value (R101). -/
theorem numeral_windowDigits (m : CodecSignMode) (b : Byte) : numeral (windowDigits m b) = signedValue m b := by
  obtain ⟨hlo, hhi⟩ := signedValue_bounds m b
  have hq : numeral (threeDigits ((signedValue m b + 364) / 27)) = (signedValue m b + 364) / 27 - 13 := by
    simpa using numeral_threeDigits_append (x := (signedValue m b + 364) / 27) (by omega) (by omega) []
  rw [windowDigits, numeral_threeDigits_append (by omega) (by omega), hq]
  omega

/-- The cells of a window hold its digits (R20, R100). -/
theorem map_toInt_byteWindow (m : CodecSignMode) (b : Byte) : (byteWindow m b).map BitVec.toInt = windowDigits m b := by
  rw [byteWindow, List.map_map]
  exact (List.map_congr_left fun x hx => toInt_cell (isTrit_of_mem_windowDigits hx)).trans (List.map_id _)

theorem isTrit_toInt {c : Byte} (h : validCell c = true) : IsTrit c.toInt := by
  rcases validCell_cases h with rfl | rfl | rfl <;> unfold IsTrit <;> decide

/-! ### The signed value of a byte -/

theorem signedValue_twos (b : Byte) : signedValue .twos b = b.toInt := by
  rw [BitVec.toInt_eq_toNat_cond]
  simp only [signedValue]
  omega

theorem signedValue_offset128 (b : Byte) : signedValue .offset128 b = (b.toNat : Int) - 128 := rfl

theorem signedValue_injective (m : CodecSignMode) : Function.Injective (signedValue m) := by
  intro b b' h
  cases m with
  | twos => exact BitVec.eq_of_toInt_eq (by rwa [signedValue_twos, signedValue_twos] at h)
  | offset128 =>
    rw [signedValue_offset128, signedValue_offset128] at h
    exact BitVec.eq_of_toNat_eq (by omega)

/-- Every value of −128..127 is the signed value of a byte (R100, R102). -/
theorem exists_signedValue_eq (m : CodecSignMode) {v : Int} (hlo : -128 ≤ v) (hhi : v ≤ 127) :
    ∃ b, signedValue m b = v := by
  cases m with
  | twos => exact ⟨BitVec.ofInt 8 v, by
      rw [signedValue_twos, BitVec.toInt_ofInt_eq_self (by decide) hlo (by omega)]⟩
  | offset128 =>
    refine ⟨BitVec.ofNat 8 (v + 128).toNat, ?_⟩
    rw [signedValue_offset128, BitVec.toNat_ofNat]
    omega

/-- Settles O19: the digits are trits, and their value is the signed value. -/
theorem encodedByteIsItsNumeral : Obligations.EncodedByteIsItsNumeral := by
  intro m b
  refine ⟨length_byteWindow m b, fun c hc => isTrit_toInt (validTrits_byteWindow m b c hc), ?_⟩
  rw [sum_eq_numeral (length_byteWindow m b), map_toInt_byteWindow, numeral_windowDigits]
  cases m with
  | twos => exact signedValue_twos b
  | offset128 => exact signedValue_offset128 b

/-- Settles O20: a window's value is the signed value of its byte, and six trits are fixed by their value. -/
theorem byteCodecIsInjective : Obligations.ByteCodecIsInjective := by
  intro m
  refine ⟨fun b b' h => signedValue_injective m ?_, fun T hlen hT hlo hhi => ?_⟩
  · rw [← numeral_windowDigits, ← numeral_windowDigits, ← map_toInt_byteWindow, ← map_toInt_byteWindow, h]
  · rw [sum_eq_numeral hlen] at hlo hhi
    obtain ⟨b, hb⟩ := exists_signedValue_eq m hlo hhi
    have hdigits : windowDigits m b = T.map BitVec.toInt := by
      refine eq_of_numeral_eq ?_ (fun _ => isTrit_of_mem_windowDigits) ?_ ((numeral_windowDigits m b).trans hb)
      · rw [List.length_map, hlen]; rfl
      · exact List.forall_mem_map.2 fun c hc => isTrit_toInt (hT c hc)
    rw [← map_toInt_byteWindow] at hdigits
    exact ⟨b, List.map_injective_iff.2 (fun _ _ => BitVec.eq_of_toInt_eq) hdigits⟩

end Machine
end Sys2Proof
end

section
/-! The codec's buffers: the six cells ENCODE_BYTE writes, the places of an input state, its lanes in a batch, and the
partial re-encode (R100, R103–R112, R183, R184, R186). -/

namespace Sys2Proof
namespace Machine

/-- Settles O21: writing six cells keeps the length and every other cell. -/
theorem encodeByteWritesItsWindowOnly : Obligations.EncodeByteWritesItsWindowOnly := by
  intro m S t b hfit
  refine ⟨length_encodeByte m S t b, fun k hk => ?_, fun p hp => ?_⟩
  · rw [List.getD_eq_getElem?_getD, List.getD_eq_getElem?_getD, encodeByte, getElem?_writeCells, length_byteWindow,
      if_pos (by omega), if_pos (by omega), Nat.add_sub_cancel_left]
  · rw [encodeByte, getElem?_writeCells, length_byteWindow, if_neg (by omega)]

/-- Byte k of a nonce, by division (R8). -/
theorem byteOf_eq_ofNat (n : Nonce) (k : Nat) : byteOf n k = BitVec.ofNat 8 (n.toNat / 256 ^ k) := by
  apply BitVec.eq_of_toNat_eq
  rw [byteOf_toNat, BitVec.toNat_ofNat, Nat.pow_mul]

/-- A cell of digest byte `j` (R104, R107). -/
theorem getElem?_inputState_digest (m : CodecSignMode) (o : NonceByteOrder) (d : List Byte) (n : Nonce) {j k : Nat}
    (hj : j < 32) (hk : k < 6) :
    (inputState m o d n)[6 * j + k]? = (byteWindow m (d.getD j 0))[k]? := by
  have hdiv : (6 * j + k) / 6 = j := by omega
  have hmod : (6 * j + k) % 6 = k := by omega
  rw [getElem?_inputState, if_pos (by omega), hdiv, hmod]

/-- A cell of nonce byte `j`, in the window that the byte order gives it (R105–R107). -/
theorem getElem?_inputState_nonce (m : CodecSignMode) (o : NonceByteOrder) (d : List Byte) (n : Nonce) {j k : Nat}
    (hj : j < 8) (hk : k < 6) :
    (inputState m o d n)[nonceWindow o j + k]? = (byteWindow m (byteOf n j))[k]? := by
  obtain ⟨w, hw⟩ : ∃ w, nonceWindow o j = 192 + 6 * w := by cases o <;> exact ⟨_, rfl⟩
  obtain ⟨hw8, hbyte⟩ := (nonceWindow_eq o hj).1 hw
  have hdiv : (192 + 6 * w + k - 192) / 6 = w := by omega
  have hmod : (192 + 6 * w + k - 192) % 6 = k := by omega
  rw [hw, getElem?_inputState, if_neg (by omega), if_pos (by omega), hdiv, hmod, hbyte]

/-- Settles O22: the cells of an input state, range by range. -/
theorem candidateStateLayout : Obligations.CandidateStateLayout := by
  intro pr d n
  refine ⟨length_candidate d n, fun j k hj hk => ?digest, fun j k hj hk => ?nonce, fun p hlo hhi => ?zeros⟩
  case digest => exact congrArg (·.getD 0) (getElem?_inputState_digest _ _ d n hj hk)
  case nonce =>
    rw [← byteOf_eq_ofNat]
    exact congrArg (·.getD 0) (getElem?_inputState_nonce pr.signMode pr.byteOrder d n hj hk)
  case zeros =>
    rw [List.getD_eq_getElem?_getD, candidate, getElem?_inputState, if_neg (by omega), if_neg (by omega), if_pos hhi]
    rfl

/-- Settles O23: only byte 0 differs from lane to lane. -/
theorem batchLanesAreCandidates : Obligations.BatchLanesAreCandidates :=
  fun _ _ _ _ hbase hl => laneOf_batchInput hbase hl

/-- Settles O24: an advance changes no byte from `ADVANCE_COUNT` on, in the scalar buffer and in every lane. -/
theorem partialReencodeEqualsFull : Obligations.PartialReencodeEqualsFull :=
  fun _ _ _ => ⟨candidate_advance, batchInput_advance⟩

end Machine
end Sys2Proof
end

section
/-! Faults: the two places a fault can come from, and why a sound state reaches neither (R21, R137, R152, R228). -/

namespace Sys2Proof
namespace Machine

variable {pr : Params}

/-! ### Where a fault can come from -/

/-- No instruction faults: the block has no architectural exception (R275). -/
theorem exec_ne_fault (i : Instr) (s : State) (f : Fault) : exec i s ≠ .fault f := by
  cases i with
  | wr off v =>
    simp only [exec, execWr]
    split
    · nofun
    split <;> nofun
  | _ => nofun

theorem hostAccess_ne_fault (a : PortAccess) (s : State) (f : Fault) : hostAccess a s ≠ .fault f := by
  unfold hostAccess
  split
  · exact exec_ne_fault _ s f
  · rename_i e _
    cases e <;> nofun

/-- A unit's move faults only in its evaluation. -/
theorem unitMove_fault {k : Nat} {s : State} {f : Fault} (h : unitMove k s = .fault f) :
    ∃ u, s.units[k]? = some u ∧ unitStep s.params (deadlineExpired s.coord) u = .error f := by
  unfold unitMove at h
  split at h
  · cases h
  · rename_i u hu
    split at h
    · split at h
      · rename_i g hg
        cases h
        exact ⟨u, hu, hg⟩
      · cases h
    · cases h

/-- C_WAIT has a rule for every report but CANCELLED (R216–R219). -/
theorem waitReport_fault {k : Nat} {u : SearchUnit} {s : State} {f : Fault} (h : waitReport k u s = .fault f) :
    u.report = .cancelled := by
  cases hr : u.report with
  | cancelled => rfl
  | _ => simp only [waitReport, hr] at h; cases h

/-- The consumption of a report faults only on CANCELLED in C_WAIT. -/
theorem reportMove_fault {k : Nat} {s : State} {f : Fault} (h : reportMove k s = .fault f) :
    ∃ u, s.units[k]? = some u ∧ k < s.coord.snap.units ∧ s.coord.cstate = .wait ∧ u.report = .cancelled := by
  unfold reportMove at h
  split at h
  · cases h
  · rename_i u hu
    split at h
    · rename_i hk
      split at h
      · cases h
      · rename_i hc
        exact ⟨u, hu, hk.1, hc, waitReport_fault h⟩
      · cases h
    · cases h

/-- Where a step goes: nowhere, or into one event, the state as it was but for the agenda and the count of picks. -/
theorem step_cases (s : State) :
    step s = .next s ∨ ∃ e agenda picks, step s = takeEvent e (atEvent s agenda picks) := by
  unfold step nextStep
  split
  · unfold freeMove
    split
    · exact .inl rfl
    · exact .inr ⟨_, s.env.agenda, s.env.picks, rfl⟩
    · exact .inr ⟨_, s.env.agenda, s.env.picks + 1, rfl⟩
  · exact .inr ⟨_, _, s.env.picks, rfl⟩

/-! ### A sound state reaches neither -/

/-- Full buffers of trits give every evaluation an outcome (R137, R152). -/
theorem unitStep_ok {u : SearchUnit} (h : FullBuffers u) (x : Bool) : ∃ u', unitStep pr x u = .ok u' := by
  cases hst : stopCheck u.stop x with
  | some st => exact ⟨_, unitStep_stopped hst⟩
  | none =>
    obtain ⟨hstop, rfl⟩ := stopCheck_none hst
    obtain ⟨⟨-, hinp⟩, -, -, ⟨hlen, hvin⟩, -⟩ := h
    unfold unitStep
    cases u.backend with
    | scalar =>
      obtain ⟨k, -, -, hok⟩ := scalarStep_eval (pr := pr) hstop hinp
      exact ⟨_, hok⟩
    | vector =>
      obtain ⟨k, -, -, hok⟩ := vectorStep_eval (pr := pr) hstop hvin hlen
      exact ⟨_, hok⟩

/-- No unit of a search in C_WAIT has posted CANCELLED (R228). -/
theorem report_ne_cancelled_of_wait {s : State} {k : Nat} {u : SearchUnit} (h : ControlConsistent s)
    (hc : s.coord.cstate = .wait) (hu : s.units[k]? = some u) (hk : k < s.coord.snap.units) :
    u.report ≠ .cancelled := by
  intro hr
  obtain ⟨-, -, -, -, hbelow, -⟩ := (controlConsistent_wait_iff hc).1 h
  obtain ⟨hcons, -, hnotCancelled, -⟩ := hbelow k u hu hk
  exact hnotCancelled (ustate_of_report (st := .cancelled) hcons rfl hr)

theorem takeEvent_ne_fault {s : State} (hbuf : BuffersSound s) (hctl : ControlConsistent s) (e : Event) (f : Fault) :
    takeEvent e s ≠ .fault f := by
  intro h
  unfold takeEvent at h
  cases e with
  | host a =>
    simp only [hostMove] at h
    split at h
    · cases h
    · exact hostAccess_ne_fault a s f h
  | unit k =>
    simp only at h
    split at h
    · cases h
    obtain ⟨u, hu, hfault⟩ := unitMove_fault h
    obtain ⟨u', hok⟩ := unitStep_ok (((buffersSound_iff s).1 hbuf).2 u (List.mem_of_getElem? hu)) (pr := s.params)
      (deadlineExpired s.coord)
    rw [hok] at hfault
    cases hfault
  | report k =>
    simp only at h
    split at h
    · cases h
    obtain ⟨u, hu, hk, hc, hr⟩ := reportMove_fault h
    exact report_ne_cancelled_of_wait hctl hc hu hk hr
  | _ => cases h

theorem step_ne_fault {s : State} (h : Sound s) (f : Fault) : step s ≠ .fault f := by
  obtain ⟨hbuf, -, hctl, -⟩ := h
  rcases step_cases s with hs | ⟨e, agenda, picks, hs⟩
  · rw [hs]; nofun
  · rw [hs]
    exact takeEvent_ne_fault (s := atEvent s agenda picks) hbuf hctl e f

/-- Settles O52: no step of a sound state faults, and every step keeps the state sound, by induction on the length of
the run. -/
theorem soundRunsNeverFault : Obligations.SoundRunsNeverFault := by
  intro s h n f
  induction n generalizing s with
  | zero => exact core_run_zero
  | succ n ih =>
    intro hrun
    rcases core_run_fault hrun with hfault | ⟨t, hstep, hrest⟩
    · exact step_ne_fault h f hfault
    · exact ih t (stepKeepsSound s t h hstep) hrest

end Machine
end Sys2Proof
end

section
/-! The scalar kernel: the cursor's order, the truth function cell by cell, 81 rounds as one function, the constant
states, and the difficulty test on both forms (R131–R140, R156). -/

namespace Sys2Proof
namespace Machine

variable {pr : Params}

/-! ### The cursor (R131, R132) -/

/-- 364 is invertible modulo 729: 364 · 727 = 363 · 729 + 1, so the iteration that visits a position is known. -/
theorem cursor_iterate_eq_iff {k p : Nat} (hk : k < 729) (hp : p < 729) :
    cursorAdvance^[k] 0 = p ↔ k = 727 * p % 729 := by
  rw [cursor_iterate]
  omega

/-- Settles O25: a position is visited at the one iteration that the inverse of 364 names. -/
theorem cursorVisitsEveryPositionOnce : Obligations.CursorVisitsEveryPositionOnce := by
  refine ⟨fun _ => cursorAdvance_mod, cursor_iterate, fun p hp => ?once, cursor_iterate 729⟩
  have hlt : 727 * p % 729 < 729 := Nat.mod_lt _ (by decide)
  exact ⟨727 * p % 729, hlt, (cursor_iterate_eq_iff hlt hp).2 rfl, fun _ hk => (cursor_iterate_eq_iff hk hp).1⟩

/-! ### A round and a transform (R133–R138) -/

theorem tritStateSound_roundCells {src : TritState} (hS : ∀ c ∈ src, validCell c = true) :
    tritStateSound (roundCells src) = true :=
  (tritStateSound_iff _).2 ⟨length_roundCells src, valid_roundCells hS⟩

/-- Settles O26: cell `i` is the lookup of the cells that the cursor names at iterations `i` and `i + 1`. -/
theorem roundComputesTruthFunction : Obligations.RoundComputesTruthFunction := by
  intro src hsrc
  have hS := ((tritStateSound_iff src).1 hsrc).2
  refine ⟨roundCells src, round_valid hS, tritStateSound_roundCells hS, ?_⟩
  rintro i hi _ _ rfl rfl
  rw [List.getD_eq_getElem?_getD, getElem?_roundCells src hi]
  exact truth_toInt (validCell_getD hS _) (validCell_getD hS _)

/-- Settles O27: the states after each round are the iterates of one function of the input. -/
theorem transformIsPure : Obligations.TransformIsPure := by
  intro inp b b' hinp
  have hv := ((tritStateSound_iff inp).1 hinp).2
  obtain ⟨o, ho, hcur, -, hvalid, hlen⟩ := transform_valid hv b
  obtain ⟨o', ho', hcur', -⟩ := transform_valid hv b'
  exact ⟨o, o', fun r => roundCells^[r] inp, ho, ho', rfl, fun r _ => round_iterate hv r, hcur, hcur',
    (tritStateSound_iff _).2 ⟨hlen, hvalid⟩⟩

/-! ### Constant states (R140) -/

/-- The state whose 729 cells are all the same. -/
def constState (c : Byte) : TritState := List.replicate 729 c

theorem getD_constState (c : Byte) {i : Nat} (hi : i < 729) : (constState c).getD i 0 = c :=
  getD_replicate_lane _ _ _ _ (.inl hi)

/-- A round of a constant state writes the lookup of the constant with itself, everywhere. -/
theorem roundCells_constState (c : Byte) : roundCells (constState c) = constState (truth c c) := by
  apply List.ext_getElem?
  intro i
  by_cases hi : i < 729
  · rw [getElem?_roundCells _ hi, getD_constState _ (Nat.mod_lt _ (by decide)),
      getD_constState _ (Nat.mod_lt _ (by decide)), constState, List.getElem?_replicate, if_pos hi]
  · rw [List.getElem?_eq_none (by rw [length_roundCells]; omega), constState, List.getElem?_replicate, if_neg hi]

theorem round_constState {c : Byte} (hc : validCell c = true) :
    round (constState c) = .ok (constState (truth c c), 0) := by
  rw [← roundCells_constState]
  refine round_valid fun x hx => ?_
  rwa [List.eq_of_mem_replicate hx]

/-- Three rounds take the zero state to itself, and so do 81. -/
theorem transformCells_zeroState : transformCells zeroState = zeroState := by
  have hthree : roundCells^[3] zeroState = zeroState := by
    change roundCells (roundCells (roundCells (constState 0x00#8))) = constState 0x00#8
    simp only [roundCells_constState]
    rfl
  rw [transformCells, show 81 = 3 * 27 from rfl, Function.iterate_mul]
  exact Function.iterate_fixed hthree 27

/-- Under TWOS byte 0 has the value 0, and its window is six zero trits (R100). -/
theorem byteWindow_twos_zero : byteWindow .twos 0x00#8 = List.replicate 6 0x00#8 := by decide

theorem byteOf_zero (k : Nat) : byteOf 0 k = 0x00#8 := by
  apply BitVec.eq_of_toNat_eq
  rw [byteOf_toNat]
  simp

/-- Under TWOS the zero digest with nonce 0 is the zero state, in either byte order (R107, R140). -/
theorem candidate_zero (h : pr.signMode = .twos) : candidate pr (List.replicate 32 0x00#8) 0 = zeroState := by
  have hdigest : ∀ j, (List.replicate 32 0x00#8).getD j 0 = 0x00#8 := fun j => getD_replicate_lane _ _ _ _ (.inr rfl)
  apply List.ext_getElem?
  intro p
  rw [candidate, h, getElem?_inputState, hdigest, byteOf_zero, byteWindow_twos_zero, List.getElem?_replicate,
    List.getElem?_replicate, if_pos (Nat.mod_lt _ (by decide)), if_pos (Nat.mod_lt _ (by decide)), zeroState,
    List.getElem?_replicate, Config.stateLength]
  by_cases hdigits : p < 192
  · rw [if_pos hdigits, if_pos (by omega)]
  · by_cases hnonce : p < 240
    · rw [if_neg hdigits, if_pos hnonce, if_pos (by omega)]
    · rw [if_neg hdigits, if_neg hnonce]

/-- The zero hash passes the test for every target (R139). -/
theorem hit_zeroState {tz : Nat} (htz : tz ≤ 243) : hit zeroState tz = true :=
  (hit_iff _ htz).2 fun _ _ hp => getD_constState 0x00#8 (by omega)

/-- Settles O28: rounds of constant states rotate the three trits, and the zero candidate hashes to zero. -/
theorem zeroStateIsFixedPoint : Obligations.ZeroStateIsFixedPoint := by
  refine ⟨round_constState rfl, round_constState rfl, round_constState rfl, fun b => ?fixed, fun pr hpr => ?passes⟩
  case fixed =>
    obtain ⟨o, ho, hcur, -⟩ := transform_valid valid_zeroState b
    exact ⟨o, ho, hcur.trans transformCells_zeroState⟩
  case passes =>
    refine ⟨candidate_zero hpr, fun tz htz => ?_⟩
    rw [passes_eq, candidate_zero hpr, transformCells_zeroState]
    exact hit_zeroState htz

/-! ### The difficulty test (R139, R156) -/

/-- Where a list has a cell, the default that a read falls back to does not matter. -/
theorem getD_eq_getD {α : Type} {l : List α} {i : Nat} (h : i < l.length) (a b : α) : l.getD i a = l.getD i b := by
  rw [List.getD_eq_getElem l a h, List.getD_eq_getElem l b h]

/-- Settles O30: HIT reads the tested cells one by one, and a bit of the zero mask is HIT of its lane. -/
theorem zmaskIsLaneWiseHit : Obligations.ZmaskIsLaneWiseHit := by
  refine ⟨fun H tz hH htz => ?scalar, fun V tz l hV htz hl => ?vector⟩
  case scalar =>
    have hlen := ((tritStateSound_iff H).1 hH).1
    rw [hit_iff H htz]
    refine forall_congr' fun p => forall₂_congr fun _ hp => ?_
    rw [getD_eq_getD (by omega) 0xFF#8 0]
  case vector =>
    obtain ⟨hlen, hlanes⟩ := (vectorStateSound_iff V).1 hV
    have hbit := getLsbD_vZmask hlen hlanes htz hl
    refine ⟨?_, hbit⟩
    rw [hbit, hit_iff _ htz]
    refine forall_congr' fun p => forall₂_congr fun _ hp => ?_
    rw [getD_laneOf, getD_eq_getD (by rw [length_getD_group hlanes (by omega)]; exact hl) 0xFF#8 0]

end Machine
end Sys2Proof
end

section
/-! One scalar evaluation, seen from the block: its verdict is a host's check of the unit's nonce (R142, R182, R187). -/

namespace Sys2Proof
namespace Machine

variable {pr : Params}

/-- A deadline that has not been reached is not expired (R219). -/
theorem deadlineExpired_eq_false {c : Coordinator} (h : c.snap.dl = true → c.dlCnt.toNat < c.snap.limit.toNat) :
    deadlineExpired c = false := by
  rw [← Bool.not_eq_true, deadlineExpired_iff]
  rintro ⟨hdl, hreached⟩
  exact Nat.not_lt.2 hreached (h hdl)

/-- A scalar verdict touches nothing of the vector kernel (R25–R27, R182). -/
theorem scalarVerdict_vectorKernel (H : TritState) (u : SearchUnit) :
    (scalarVerdict pr H u).vin = u.vin ∧ (scalarVerdict pr H u).va = u.va ∧ (scalarVerdict pr H u).vb = u.vb ∧
      (scalarVerdict pr H u).vmicro = u.vmicro := by
  unfold scalarVerdict
  split
  · exact ⟨rfl, rfl, rfl, rfl⟩
  split
  · exact ⟨rfl, rfl, rfl, rfl⟩
  · exact ⟨rfl, rfl, rfl, rfl⟩

/-- Settles O33: the evaluation is the verdict on the transform of the candidate, whose test is the host's check. -/
theorem scalarEvaluationOutcome : Obligations.ScalarEvaluationOutcome := by
  intro s k u rest hn hr hu hs hb hstop hdl hreport hinp hle
  have hvalid : ∀ c ∈ u.inp, validCell c = true := by rw [hinp]; exact valid_candidate _ _
  have hpass : hit (transformCells u.inp) u.tz = passes s.params s.regs.digest u.tz u.n := by rw [hinp, passes_eq]
  obtain ⟨o, -, -, hok⟩ := scalarStep_eval (pr := s.params) hstop hvalid
  have hstep : unitStep s.params (deadlineExpired s.coord) u =
      .ok (scalarVerdict s.params (transformCells u.inp) (withScalarKernel u o)) := by
    rw [deadlineExpired_eq_false hdl, unitStep, hb]
    exact hok
  obtain ⟨⟨hkstop, hkexh, hkstart, hkend, hktz, hkempty, hkfb, hkbackend⟩, -⟩ :=
    scalarVerdict_cases (pr := s.params) (transformCells u.inp) (withScalarKernel u o)
  obtain ⟨hvin, hva, hvb, hvmicro⟩ :=
    scalarVerdict_vectorKernel (pr := s.params) (transformCells u.inp) (withScalarKernel u o)
  refine ⟨_, step_unit_ok hn hr hu hs hstep, fun hp => ?found, fun hp hend => ?exhausted, fun hp hend => ?next, hkstart,
    hkend, hktz, hkbackend, hkstop, hvin, hva, hvb, hvmicro, hkempty, hkfb, hkexh⟩
  case found =>
    rw [scalarVerdict_found (u := withScalarKernel u o) (hpass.trans hp)]
    exact ⟨rfl, rfl, rfl, rfl, rfl, rfl⟩
  case exhausted =>
    rw [scalarVerdict_end (u := withScalarKernel u o) (hpass.trans hp) hend]
    exact ⟨rfl, rfl, rfl, rfl, rfl, rfl⟩
  case next =>
    have hlt : u.n.toNat < u.rangeEnd.toNat := Nat.lt_of_le_of_ne hle fun e => hend (BitVec.eq_of_toNat_eq e)
    have hwrap : u.n.toNat + 1 < 2 ^ 64 := Nat.lt_of_le_of_lt hlt u.rangeEnd.isLt
    rw [scalarVerdict_next (u := withScalarKernel u o) (hpass.trans hp) hend]
    refine ⟨hs, hreport, rfl, toNat_add_one hwrap, rfl, ?_⟩
    rw [scalarAdvance_inp, withScalarKernel_inp, withScalarKernel_n, hinp]
    exact candidate_advance hwrap

end Machine
end Sys2Proof
end

section
/-! The vector kernel (R150–R160): lane by lane it is the scalar kernel, and what a batch selects, nonce by nonce. -/

namespace Sys2Proof
namespace Machine

variable {pr : Params} {d : List Byte}

/-! ### The transform, lane by lane (R154, R155) -/

/-- Settles O29: both kernels iterate their round, and a vector round is the scalar round in each lane. -/
theorem vectorTransformIsLaneWise : Obligations.VectorTransformIsLaneWise := by
  intro V b c hV
  obtain ⟨hlen, hlanes⟩ := (vectorStateSound_iff V).1 hV
  obtain ⟨o, ho, hcur, -, hcurLanes, hcurLen, -⟩ := vTransform_valid hlanes hlen b
  refine ⟨o, ho, (vectorStateSound_iff _).2 ⟨hcurLen, hcurLanes⟩, fun l hl => ?_⟩
  obtain ⟨o', ho', hcur', -⟩ := transform_valid (valid_laneOf hlanes l) c
  refine ⟨o', ho', ?_⟩
  rw [hcur, hcur', laneOf_iterate_vRoundCells hl 81 hlanes hlen, transformCells]

/-! ### Selection (R157, R158) -/

/-- A lane that selection passes over: if its bit is set and its nonce is no smaller than the start, the nonce lies
beyond the end (R157). -/
theorem lane_passed_over_iff {base start stop : Nonce} {zm : LaneMask} {l : Nat} (hl : l < 16) :
    ¬ (zm.getLsbD l = true ∧ (vRmask base start stop).getLsbD l = true) ↔
      (zm.getLsbD l = true → start.toNat ≤ base.toNat + l → stop.toNat < base.toNat + l) := by
  rw [getLsbD_vRmask _ _ _ _ hl]
  simp only [not_and, Nat.not_le]

/-- Settles O31: a lane of both masks is a lane of the zero mask whose nonce lies in the range. -/
theorem selectionTakesLowestInRangeLane : Obligations.SelectionTakesLowestInRangeLane := by
  intro base start stop zm hb
  obtain ⟨hsome, hnone⟩ := vSelect_spec base hb zm (vRmask base start stop)
  constructor
  · intro w hw
    obtain ⟨l, hl, hwl, hz, hr, hleast⟩ := hsome w hw
    obtain ⟨hstart, hstop⟩ := (getLsbD_vRmask _ _ _ _ hl).1 hr
    exact ⟨l, hl, hwl, hz, hstart, hstop, fun l' hl' => (lane_passed_over_iff (hl'.trans hl)).1 (hleast l' hl')⟩
  · rw [hnone]
    exact forall₂_congr fun l hl => lane_passed_over_iff hl

/-! ### What a batch selects, nonce by nonce (R156–R160) -/

/-- The selection of the batch at `base` in the range `[lo, hi]`, its transform done (R185). -/
def batchSelect (pr : Params) (d : List Byte) (tz : Nat) (base lo hi : Nonce) : Option Nonce :=
  vSelect base (vZmask (vRoundCells^[81] (batchInput pr d base)) tz) (vRmask base lo hi)

/-- `w` is the smallest nonce of the batch at `base` that lies in `[lo, hi]` and passes (R160, R185). -/
def SmallestInBatch (pr : Params) (d : List Byte) (tz : Nat) (base lo hi w : Nonce) : Prop :=
  max base.toNat lo.toNat ≤ w.toNat ∧ w.toNat < min (base.toNat + 16) (hi.toNat + 1) ∧ passes pr d tz w = true ∧
    NonePass pr d tz (max base.toNat lo.toNat) w.toNat

theorem smallestInBatch_unique {tz : Nat} {base lo hi v w : Nonce} (hv : SmallestInBatch pr d tz base lo hi v)
    (hw : SmallestInBatch pr d tz base lo hi w) : v = w := by
  obtain ⟨hvlo, -, hvpass, hvleast⟩ := hv
  obtain ⟨hwlo, -, hwpass, hwleast⟩ := hw
  apply BitVec.eq_of_toNat_eq
  rcases Nat.lt_trichotomy v.toNat w.toNat with hlt | heq | hgt
  · exact absurd hvpass (by rw [hwleast v hvlo hlt]; decide)
  · exact heq
  · exact absurd hwpass (by rw [hvleast w hwlo hgt]; decide)

section
variable {tz : Nat} {base lo hi : Nonce} (h16 : base.toNat % 16 = 0) (htz : tz ≤ 243)
include h16 htz

/-- The nonce `m` of a batch has the bit of its lane `m − base` in the zero mask exactly when it passes (R156). -/
theorem getLsbD_vZmask_of_nonce {m : Nonce} (hlo : base.toNat ≤ m.toNat) (hhi : m.toNat < base.toNat + 16) :
    (vZmask (vRoundCells^[81] (batchInput pr d base)) tz).getLsbD (m.toNat - base.toNat) = passes pr d tz m :=
  getLsbD_vZmask_batch h16 htz (by omega) (by omega)

/-- A selected nonce is the smallest of the batch that lies in the range and passes (R158, R159). -/
theorem smallestInBatch_of_batchSelect {w : Nonce} (h : batchSelect pr d tz base lo hi = some w) :
    SmallestInBatch pr d tz base lo hi w := by
  obtain ⟨l, hl, hw, hz, hlo, hhi, hleast⟩ := (selectionTakesLowestInRangeLane base lo hi _ h16).1 w h
  have hpass : passes pr d tz w = true := (getLsbD_vZmask_batch h16 htz hl hw).symm.trans hz
  refine ⟨by omega, by omega, hpass, fun m hmlo hmw => ?_⟩
  by_contra hm
  have hbit := (getLsbD_vZmask_of_nonce (pr := pr) (d := d) h16 htz (m := m) (by omega) (by omega)).trans
    (Bool.eq_true_of_not_eq_false hm)
  have := hleast _ (by omega) hbit (by omega)
  omega

/-- A batch that selects nothing has no nonce in the range that passes (R158, R160). -/
theorem nonePass_of_batchSelect_none (h : batchSelect pr d tz base lo hi = none) :
    NonePass pr d tz (max base.toNat lo.toNat) (min (base.toNat + 16) (hi.toNat + 1)) := by
  intro m hmlo hmhi
  by_contra hm
  have hbit := (getLsbD_vZmask_of_nonce (pr := pr) (d := d) h16 htz (m := m) (by omega) (by omega)).trans
    (Bool.eq_true_of_not_eq_false hm)
  have := (selectionTakesLowestInRangeLane base lo hi _ h16).2.1 h _ (by omega) hbit (by omega)
  omega

theorem batchSelect_eq_some {w : Nonce} (hw : SmallestInBatch pr d tz base lo hi w) :
    batchSelect pr d tz base lo hi = some w := by
  cases h : batchSelect pr d tz base lo hi with
  | none =>
    obtain ⟨hlo, hhi, hpass, -⟩ := hw
    rw [nonePass_of_batchSelect_none h16 htz h w hlo hhi] at hpass
    cases hpass
  | some v => rw [smallestInBatch_unique (smallestInBatch_of_batchSelect h16 htz h) hw]

theorem batchSelect_eq_none
    (hnone : NonePass pr d tz (max base.toNat lo.toNat) (min (base.toNat + 16) (hi.toNat + 1))) :
    batchSelect pr d tz base lo hi = none := by
  cases h : batchSelect pr d tz base lo hi with
  | none => rfl
  | some v =>
    obtain ⟨hlo, hhi, hpass, -⟩ := smallestInBatch_of_batchSelect h16 htz h
    rw [hnone v hlo hhi] at hpass
    cases hpass

end

/-! ### One batch, seen from the block (R185–R188) -/

/-- A batch's verdict touches nothing of the scalar kernel (R22–R24, R185). -/
theorem vectorVerdict_scalarKernel (V : VectorState) (u : SearchUnit) :
    (vectorVerdict pr V u).inp = u.inp ∧ (vectorVerdict pr V u).bufA = u.bufA ∧ (vectorVerdict pr V u).bufB = u.bufB ∧
      (vectorVerdict pr V u).micro = u.micro := by
  unfold vectorVerdict
  split
  · exact ⟨rfl, rfl, rfl, rfl⟩
  split
  · exact ⟨rfl, rfl, rfl, rfl⟩
  · exact ⟨rfl, rfl, rfl, rfl⟩

/-- Settles O34: the step is the verdict on the batch's selection, the smallest nonce in range that passes. -/
theorem vectorBatchOutcome : Obligations.VectorBatchOutcome := by
  intro s k u rest hn hr hu hs hb hstop hdl hreport htz hvin h16 hle
  obtain ⟨hlen, hlanes⟩ := fullLanes_batchInput (pr := s.params) s.regs.digest u.n
  obtain ⟨o, -, -, hok⟩ := vectorStep_eval (pr := s.params) (u := u) hstop (by rw [hvin]; exact hlanes)
    (by rw [hvin]; exact hlen)
  have hstep : unitStep s.params (deadlineExpired s.coord) u =
      .ok (vectorVerdict s.params (vRoundCells^[81] u.vin) (withVectorKernel u o)) := by
    rw [deadlineExpired_eq_false hdl, unitStep, hb]
    exact hok
  have hselect : vSelect u.n (vZmask (vRoundCells^[81] u.vin) u.tz) (vRmask u.n u.rangeStart u.rangeEnd) =
      batchSelect s.params s.regs.digest u.tz u.n u.rangeStart u.rangeEnd := by rw [hvin, batchSelect]
  obtain ⟨⟨hkstop, hkexh, hkstart, hkend, hktz, hkempty, hkfb, hkbackend⟩, -⟩ :=
    vectorVerdict_cases (pr := s.params) (vRoundCells^[81] u.vin) (withVectorKernel u o)
  obtain ⟨hinp, hbufA, hbufB, hmicro⟩ :=
    vectorVerdict_scalarKernel (pr := s.params) (vRoundCells^[81] u.vin) (withVectorKernel u o)
  refine ⟨_, step_unit_ok hn hr hu hs hstep, fun w hbase hbatch hstart hend hpass hleast => ?found,
    fun hnone => ⟨fun hlast => ?exhausted, fun hlast => ?next⟩, hkstart, hkend, hktz, hkbackend, hkstop, hinp, hbufA,
    hbufB, hmicro, hkempty, hkfb, hkexh⟩
  case found =>
    have hw : SmallestInBatch s.params s.regs.digest u.tz u.n u.rangeStart u.rangeEnd w :=
      ⟨Nat.max_le.2 ⟨hbase, hstart⟩, by omega, hpass, hleast⟩
    rw [vectorVerdict_some (u := withVectorKernel u o) (hselect.trans (batchSelect_eq_some h16 htz hw))]
    exact ⟨rfl, rfl, rfl, rfl, rfl, rfl⟩
  case exhausted =>
    rw [vectorVerdict_end (u := withVectorKernel u o) (hselect.trans (batchSelect_eq_none h16 htz hnone)) hlast]
    exact ⟨rfl, rfl, rfl, rfl, rfl, rfl⟩
  case next =>
    have hwrap : u.n.toNat + 16 < 2 ^ 64 := Nat.lt_of_le_of_lt hlast u.rangeEnd.isLt
    rw [vectorVerdict_next (u := withVectorKernel u o) (hselect.trans (batchSelect_eq_none h16 htz hnone))
      (Nat.not_le.2 hlast)]
    refine ⟨hs, hreport, rfl, toNat_add_16 hwrap, rfl, ?_⟩
    rw [vectorAdvance_vin, withVectorKernel_vin, withVectorKernel_n, hvin]
    exact batchInput_advance h16 hwrap

end Machine
end Sys2Proof
end

section
/-! The outcome that ends a search (R191, R217, R223, R224, R226): the parts leave no nonce of the range out, only two events
end a search but for reset, and what the units have established makes the published outcome true. -/

namespace Sys2Proof
namespace Machine

variable {pr : Params} {d : List Byte}

/-! ### The parts cover the range (R212, R224) -/

/-- Of `U` parts of size `z` that start from `lo` on, the last one that does not start above `n`. -/
theorem exists_last_start {lo n U : Nat} (z : Nat) (hU : 1 ≤ U) (hlo : lo ≤ n) :
    ∃ k, k < U ∧ lo + k * z ≤ n ∧ (k + 1 < U → n < lo + (k + 1) * z) := by
  induction U, hU using Nat.le_induction with
  | base => exact ⟨0, Nat.one_pos, by rwa [Nat.zero_mul], fun h => absurd h (Nat.lt_irrefl 1)⟩
  | succ U _ ih =>
    rcases Nat.lt_or_ge n (lo + U * z) with hlt | hge
    · obtain ⟨k, hk, hstart, hnext⟩ := ih
      refine ⟨k, Nat.lt_succ_of_lt hk, hstart, fun hk' => ?_⟩
      rcases Nat.lt_or_eq_of_le (Nat.le_of_lt_succ hk') with h | h
      · exact hnext h
      · rwa [h]
    · exact ⟨U, Nat.lt_succ_self U, hge, fun h => absurd h (Nat.lt_irrefl _)⟩

/-- Every nonce of the range lies in a part that is not empty: in the last one that does not start above it. -/
theorem exists_part_of_range {c : Snapshot} (q : Nat) (h1 : 1 ≤ c.units) (hle : c.min.toNat ≤ c.max.toNat) {n : Nonce}
    (hlo : c.min.toNat ≤ n.toNat) (hhi : n.toNat ≤ c.max.toNat) :
    ∃ k, k < c.units ∧ partEmpty c k = false ∧ (partStart c k).toNat ≤ n.toNat ∧ n.toNat ≤ (partEnd q c k).toNat := by
  obtain ⟨k, hkU, hstart, hlast⟩ := exists_last_start (partSize c) h1 hlo
  have hne : partEmpty c k = false := by
    rw [← Bool.not_eq_true]
    intro he
    obtain ⟨hk, hz⟩ : k + 1 < c.units ∧ partSize c = 0 := by simpa [partEmpty] using he
    have := hlast hk
    rw [hz] at this
    omega
  obtain ⟨hs, he, -⟩ := part_bounds c q hle k hkU hne
  refine ⟨k, hkU, hne, hs ▸ hstart, ?_⟩
  split at he
  · rename_i hk
    have := hlast hk
    omega
  · omega

/-! ### What the units have established about the range (R191, R217) -/

/-- A unit that ended EXHAUSTED refutes its part, if that is not empty (R191). -/
theorem nonePass_of_exhausted {e : Env} {c : Snapshot} {k : Nat} {u : SearchUnit} (h : UnitWorks pr d e c k u)
    (hs : u.ustate = .exhausted) (he : partEmpty c k = false) (q : Nat) :
    NonePass pr d c.tz (partStart c k).toNat ((partEnd q c k).toNat + 1) := by
  obtain ⟨⟨hstart, hempty, htz, hend, -⟩, hest⟩ := h
  unfold UnitEstablished at hest
  rw [hs] at hest
  rcases hest with hu | hnone
  · rw [hempty, he] at hu
    cases hu
  · rwa [hstart, hend he q, htz] at hnone

/-- A unit that ended FOUND holds the smallest passing nonce of its part (R191). -/
theorem smallestPassing_of_found {e : Env} {c : Snapshot} {k : Nat} {u : SearchUnit} (h : UnitWorks pr d e c k u)
    (hs : u.ustate = .found) (he : partEmpty c k = false) (q : Nat) :
    SmallestPassing pr d c.tz (partStart c k) (partEnd q c k) u.result := by
  obtain ⟨⟨hstart, -, htz, hend, -⟩, hest⟩ := h
  unfold UnitEstablished at hest
  rw [hs] at hest
  obtain ⟨-, hsmallest⟩ := hest
  rwa [hstart, hend he q, htz] at hsmallest

/-- When every unit ended EXHAUSTED no nonce of the whole range passes (R217, R224). -/
theorem nonePass_range {e : Env} {c : Snapshot} {us : List SearchUnit} (hfit : SnapshotFits c us.length)
    (h : UnitsBelow c.units us fun k u => UnitWorks pr d e c k u ∧ u.ustate = .exhausted) :
    NonePass pr d c.tz c.min.toNat (c.max.toNat + 1) := by
  intro m hlo hhi
  obtain ⟨h1, hU, -, hle⟩ := hfit
  obtain ⟨k, hk, he, hstart, hend⟩ := exists_part_of_range 0 h1 hle hlo (Nat.le_of_lt_succ hhi)
  obtain ⟨hworks, hs⟩ := h k us[k] (List.getElem?_eq_getElem _) hk
  exact nonePass_of_exhausted hworks hs he 0 m hstart (Nat.lt_succ_of_le hend)

/-- Once every EXHAUSTED report has been counted in C_WAIT, the one of unit `k` last, every unit has ended so (R217). -/
theorem unitsBelow_exhausted {s : State} {k : Nat} {u : SearchUnit} (hctl : ControlConsistent s)
    (hest : SearchEstablished s) (hu : s.units[k]? = some u) (hc : s.coord.cstate = .wait) (hr : u.report = .exhausted)
    (hall : allExhausted s.coord.snap.units (s.units.set k { u with report := .none, exh := true }) = true) :
    UnitsBelow s.coord.snap.units s.units fun j v =>
      UnitWorks s.params s.regs.digest s.env s.coord.snap j v ∧ v.ustate = .exhausted := by
  intro j v hv hj
  obtain ⟨-, -, -, -, hbelow, -⟩ := (controlConsistent_wait_iff hc).1 hctl
  refine ⟨(searchEstablished_wait_iff hc).1 hest j v hv hj, ?_⟩
  obtain ⟨hcons, -, -, -, -, hexh, -⟩ := hbelow j v hv hj
  by_cases hkj : k = j
  · subst hkj
    rw [hu, Option.some.injEq] at hv
    subst hv
    exact ustate_of_report (st := .exhausted) hcons rfl hr
  · exact (hexh ((allExhausted_iff _ _).1 hall j v hj ((List.getElem?_set_ne hkj).trans hv))).1

/-! ### The published outcome (R223, R226) -/

/-- The outcome that `t` shows is true of the search that runs in `s` (R189, R191, R226). -/
def OutcomeTrue (s t : State) : Prop :=
  (t.regs.status.code = .found ∧ ∃ k, k < s.coord.snap.units ∧ partEmpty s.coord.snap k = false ∧
    ∀ q, SmallestPassing s.params s.regs.digest s.coord.snap.tz (partStart s.coord.snap k) (partEnd q s.coord.snap k)
      (nonceReg t.regs)) ∨
  (t.regs.status.code = .exhausted ∧
    NonePass s.params s.regs.digest s.coord.snap.tz s.coord.snap.min.toNat (s.coord.snap.max.toNat + 1)) ∨
  (t.regs.status.code = .timedOut ∧ s.coord.snap.dl = true) ∨
  (t.regs.status.code = .backendUnavailable ∧ ∃ k, k < s.coord.snap.units ∧
    NoUsableBackend s.env (s.env.searches - 1) k s.coord.snap.vec s.coord.snap.fb) ∨
  t.regs.status.code = .cancelled

/-- The last EXHAUSTED report ends the search EXHAUSTED (R217). -/
theorem outcomeTrue_exhausted {s : State} {k : Nat} {u : SearchUnit} (hctl : ControlConsistent s)
    (hest : SearchEstablished s) (hu : s.units[k]? = some u) (hc : s.coord.cstate = .wait) (hr : u.report = .exhausted)
    (hall : allExhausted s.coord.snap.units (s.units.set k { u with report := .none, exh := true }) = true) :
    OutcomeTrue s (publishOutcome (latchCode .exhausted (recordExhausted k u s))) :=
  .inr (.inl ⟨rfl, nonePass_range (snapshotFits_of_control hctl) (unitsBelow_exhausted hctl hest hu hc hr hall)⟩)

/-- The end of a drained search publishes the latched outcome (R216–R219, R221–R223). -/
theorem outcomeTrue_published {s : State} (hctl : ControlConsistent s) (hest : SearchEstablished s)
    (hc : s.coord.cstate = .drain) : OutcomeTrue s (publishOutcome s) := by
  obtain ⟨-, -, -, ⟨hcode, hdl⟩, -⟩ := (controlConsistent_drain_iff hc).1 hctl
  obtain ⟨hworks, hfound, hfailed⟩ := (searchEstablished_drain_iff hc).1 hest
  rcases hcode with hl | hl | hl | hl
  · obtain ⟨k, u, hu, hk, he, hs, hres⟩ := hfound hl
    have hnonce : nonceReg (publishOutcome s).regs = u.result :=
      ((joinHalves_publishedNonce s.coord.latch).trans (if_pos hl)).trans hres.symm
    refine .inl ⟨hl, k, hk, he, fun q => ?_⟩
    rw [hnonce]
    exact smallestPassing_of_found (hworks k u hu hk) hs he q
  · exact .inr (.inr (.inl ⟨hl, hdl hl⟩))
  · obtain ⟨k, u, hu, hk, hs⟩ := hfailed hl
    obtain ⟨⟨-, -, -, -, hno⟩, -⟩ := hworks k u hu hk
    exact .inr (.inr (.inr (.inl ⟨hl, k, hk, hno hs⟩)))
  · exact .inr (.inr (.inr (.inr hl)))

/-- An event that leaves BUSY is the reset step or publishes a true outcome (R51, R226). -/
theorem outcomeTrue_effect {e : Event} {s t : State} (he : Effect e s t) (hctl : ControlConsistent s)
    (hest : SearchEstablished s) (hb : isBusy s = true) (hend : isBusy t = false) :
    e = .rst true ∨ OutcomeTrue s t := by
  have hbusy : isBusy s ≠ false := by rw [hb]; nofun
  cases he with
  | rst b =>
    cases b
    · exact absurd hend hbusy
    · exact .inl rfl
  | accepted _ _ h => exact absurd h hbusy
  | illegal _ _ h => exact absurd h hbusy
  | digest _ _ _ _ h => exact absurd h hbusy
  | stored _ _ _ _ h => exact absurd h hbusy
  | invalid _ _ _ h => exact absurd h hbusy
  | zeroDeadline _ _ _ h => exact absurd h hbusy
  | launched _ _ _ h => exact absurd h hbusy
  | exhausted k u _ hu _ hc hr hall => exact .inr (outcomeTrue_exhausted hctl hest hu hc hr hall)
  | published _ hc => exact .inr (outcomeTrue_published hctl hest hc)
  | _ => exact absurd hend hbusy

/-- Settles O53: but for reset only a publication leaves BUSY, and it shows what the units have established. -/
theorem publishedOutcomeIsTrue : Obligations.PublishedOutcomeIsTrue := by
  intro s t h hb hstep hend
  obtain ⟨-, -, hctl, hest⟩ := h
  obtain rfl | ⟨e, rest, p, he, hnext⟩ := step_inversion hstep
  · rw [hb] at hend
    cases hend
  rcases outcomeTrue_effect he hctl hest hb hend with rfl | htrue
  · exact .inl ⟨rest, hnext.resolve_right fun h => h.2 _ rfl⟩
  · exact .inr htrue

end Machine
end Sys2Proof
end

section
/-! One unit's step in the search loop: the stop check comes before the evaluation, and an evaluation that goes on moves the
counter up, within the range (R187, R188, R190, R192). -/

namespace Sys2Proof
namespace Machine

/-! ### The stop check (R188, R190) -/

/-- A searching unit whose stop check ends it is terminated without an evaluation (R188, R190). -/
theorem step_unit_stopped {s : State} {k : Nat} {u : SearchUnit} {rest : List Event} {st : UState}
    (hn : s.env.agenda = .unit k :: rest) (hr : s.env.rst = false) (hu : s.units[k]? = some u)
    (hs : u.ustate = .searching) (hst : stopCheck u.stop (deadlineExpired s.coord) = some st) :
    step s = .next ((s.withEnv { s.env with agenda := rest }).withUnit k (terminate u st)) :=
  step_unit_ok hn hr hu hs (unitStep_stopped hst)

/-- Settles O32: each stop request, and an expired deadline without one, is an answer of the stop check. -/
theorem stopCheckPrecedesEvaluation : Obligations.StopCheckPrecedesEvaluation := by
  intro s k u rest hn hr hu hs
  refine ⟨fun hstop => step_unit_stopped (st := .timedOut) hn hr hu hs ?timedOut,
    fun hstop => step_unit_stopped (st := .cancelled) hn hr hu hs ?cancelled⟩
  case timedOut =>
    rcases hstop with hstop | ⟨hstop, hexpired⟩
    · rw [hstop, stopCheck]
    · rw [hstop, (deadlineExpired_iff _).2 hexpired, stopCheck, if_pos rfl]
  case cancelled => rw [hstop, stopCheck]

/-! ### The counter (R187, R192) -/

/-- In a sound state the counter of a searching unit lies within its range (R187, R192). -/
theorem counter_le_rangeEnd {s : State} {k : Nat} {u : SearchUnit} (h : Sound s) (hu : s.units[k]? = some u)
    (hs : u.ustate = .searching) : u.n.toNat ≤ u.rangeEnd.toNat := by
  obtain ⟨-, -, hctl, hest⟩ := h
  obtain ⟨hrun, hk⟩ := running_of_searching hctl hu hs
  obtain ⟨-, hworks⟩ := unitsBelow_works hest hrun k u hu hk
  cases hb : u.backend with
  | scalar =>
    obtain ⟨-, -, -, -, hle, -⟩ := (unitEstablished_scalar_iff hs hb).1 hworks
    exact hle
  | vector =>
    obtain ⟨-, -, -, -, hle, -⟩ := (unitEstablished_vector_iff hs hb).1 hworks
    exact hle

/-- In a sound state a searching unit's step is an evaluation with an outcome (R137, R152). -/
theorem step_unit_sound {s : State} {k : Nat} {u : SearchUnit} {rest : List Event} (h : Sound s)
    (hn : s.env.agenda = .unit k :: rest) (hr : s.env.rst = false) (hu : s.units[k]? = some u)
    (hs : u.ustate = .searching) :
    ∃ u', unitStep s.params (deadlineExpired s.coord) u = .ok u' ∧
      step s = .next ((s.withEnv { s.env with agenda := rest }).withUnit k u') := by
  obtain ⟨hbuf, -⟩ := h
  obtain ⟨u', hu'⟩ := unitStep_ok (pr := s.params) (((buffersSound_iff s).1 hbuf).2 u (List.mem_of_getElem? hu))
    (deadlineExpired s.coord)
  exact ⟨u', hu', step_unit_ok hn hr hu hs hu'⟩

/-- Settles O35: the evaluation ends the unit or moves its counter up, and the state after it is sound, so that the new
counter lies within the range. -/
theorem counterOnlyIncreases : Obligations.CounterOnlyIncreases := by
  intro s t k u rest h hn hr hu hs hstep
  obtain ⟨u', heval, hnext⟩ := step_unit_sound h hn hr hu hs
  have hsound : Sound t := stepKeepsSound s t h hstep
  rw [hnext, Host.Outcome.next.injEq] at hstep
  subst hstep
  have hu' : ((s.withEnv { s.env with agenda := rest }).withUnit k u').units[k]? = some u' := getElem?_set_self hu
  refine ⟨u', hu', ?_⟩
  rcases unitStep_progress heval with hterm | ⟨hsame, -, hcount⟩
  · exact .inl ((isTerminal_iff _).1 hterm)
  · have hs' : u'.ustate = .searching := hsame.trans hs
    exact .inr ⟨hs', hcount (counter_le_rangeEnd h hu hs), counter_le_rangeEnd hsound hu' hs'⟩

end Machine
end Sys2Proof
end

section
/-! The partition of a range among the units of a search: its parts are disjoint and meet (R212, R213, R224). -/

namespace Sys2Proof
namespace Machine

/-- A part that is not empty ends below the start of every later one (R212). -/
theorem partEnd_lt_partStart {c : Snapshot} (q : Nat) (hle : c.min.toNat ≤ c.max.toNat) {k k' : Nat} (hkk' : k < k')
    (hk' : k' < c.units) (he : partEmpty c k = false) (he' : partEmpty c k' = false) :
    (partEnd q c k).toNat < (partStart c k').toNat := by
  obtain ⟨-, hend, -⟩ := part_bounds c q hle k (by omega) he
  obtain ⟨hstart, -⟩ := part_bounds c q hle k' hk' he'
  rw [if_pos (by omega)] at hend
  have hmul : (k + 1) * partSize c ≤ k' * partSize c := Nat.mul_le_mul_right _ hkk'
  omega

/-- No nonce lies in two parts that are not empty (R224). -/
theorem part_unique {c : Snapshot} (q : Nat) (hle : c.min.toNat ≤ c.max.toNat) {n : Nonce} {k k' : Nat}
    (hk : k < c.units) (he : partEmpty c k = false) (hlo : (partStart c k).toNat ≤ n.toNat)
    (hhi : n.toNat ≤ (partEnd q c k).toNat) (hk' : k' < c.units) (he' : partEmpty c k' = false)
    (hlo' : (partStart c k').toNat ≤ n.toNat) (hhi' : n.toNat ≤ (partEnd q c k').toNat) : k' = k := by
  rcases Nat.lt_trichotomy k' k with h | h | h
  · have := partEnd_lt_partStart q hle h hk he' he
    omega
  · exact h
  · have := partEnd_lt_partStart q hle h hk' he he'
    omega

/-- A part that is not empty lies within the range (R212). -/
theorem part_within_range {c : Snapshot} (q : Nat) (hle : c.min.toNat ≤ c.max.toNat) {k : Nat} (hk : k < c.units)
    (he : partEmpty c k = false) :
    c.min.toNat ≤ (partStart c k).toNat ∧ (partEnd q c k).toNat ≤ c.max.toNat := by
  obtain ⟨hstart, hend, -, htotal⟩ := part_bounds c q hle k hk he
  have hmul : (k + 1) * partSize c ≤ c.units * partSize c := Nat.mul_le_mul_right _ hk
  refine ⟨by omega, ?_⟩
  split at hend <;> omega

/-- The part after one that is not empty is not empty either: all but the last have one size (R212). -/
theorem partEmpty_succ {c : Snapshot} {k : Nat} (hk : k + 1 < c.units) (he : partEmpty c k = false) :
    partEmpty c (k + 1) = false := by
  have hsize : partSize c ≠ 0 := by simpa [partEmpty, hk] using he
  simp [partEmpty, hsize]

/-- Settles O37: the last part that does not start above a nonce holds it, and parts are consecutive multiples of one
size. -/
theorem partitionCoversRangeOnce : Obligations.PartitionCoversRangeOnce := by
  intro c q h1 hle
  refine ⟨fun n hlo hhi => ?cover, fun k hk he => ?within, fun k hk he => ?size⟩
  case cover =>
    obtain ⟨k, hk, he, hstart, hend⟩ := exists_part_of_range q h1 hle hlo hhi
    exact ⟨k, hk, he, hstart, hend, fun k' hk' he' => part_unique q hle hk he hstart hend hk' he'⟩
  case within =>
    obtain ⟨hmin, hmax⟩ := part_within_range q hle hk he
    exact ⟨hmin, partStart_le_partEnd q hle hk he, hmax⟩
  case size =>
    obtain ⟨hstart, hend, -⟩ := part_bounds c q hle k (by omega) he
    obtain ⟨hnext, -⟩ := part_bounds c q hle (k + 1) hk (partEmpty_succ hk he)
    rw [if_pos hk] at hend
    have hsucc : (k + 1) * partSize c = k * partSize c + partSize c := Nat.succ_mul _ _
    have hsize : partSize c = (c.max.toNat + 1 - c.min.toNat) / c.units := rfl
    exact ⟨by omega, by omega⟩

end Machine
end Sys2Proof
end

section
/-! The coordinator's decisions: what CANCEL, a zero deadline, a report or the deadline expiry make of a search
(R214–R221, R223, R245, R246). -/

namespace Sys2Proof
namespace Machine

/-! ### STOP_ALL and the release of the units -/

/-- `STOP_ALL` reaches the units of the search that still search or were never launched (R220). -/
theorem getElem?_stopUnits_of_some {U j : Nat} {reason : Stop} {us : List SearchUnit} {v : SearchUnit}
    (hv : us[j]? = some v) :
    (stopUnits U reason us)[j]? =
      some (if j < U ∧ (v.ustate = .searching ∨ v.ustate = .idle) then { v with stop := reason } else v) := by
  simp only [getElem?_stopUnits, hv, Option.map_some, isTerminal_eq_false_iff]

theorem length_stopUnits (U : Nat) (reason : Stop) (us : List SearchUnit) :
    (stopUnits U reason us).length = us.length := List.length_mapIdx

theorem getElem?_releaseUnits_of_some {U j : Nat} {us : List SearchUnit} {v : SearchUnit} (hv : us[j]? = some v) :
    (releaseUnits U us)[j]? = some (if j < U then { v with ustate := .idle, stop := .none } else v) := by
  rw [getElem?_releaseUnits, hv, Option.map_some]

/-- Units at rest have nothing to release (R223). -/
theorem releaseUnits_of_rest {us : List SearchUnit} (U : Nat) (h : RestFrom 0 us) : releaseUnits U us = us := by
  refine List.ext_getElem? fun k => ?_
  cases hu : us[k]? with
  | none => rw [getElem?_releaseUnits, hu, Option.map_none]
  | some u =>
    obtain ⟨hidle, hstop, -⟩ := h k u hu (Nat.zero_le k)
    rw [getElem?_releaseUnits_of_some hu, ← hidle, ← hstop, ite_self]

/-- A search that ends without FOUND before a unit was launched changes no unit (R214, R223). -/
theorem publishOutcome_of_rest {s : State} (h : RestFrom 0 s.units) (hcode : s.coord.latch.code ≠ .found) :
    publishOutcome s = ((s.withStatus (s.regs.status.publish s.coord.latch.code)).withNonce 0).withCoord
      { s.coord with cstate := .idle } := by
  rw [publishOutcome_other s hcode, releaseUnits_of_rest _ h]
  rfl

/-! ### CANCEL -/

/-- Settles O15: not BUSY, CANCEL is accepted like any command; BUSY, it is `HOST_CANCEL`, which reads CSTATE alone. -/
theorem cancelStopsRunningSearch : Obligations.CancelStopsRunningSearch := by
  intro s
  refine ⟨fun hb => ⟨_, statusWord_accept s.regs.status, ?accepted⟩,
    fun hb hc => ⟨_, length_stopUnits s.coord.snap.units .cancel s.units, fun _ _ => getElem?_stopUnits_of_some, ?wait⟩,
    fun hb hc => ?drain⟩
  case accepted =>
    simp only [exec, execCancel, hb, Bool.false_eq_true, if_false]
    rfl
  case wait =>
    simp only [exec, execCancel, hostCancel, hb, hc, if_true]
    rfl
  case drain => simp only [exec, execCancel, hostCancel, hb, hc, if_true]

/-! ### A deadline of 0 -/

/-- A search command that passes validation with a deadline of 0 is published TIMED_OUT at once (R214). -/
theorem runSearchCommand_zeroDeadline {s : State} {units : Nat} {c : Snapshot} (htz : c.tz ≤ 243)
    (hrange : (minNonce s.regs).toNat ≤ (maxNonce s.regs).toNat) (hdigest : s.regs.digestValid = 0xFFFFFFFF#32)
    (hunits : units ≤ s.units.length) (hdl : c.dl = true) (hlimit : c.limit = 0#32) :
    runSearchCommand units c (acceptCommand s) =
      publishOutcome (latchCode .timedOut (takeSnapshot c (started s))) := by
  have hvalid : failedCheck c.tz units ((acceptCommand s).withNonce 0) = none :=
    failedCheck_eq_none htz hrange hdigest hunits
  simp only [runSearchCommand, hvalid, launch, if_pos (And.intro hdl hlimit)]
  rfl

/-- STATUS after a search that ends TIMED_OUT in the step that starts it (R214, R223, R240). -/
theorem statusWord_zeroDeadline (st : Status) : statusWord (st.accept.start.publish .timedOut) = 0x00000044#32 := by
  simp only [statusWord, Status.publish_reason, Status.publish_done, Status.publish_rejected, Status.start_rejected,
    Status.accept_rejected, Status.publish_nonceValid, Status.publish_code]
  rfl

/-- Settles O13: the search is published before a unit starts, and a block that is not BUSY has its units at rest. -/
theorem zeroDeadlineTimesOutAtOnce : Obligations.ZeroDeadlineTimesOutAtOnce := by
  intro s tz units vec fb hctl hidle htz hrange hdigest hunits hdeadline
  obtain ⟨-, -, hrest⟩ := controlConsistent_not_busy hctl hidle
  have hsnap := searchSnapshot_eq tz units true vec fb s.regs
  rw [hdeadline] at hsnap
  obtain ⟨c, hc⟩ : ∃ c, c = searchSnapshot tz units true vec fb s.regs := ⟨_, rfl⟩
  have hexec : exec (.search tz units true vec fb) s =
      .next (publishOutcome (latchCode .timedOut (takeSnapshot c (started s)))) := by
    simp only [exec, execSearch, hidle, Bool.false_eq_true, if_false, hc]
    exact congrArg _ (runSearchCommand_zeroDeadline htz hrange hdigest hunits rfl hdeadline)
  refine ⟨s.regs.status.accept.start.publish .timedOut,
    (publishOutcome (latchCode .timedOut (takeSnapshot c (started s)))).coord, statusWord_zeroDeadline _, rfl, rfl, rfl,
    rfl, rfl, hc.trans hsnap, hexec.trans (congrArg _ ?_)⟩
  exact publishOutcome_of_rest (s := latchCode .timedOut (takeSnapshot c (started s))) hrest nofun

/-! ### Reports and the deadline in C_WAIT -/

/-- The deadline expiry, while `rst` is low (R219). -/
theorem step_deadline {s : State} {rest : List Event} (h : s.env.agenda = .deadline :: rest) (hr : s.env.rst = false) :
    step s = .next (deadlineMove (s.withEnv { s.env with agenda := rest })) := by
  have hlow : ¬ s.env.rst = true := by rw [hr]; nofun
  exact (step_event h).trans (congrArg _ (if_neg hlow))

/-- A report of the search consumed in C_WAIT, while `rst` is low (R215). -/
theorem step_report_wait {s : State} {k : Nat} {u : SearchUnit} {rest : List Event}
    (h : s.env.agenda = .report k :: rest) (hr : s.env.rst = false) (hc : s.coord.cstate = .wait)
    (hk : k < s.coord.snap.units) (hu : s.units[k]? = some u) (hreport : u.report ≠ .none) :
    step s = waitReport k u (s.withEnv { s.env with agenda := rest }) :=
  (step_report h hr).trans (reportMove_wait (s := s.withEnv { s.env with agenda := rest }) hu hk hreport hc)

/-- Settles O38: each of the four events is `decideOutcome` with its own code and reason, after the report is consumed;
only FOUND latches another nonce. -/
theorem decidingEventsLatchAndStop : Obligations.DecidingEventsLatchAndStop := by
  intro s e rest code reason nonce us hn hr hc hevent
  refine ⟨stopUnits s.coord.snap.units reason us, length_stopUnits _ _ _, fun _ _ => getElem?_stopUnits_of_some, ?_⟩
  change step s = .next (decideOutcome code reason
    (latchNonce nonce ((s.withEnv { s.env with agenda := rest }).withUnits us)))
  rcases hevent with ⟨k, u, rfl, hk, hu, rfl, hkind⟩ | ⟨rfl, hdl, hlimit, rfl, rfl, rfl, rfl⟩
  · have hstep := step_report_wait hn hr hc hk hu
    rcases hkind with ⟨hreport, rfl, rfl, rfl⟩ | ⟨hreport, rfl, rfl, rfl⟩ | ⟨hreport, rfl, rfl, rfl⟩
    all_goals
      rw [hstep (by rw [hreport]; nofun), waitReport, hreport]
      rfl
  · rw [step_deadline hn hr]
    exact congrArg _ (if_pos ⟨hc, (deadlineExpired_iff _).2 ⟨hdl, hlimit⟩⟩)

/-- While some unit is not recorded the report is counted and nothing else happens (R217). -/
theorem consumeExhausted_counted {s : State} {k : Nat} {u : SearchUnit}
    (h : allExhausted s.coord.snap.units (s.units.set k { u with report := .none, exh := true }) = false) :
    consumeExhausted k u s = recordExhausted k u s :=
  if_neg (Bool.eq_false_iff.1 h)

/-- The last report of all ends the search EXHAUSTED (R217, R223). -/
theorem consumeExhausted_last {s : State} {k : Nat} {u : SearchUnit}
    (h : allExhausted s.coord.snap.units (s.units.set k { u with report := .none, exh := true }) = true) :
    consumeExhausted k u s = publishOutcome (latchCode .exhausted (recordExhausted k u s)) :=
  if_pos h

/-- Settles O39: the report is counted, and `allExhausted` says whether it was the last. -/
theorem exhaustedReportsAreCounted : Obligations.ExhaustedReportsAreCounted := by
  rintro s k u rest us hn hr hc hk hu hreport rfl
  have hstep := step_report_wait hn hr hc hk hu (by rw [hreport]; nofun)
  simp only [waitReport, hreport] at hstep
  refine ⟨fun ⟨j, v, hj, hv, hexh⟩ => hstep.trans (congrArg _ (consumeExhausted_counted ?counted)), fun hall =>
    ⟨s.regs.status.publish .exhausted, _, statusWord_publish_exhausted _, List.length_mapIdx.trans List.length_set,
      fun _ _ => getElem?_releaseUnits_of_some, hstep.trans (congrArg _ ?last)⟩⟩
  case counted =>
    refine Bool.eq_false_iff.2 fun hall => ?_
    rw [(allExhausted_iff _ _).1 hall j v hj hv] at hexh
    cases hexh
  case last =>
    have hlast := (allExhausted_iff s.coord.snap.units _).2 hall
    exact (consumeExhausted_last (s := s.withEnv { s.env with agenda := rest }) hlast).trans
      (publishOutcome_other _ nofun)

/-! ### CANCELLED -/

/-- Of all events only a CANCEL taken in C_WAIT leaves the latch set with CANCELLED, where it was not (R221, R226). -/
theorem cancelled_effect {e : Event} {s t : State} (he : Effect e s t)
    (ht : t.coord.latch.set = true ∧ t.coord.latch.code = .cancelled) :
    (s.coord.latch.set = true ∧ s.coord.latch.code = .cancelled) ∨
      ∃ a, e = .host a ∧ decode a = .ok .cancel ∧ s.coord.cstate = .wait := by
  obtain ⟨hset, hcode⟩ := ht
  cases he with
  | rst b =>
    cases b
    · exact .inl ⟨hset, hcode⟩
    · cases hset
  | cancelled a _ _ hd hc => exact .inr ⟨a, rfl, hd, hc⟩
  | launched => cases hset
  | zeroDeadline => cases hcode
  | found => cases hcode
  | timedOut => cases hcode
  | failed => cases hcode
  | exhausted => cases hcode
  | expired => cases hcode
  | _ => exact .inl ⟨hset, hcode⟩

/-- Settles O54: CANCEL is one word, and no move of the block's own is a host access. -/
theorem onlyHostCancelCancels : Obligations.OnlyHostCancelCancels := by
  intro s t hstep ht hs
  obtain rfl | ⟨e, rest, p, he, hnext⟩ := step_inversion hstep
  · exact absurd ht hs
  obtain ⟨a, rfl, hd, hc⟩ := (cancelled_effect he ht).resolve_left hs
  obtain ⟨rfl, -⟩ := encodeOfDecodeIsIdentity a _ hd
  exact ⟨rest, hnext.resolve_right fun h => h.1 _ rfl, hc⟩

end Machine
end Sys2Proof
end

section
/-! The block's own moves: which are enabled, that a running search always has one, and that each changes the state
(R215, R219, R222, R225, R228, R287, R312). -/

namespace Sys2Proof
namespace Machine

/-! ### The enabled moves -/

/-- A move of the block's own that the spec enables in `s`, with `rst` low: an evaluation of a searching unit, the
consumption of a pending report of the running search, the deadline expiry or the end of a drained search
(R182, R215, R219, R222). -/
def MoveEnabled (s : State) (e : Event) : Prop :=
  (∃ k u, e = .unit k ∧ s.units[k]? = some u ∧ u.ustate = .searching) ∨
  (∃ k u, e = .report k ∧ s.units[k]? = some u ∧ s.coord.cstate ≠ .idle ∧ k < s.coord.snap.units ∧ u.report ≠ .none) ∨
  (e = .deadline ∧ s.coord.cstate = .wait ∧ deadlineExpired s.coord = true) ∨
  (e = .publish ∧ s.coord.cstate = .drain ∧ allDrained s.coord.snap.units s.units = true)

theorem mem_unitEvents_iff (c : Coordinator) (k : Nat) (u : SearchUnit) (e : Event) :
    e ∈ unitEvents c k u ↔
      (e = .unit k ∧ u.ustate = .searching) ∨
        (e = .report k ∧ c.cstate ≠ .idle ∧ k < c.snap.units ∧ u.report ≠ .none) := by
  simp only [unitEvents, List.mem_append, List.mem_ite_nil_right, List.mem_singleton]
  tauto

/-- `enabledMoves` lists the moves the spec enables, and no other. -/
theorem mem_enabledMoves_iff {s : State} (hr : s.env.rst = false) (e : Event) :
    e ∈ enabledMoves s ↔ MoveEnabled s e := by
  have hunits : e ∈ (s.units.mapIdx fun k u => unitEvents s.coord k u).flatten ↔
      ∃ k u, s.units[k]? = some u ∧ e ∈ unitEvents s.coord k u := by
    constructor
    · intro h
      obtain ⟨_, hl, he⟩ := List.mem_flatten.1 h
      obtain ⟨k, hk, rfl⟩ := List.mem_mapIdx.1 hl
      exact ⟨k, _, List.getElem?_eq_getElem hk, he⟩
    · rintro ⟨k, u, hu, he⟩
      obtain ⟨hk, rfl⟩ := List.getElem?_eq_some_iff.1 hu
      exact List.mem_flatten.2 ⟨_, List.mem_mapIdx.2 ⟨k, hk, rfl⟩, he⟩
  simp only [enabledMoves, hr, Bool.false_eq_true, if_false, List.mem_append, hunits, mem_unitEvents_iff,
    List.mem_ite_nil_right, List.mem_singleton, MoveEnabled]
  constructor
  · rintro ((⟨k, u, hu, ⟨rfl, hs⟩ | ⟨rfl, hrep⟩⟩ | ⟨hd, rfl⟩) | ⟨hp, rfl⟩)
    · exact .inl ⟨k, u, rfl, hu, hs⟩
    · exact .inr (.inl ⟨k, u, rfl, hu, hrep⟩)
    · exact .inr (.inr (.inl ⟨rfl, hd⟩))
    · exact .inr (.inr (.inr ⟨rfl, hp⟩))
  · rintro (⟨k, u, rfl, hu, hs⟩ | ⟨k, u, rfl, hu, hrep⟩ | ⟨rfl, hd⟩ | ⟨rfl, hp⟩)
    · exact .inl (.inl ⟨k, u, hu, .inl ⟨rfl, hs⟩⟩)
    · exact .inl (.inl ⟨k, u, hu, .inr ⟨rfl, hrep⟩⟩)
    · exact .inl (.inr ⟨hd, rfl⟩)
    · exact .inr ⟨hp, rfl⟩

/-! ### A running search has an enabled move -/

/-- A launched unit that searches, or whose report is pending, has a move of its own (R182, R215). -/
theorem moveEnabled_of_unit {s : State} {k : Nat} {u : SearchUnit} (hc : s.coord.cstate ≠ .idle)
    (hk : k < s.coord.snap.units) (hu : s.units[k]? = some u) (h : u.ustate = .searching ∨ u.report ≠ .none) :
    ∃ e, MoveEnabled s e := by
  rcases h with hs | hrep
  · exact ⟨.unit k, .inl ⟨k, u, rfl, hu, hs⟩⟩
  · exact ⟨.report k, .inr (.inl ⟨k, u, rfl, hu, hc, hk, hrep⟩)⟩

/-- In C_WAIT the unit whose EXHAUSTED report is not counted searches, or its report is pending (R217, R228). -/
theorem exists_moveEnabled_wait {s : State} (h : ControlConsistent s) (hc : s.coord.cstate = .wait) :
    ∃ e, MoveEnabled s e := by
  obtain ⟨-, -, -, ⟨k, u, hk, hu, hexh⟩, hbelow, -⟩ := (controlConsistent_wait_iff hc).1 h
  obtain ⟨-, hidle, -, -, -, -, hpending⟩ := hbelow k u hu hk
  refine moveEnabled_of_unit (by rw [hc]; nofun) hk hu ?_
  by_cases hs : u.ustate = .searching
  · exact .inl hs
  · exact .inr (hpending hexh ((isTerminal_iff _).2 ⟨hs, hidle⟩))

/-- In C_DRAIN, when no unit has a move of its own the search is drained and can be published (R222, R228). -/
theorem exists_moveEnabled_drain {s : State} (h : ControlConsistent s) (hc : s.coord.cstate = .drain) :
    ∃ e, MoveEnabled s e := by
  obtain ⟨-, -, -, -, hbelow, -⟩ := (controlConsistent_drain_iff hc).1 h
  by_cases hd : allDrained s.coord.snap.units s.units = true
  · exact ⟨.publish, .inr (.inr (.inr ⟨rfl, hc, hd⟩))⟩
  simp only [allDrained_iff, not_forall] at hd
  obtain ⟨k, u, hk, hu, hopen⟩ := hd
  obtain ⟨-, hidle, -⟩ := hbelow k u hu hk
  refine moveEnabled_of_unit (by rw [hc]; nofun) hk hu ?_
  by_contra hno
  obtain ⟨hs, hrep⟩ := not_or.1 hno
  exact hopen ⟨(isTerminal_iff _).2 ⟨hs, hidle⟩, not_not.1 hrep⟩

theorem exists_moveEnabled {s : State} (h : ControlConsistent s) (hc : s.coord.cstate ≠ .idle) :
    ∃ e, MoveEnabled s e := by
  cases hcs : s.coord.cstate with
  | idle => exact absurd hcs hc
  | wait => exact exists_moveEnabled_wait h hcs
  | drain => exact exists_moveEnabled_drain h hcs

/-! ### An enabled move changes the state -/

/-- Another context of unit `k` is another state. -/
theorem ne_of_unit {s t : State} {k : Nat} {u v : SearchUnit} (hu : s.units[k]? = some u) (hv : t.units[k]? = some v)
    (hne : v ≠ u) : t ≠ s := by
  rintro rfl
  exact hne (Option.some.inj (hv.symm.trans hu))

theorem ne_of_cstate {s t : State} (h : t.coord.cstate ≠ s.coord.cstate) : t ≠ s := by
  rintro rfl
  exact h rfl

/-- An evaluation ends its unit or moves its counter (R182, R185). -/
theorem unitStep_ne {pr : Params} {x : Bool} {u u' : SearchUnit} (hs : u.ustate = .searching)
    (h : unitStep pr x u = .ok u') : u' ≠ u := by
  rintro rfl
  rcases unitStep_progress h with hterm | ⟨-, hn, -⟩
  · rw [hs] at hterm
    cases hterm
  · split at hn <;> simp at hn

/-- A searching unit moves (R182, R185). -/
theorem unitMove_changes {s : State} {k : Nat} {u : SearchUnit} (hbuf : BuffersSound s) (hu : s.units[k]? = some u)
    (hs : u.ustate = .searching) : ∃ t, unitMove k s = .next t ∧ t ≠ s := by
  obtain ⟨u', hu'⟩ := unitStep_ok (pr := s.params) (((buffersSound_iff s).1 hbuf).2 u (List.mem_of_getElem? hu))
    (deadlineExpired s.coord)
  exact ⟨_, unitMove_next hu hs hu', ne_of_unit hu (getElem?_set_self hu) (unitStep_ne hs hu')⟩

/-- A report consumed leaves the unit's context without it (R215). -/
theorem ne_consumed {u : SearchUnit} (hr : u.report ≠ .none) (x : Bool) : { u with report := .none, exh := x } ≠ u :=
  fun h => hr (congrArg SearchUnit.report h).symm

/-- A report in C_WAIT is counted, or ends C_WAIT (R216–R219). -/
theorem waitReport_changes {s : State} {k : Nat} {u : SearchUnit} (hc : s.coord.cstate = .wait)
    (hu : s.units[k]? = some u) (hr : u.report ≠ .none) (hnot : u.report ≠ .cancelled) :
    ∃ t, waitReport k u s = .next t ∧ t ≠ s := by
  have hdrain : ∀ {t : State}, t.coord.cstate = .drain → t ≠ s := fun ht => ne_of_cstate (by rw [ht, hc]; nofun)
  unfold waitReport
  split
  · exact absurd (by assumption) hr
  · exact ⟨_, rfl, hdrain rfl⟩
  · refine ⟨_, rfl, ?_⟩
    cases hall : allExhausted s.coord.snap.units (s.units.set k { u with report := .none, exh := true }) with
    | true =>
      rw [consumeExhausted_last hall]
      exact ne_of_cstate (by rw [hc]; nofun)
    | false =>
      rw [consumeExhausted_counted hall]
      exact ne_of_unit hu (getElem?_set_self hu) (ne_consumed hr true)
  · exact ⟨_, rfl, hdrain rfl⟩
  · exact absurd (by assumption) hnot
  · exact ⟨_, rfl, hdrain rfl⟩

/-- A pending report of a running search is consumed (R215, R222). -/
theorem reportMove_changes {s : State} {k : Nat} {u : SearchUnit} (hctl : ControlConsistent s)
    (hc : s.coord.cstate ≠ .idle) (hu : s.units[k]? = some u) (hk : k < s.coord.snap.units) (hr : u.report ≠ .none) :
    ∃ t, reportMove k s = .next t ∧ t ≠ s := by
  cases hcs : s.coord.cstate with
  | idle => exact absurd hcs hc
  | wait =>
    rw [reportMove_wait hu hk hr hcs]
    exact waitReport_changes hcs hu hr (report_ne_cancelled_of_wait hctl hcs hu hk)
  | drain => exact ⟨_, reportMove_drain hu hk hr hcs, ne_of_unit hu (getElem?_set_self hu) (ne_consumed hr u.exh)⟩

/-- With `rst` low each enabled move is taken, and leaves another state (R225, R312). -/
theorem takeEvent_changes {s : State} {e : Event} (h : Sound s) (hr : s.env.rst = false) (he : MoveEnabled s e) :
    ∃ t, takeEvent e s = .next t ∧ t ≠ s := by
  obtain ⟨hbuf, -, hctl, -⟩ := h
  rcases he with ⟨k, u, rfl, hu, hs⟩ | ⟨k, u, rfl, hu, hc, hk, hrep⟩ | ⟨rfl, hc, hx⟩ | ⟨rfl, hc, hd⟩
  · simpa only [takeEvent, hr, Bool.false_eq_true, if_false] using unitMove_changes hbuf hu hs
  · simpa only [takeEvent, hr, Bool.false_eq_true, if_false] using reportMove_changes hctl hc hu hk hrep
  · refine ⟨decideOutcome .timedOut .deadline s, ?_, ne_of_cstate (by rw [hc]; nofun)⟩
    simp only [takeEvent, hr, deadlineMove, if_pos (And.intro hc hx)]
    rfl
  · refine ⟨publishOutcome s, ?_, ne_of_cstate (by rw [hc]; nofun)⟩
    simp only [takeEvent, hr, publishMove, if_pos (And.intro hc hd)]
    rfl

/-- Settles O44: a running search has an enabled move, and each one changes CSTATE or a unit. -/
theorem noStuckCoordinator : Obligations.NoStuckCoordinator := by
  intro s h hr
  refine ⟨fun hc => ?_, fun e he => takeEvent_changes h hr ((mem_enabledMoves_iff hr e).1 he)⟩
  obtain ⟨-, -, hctl, -⟩ := h
  obtain ⟨e, he⟩ := exists_moveEnabled hctl hc
  exact List.ne_nil_of_mem ((mem_enabledMoves_iff hr e).2 he)

/-! ### A step with no event named -/

/-- The free move is an enabled one, taken in the state as it is but for the count of picks (R225). -/
theorem freeMove_enabled {s : State} (h : enabledMoves s ≠ []) :
    ∃ e ∈ enabledMoves s, ∃ n, freeMove s = takeEvent e (s.withEnv { s.env with picks := n }) := by
  unfold freeMove
  split
  · rename_i hnil
    exact absurd hnil h
  · rename_i e he
    exact ⟨e, by rw [he]; exact List.mem_singleton_self e, s.env.picks, rfl⟩
  · rename_i e es _ he
    have hlt : Config.pickMove s.env.picks % (e :: es).length < (e :: es).length := Nat.mod_lt _ (Nat.succ_pos _)
    refine ⟨(e :: es).getD (Config.pickMove s.env.picks % (e :: es).length) e, ?_, _, rfl⟩
    rw [he, List.getD_eq_getElem _ _ hlt]
    exact List.getElem_mem hlt

/-- With an empty agenda the step is the free move, which is the step of a schedule that names it (R225). -/
theorem step_unscheduled {s : State} (hn : s.env.agenda = []) (h : enabledMoves s ≠ []) :
    ∃ e ∈ enabledMoves s, ∃ n, step s = step { s with env := { s.env with agenda := [e], picks := n } } := by
  obtain ⟨e, he, n, hfree⟩ := freeMove_enabled h
  have hstep : step s = freeMove s := by rw [step, nextStep, hn]
  refine ⟨e, he, n, hstep.trans (hfree.trans ?_)⟩
  rw [step_event (e := e) (rest := []) rfl, ← hn]
  rfl

/-- Settles O60: the running search has an enabled move, and the free one is among them. -/
theorem unscheduledStepTakesEnabledMove : Obligations.UnscheduledStepTakesEnabledMove := by
  intro s h hr hn hc
  obtain ⟨e, he, n, hstep⟩ := step_unscheduled hn ((noStuckCoordinator s h hr).1 hc)
  refine ⟨e, n, ?_, hstep⟩
  rcases (mem_enabledMoves_iff hr e).1 he with hunit | ⟨k, u, rfl, hu, -, hk, hrep⟩ | ⟨rfl, hw, hx⟩ | ⟨rfl, hd, hall⟩
  · exact .inl hunit
  · exact .inr (.inl ⟨k, u, rfl, hu, hk, hrep⟩)
  · exact .inr (.inr (.inl ⟨rfl, hw, (deadlineExpired_iff _).1 hx⟩))
  · refine .inr (.inr (.inr ⟨rfl, hd, fun k u hk hu => ?_⟩))
    obtain ⟨hterm, hrep⟩ := (allDrained_iff _ _).1 hall k u hk hu
    exact ⟨(isTerminal_iff _).1 hterm, hrep⟩

/-- In C_IDLE no move is enabled: every unit is at rest (R228). -/
theorem not_moveEnabled_idle {s : State} (h : ControlConsistent s) (hc : s.coord.cstate = .idle) (e : Event) :
    ¬ MoveEnabled s e := by
  rintro (⟨k, u, -, hu, hs⟩ | ⟨k, u, -, -, hrun, -⟩ | ⟨-, hw, -⟩ | ⟨-, hd, -⟩)
  · exact (running_of_searching h hu hs).1 hc
  · exact hrun hc
  · rw [hc] at hw; cases hw
  · rw [hc] at hd; cases hd

theorem enabledMoves_idle {s : State} (h : ControlConsistent s) (hc : s.coord.cstate = .idle) : enabledMoves s = [] := by
  cases hr : s.env.rst with
  | true => exact if_pos hr
  | false =>
    exact List.eq_nil_iff_forall_not_mem.2 fun e he => not_moveEnabled_idle h hc e ((mem_enabledMoves_iff hr e).1 he)

/-- Settles O45: an idle block has no enabled move, so the free move is none. -/
theorem idleBlockStandsStill : Obligations.IdleBlockStandsStill := by
  intro s h hc hn
  rw [step, nextStep, hn]
  simp only [freeMove, enabledMoves_idle h hc]

end Machine
end Sys2Proof
end

section
/-! The host commands: a fetched access runs as its instruction, and what NOP, SET_DIGEST_BYTE, an illegal word and a search
command that fails validation leave (R240–R243, R247). -/

namespace Sys2Proof
namespace Machine

/-! ### The fetched instruction (R240, R248, R277) -/

/-- Settles O5: with `rst` low the access is taken, and an access that decodes runs as its instruction. -/
theorem stepRunsDecodedInstruction : Obligations.StepRunsDecodedInstruction := by
  intro s a rest i hn hrst hdec
  rw [step_host hn hrst, hostAccess, hdec]
  rfl

/-! ### A command that fails (R247, R272) -/

/-- STATUS after an accepted command fails: its code and reason, DONE, and no other flag (R240, R272). -/
theorem statusWord_accept_raise (code : StatusCode) (reason : BitVec 4) (st : Status) :
    statusWord (st.accept.raise code reason) = 0#20 ++ reason ++ 0#1 ++ 1#1 ++ 0#1 ++ 0#1 ++ codeBits code := rfl

/-- A word that decodes to no command, while not BUSY (R88, R247). -/
theorem hostAccess_illegal {s : State} {w : Word} (hb : isBusy s = false) (hw : ∀ i, decodeCommand w ≠ .ok i) :
    hostAccess (.write 32 0 w) s = .next (illegalAccepted s) := by
  have hdec : decode (.write 32 0 w) = decodeCommand w := rfl
  cases h : decodeCommand w with
  | ok i => exact absurd h (hw i)
  | error e =>
    obtain rfl := decodeCommand_error h
    simp only [hostAccess, hdec, h, refusalOf, illegalCommand, hb, Bool.false_eq_true, if_false]

/-- Settles O7: the access is `ILLEGAL`, which raises CODE 7 on an accepted command with NONCE cleared. -/
theorem illegalWordEndsIllegalCommand : Obligations.IllegalWordEndsIllegalCommand := by
  intro s w rest hn hrst hb hw
  have hillegal := hostAccess_illegal (s := s.withEnv { s.env with agenda := rest }) hb hw
  exact ⟨_, statusWord_accept_raise .illegalCommand 0#4 s.regs.status, (step_host hn hrst).trans hillegal⟩

/-! ### NOP (R241) -/

/-- Settles O9: accepted, NOP clears bit 5 of STATUS as every command does; while BUSY it is admitted and does nothing. -/
theorem nopClearsRejectedOnly : Obligations.NopClearsRejectedOnly := by
  intro s
  refine ⟨fun hb => ?busy, fun hb => ⟨_, statusWord_accept s.regs.status, ?accepted⟩⟩
  case busy => simp only [exec, execNop, hb, if_true]
  case accepted =>
    simp only [exec, execNop, hb, Bool.false_eq_true, if_false]
    rfl

/-! ### SET_DIGEST_BYTE (R242) -/

/-- The digest register file after one byte is written (R242). -/
theorem getD_digest_set {d : List Byte} {i : Nat} (hi : i < d.length) (val : Byte) (j : Nat) :
    (d.set i val).getD j 0 = if j = i then val else d.getD j 0 := by
  by_cases hj : j = i
  · subst hj
    rw [if_pos rfl, List.getD_eq_getElem?_getD, List.getElem?_set_self hi, Option.getD_some]
  · rw [if_neg hj, List.getD_eq_getElem?_getD, List.getElem?_set_ne (Ne.symm hj), List.getD_eq_getElem?_getD]

/-- Settles O10: IDX is an index of the 32-byte register file, so the write reaches its byte and no other; a dropped write
sets bit 5 of STATUS alone. -/
theorem setDigestByteWritesItsByte : Obligations.SetDigestByteWritesItsByte := by
  intro s idx val hlen
  have hidx : idx.toNat < s.regs.digest.length := by rw [hlen]; exact idx.isLt
  refine ⟨fun hb => ⟨_, _, statusWord_accept s.regs.status, List.length_set.trans hlen,
    fun j _ => getD_digest_set hidx val j, ?accepted⟩, fun hb => ⟨_, statusWord_reject s.regs.status, ?dropped⟩⟩
  case accepted =>
    simp only [exec, execSetDigestByte, hb, Bool.false_eq_true, if_false]
    rfl
  case dropped =>
    simp only [exec, execSetDigestByte, hb, if_true]
    rfl

/-! ### A search command that fails validation (R243, R271) -/

theorem failedCheck_target {tz : Nat} (units : Nat) (s : State) (htz : 243 < tz) :
    failedCheck tz units s = some 1#4 := by
  rw [failedCheck, if_pos htz]

theorem failedCheck_range {tz : Nat} (units : Nat) {s : State} (htz : tz ≤ 243)
    (hrange : (maxNonce s.regs).toNat < (minNonce s.regs).toNat) : failedCheck tz units s = some 2#4 := by
  rw [failedCheck, if_neg (Nat.not_lt.2 htz), if_pos hrange]

theorem failedCheck_digest {tz : Nat} (units : Nat) {s : State} (htz : tz ≤ 243)
    (hrange : (minNonce s.regs).toNat ≤ (maxNonce s.regs).toNat) (hdigest : s.regs.digestValid ≠ BitVec.allOnes 32) :
    failedCheck tz units s = some 3#4 := by
  rw [failedCheck, if_neg (Nat.not_lt.2 htz), if_neg (Nat.not_lt.2 hrange), if_pos hdigest]

theorem failedCheck_units {tz units : Nat} {s : State} (htz : tz ≤ 243)
    (hrange : (minNonce s.regs).toNat ≤ (maxNonce s.regs).toNat) (hdigest : s.regs.digestValid = BitVec.allOnes 32)
    (hunits : maxUnits s < units) : failedCheck tz units s = some 4#4 := by
  rw [failedCheck, if_neg (Nat.not_lt.2 htz), if_neg (Nat.not_lt.2 hrange), if_neg (not_not.2 hdigest), if_pos hunits]

/-- A search command that fails a check raises INVALID_INPUT with that REASON; the checks read no register that accepting the
command writes (R243, R272). -/
theorem runSearchCommand_invalid {s : State} {units : Nat} {c : Snapshot} {reason : BitVec 4}
    (h : failedCheck c.tz units s = some reason) :
    runSearchCommand units c (acceptCommand s) =
      raiseStatus .invalidInput reason ((acceptCommand s).withNonce 0) := by
  have hcheck : failedCheck c.tz units ((acceptCommand s).withNonce 0) = some reason := h
  simp only [runSearchCommand, hcheck]

theorem exec_runSearch_invalid {s : State} {tz : BitVec 8} {reason : BitVec 4} (vec : Bool) (hb : isBusy s = false)
    (h : failedCheck tz.toNat 0 s = some reason) :
    exec (.runSearch tz vec) s = .next (raiseStatus .invalidInput reason ((acceptCommand s).withNonce 0)) := by
  simp only [exec, execRunSearch, hb, Bool.false_eq_true, if_false]
  exact congrArg _ (runSearchCommand_invalid h)

theorem exec_search_invalid {s : State} {tz units : BitVec 8} {reason : BitVec 4} (dl vec fb : Bool)
    (hb : isBusy s = false) (h : failedCheck tz.toNat units.toNat s = some reason) :
    exec (.search tz units dl vec fb) s =
      .next (raiseStatus .invalidInput reason ((acceptCommand s).withNonce 0)) := by
  simp only [exec, execSearch, hb, Bool.false_eq_true, if_false]
  exact congrArg _ (runSearchCommand_invalid h)

/-- Settles O14: both search commands raise INVALID_INPUT with the first check that fails, and the four checks are tried in
the order of the statement. -/
theorem invalidSearchFailsWithFirstReason : Obligations.InvalidSearchFailsWithFirstReason := by
  intro s i tz units reason hb hcmd hreason
  have hraise : ∀ {r : BitVec 4}, failedCheck tz.toNat units s = some r →
      exec i s = .next (raiseStatus .invalidInput r ((acceptCommand s).withNonce 0)) := by
    intro r h
    rcases hcmd with ⟨vec, rfl, rfl⟩ | ⟨n, dl, vec, fb, rfl, rfl⟩
    · exact exec_runSearch_invalid vec hb h
    · exact exec_search_invalid dl vec fb hb h
  have hstatus := fun r => statusWord_accept_raise .invalidInput r s.regs.status
  rcases hreason with ⟨htz, rfl⟩ | ⟨htz, hrange, rfl⟩ | ⟨htz, hrange, hdigest, rfl⟩ | ⟨htz, hrange, hdigest, hunits, rfl⟩
  · exact ⟨_, hstatus 1#4, hraise (failedCheck_target units s htz)⟩
  · exact ⟨_, hstatus 2#4, hraise (failedCheck_range units htz hrange)⟩
  · exact ⟨_, hstatus 3#4, hraise (failedCheck_digest units htz hrange hdigest)⟩
  · exact ⟨_, hstatus 4#4, hraise (failedCheck_units htz hrange hdigest hunits)⟩

end Machine
end Sys2Proof
end
